-- ==== Sys2Proof/Word.lean ====
section
/-! DEFINITION. The machine word of CMAC and the constants of its width (00_scope R5, R9). -/

namespace Sys2Proof

/-- A word: W = 64 bits (00_scope R5). -/
abbrev Word := BitVec 64

/-- The Montgomery radix R = 2^W (00_scope R5, 41_montgomery R120). -/
abbrev radix : Nat := 2 ^ 64

/-- The double-width bound 2^(2W): what a double-width value must stay below (00_scope R10). -/
abbrev doubleRadix : Nat := 2 ^ 128

/-- The engine's bound on a modulus, 2^(W-2) (41_montgomery R120). -/
abbrev modulusBound : Nat := 2 ^ 62

end Sys2Proof
end

