-- ==== Sys2Proof/Syntax.lean ====
section
/-! DEFINITION. The 35 commands of CMAC (30_encoding R86), one constructor per row of the opcode table. -/

namespace Sys2Proof

/-- A general register number 0..15: a 4-bit field of the command word (30_encoding R81). -/
abbrev Reg := BitVec 4

/-- A control register number: the 8-bit field CREG of RDC (30_encoding R83, 10_state R37). -/
abbrev CregNum := BitVec 8

/-- LOGN, the 6-bit base-2 logarithm of a transform length (30_encoding R84). -/
abbrev LogLen := BitVec 6

/-- A command. The operands of each constructor stand in the order of the "fields" column of 30_encoding R86. -/
inductive Instr where
  | nop
  | li (rd : Reg) (imm16 : BitVec 16)
  | lis (rd : Reg) (imm16 : BitVec 16)
  | mov (rd ra : Reg)
  | rdc (rd : Reg) (creg : CregNum)
  | setmod (ra : Reg)
  | setroot (ra : Reg)
  | mfrom (rd ra : Reg)
  | mto (rd ra : Reg)
  | madd (rd ra rb : Reg)
  | msub (rd ra rb : Reg)
  | mmul (rd ra rb : Reg)
  | mneg (rd ra : Reg)
  | mredc (rd ra rb : Reg)
  | meq (rd ra rb : Reg)
  | mcmp (rd ra rb : Reg)
  | mpowm (rd ra rb rc : Reg)
  | mpow (rd ra rb : Reg)
  | minv (rd ra : Reg)
  | mdiv (rd ra rb : Reg)
  | pld (rd ra : Reg)
  | pst (ra rb : Reg)
  | precomp (logn : LogLen)
  | fntt (ra : Reg) (logn : LogLen)
  | intt (ra : Reg) (logn : LogLen)
  | pmul (ra rb : Reg) (logn : LogLen)
  | phad (ra rb rc : Reg)
  | pvadd (ra rb rc : Reg)
  | pvsub (ra rb rc : Reg)
  | psadd (ra rb rc : Reg)
  | pssub (ra rb rc : Reg)
  | psmul (ra rb rc : Reg)
  | psdiv (ra rb rc : Reg)
  | isprime (rd ra : Reg)
  | mrwit (rd ra : Reg)
  deriving DecidableEq, Repr

end Sys2Proof
end

