-- ==== Sys2Proof/WellFormed.lean ====
section
/-! DEFINITION. Which terms of `Instr` are commands (30_encoding R86, R87). -/

namespace Sys2Proof

/-- The highest control register number, CONFIG's (10_state R37); 11 to 255 are reserved. -/
abbrev lastCreg : CregNum := 10

/-- A term is a command unless it is an RDC of a reserved control register (30_encoding R87, point 4). The widths of
all other fields are in their types; a LOGN above PLOG is no encoding error but BADLEN (30_encoding R87). -/
def Instr.wellFormed : Instr → Bool
  | .rdc _ creg => decide (creg ≤ lastCreg)
  | .nop | .li _ _ | .lis _ _ | .mov _ _ => true
  | .setmod _ | .setroot _ => true
  | .mfrom _ _ | .mto _ _ | .madd _ _ _ | .msub _ _ _ | .mmul _ _ _ | .mneg _ _ | .mredc _ _ _ => true
  | .meq _ _ _ | .mcmp _ _ _ => true
  | .mpowm _ _ _ _ | .mpow _ _ _ | .minv _ _ | .mdiv _ _ _ => true
  | .pld _ _ | .pst _ _ | .precomp _ | .fntt _ _ | .intt _ _ | .pmul _ _ _ => true
  | .phad _ _ _ | .pvadd _ _ _ | .pvsub _ _ _ => true
  | .psadd _ _ _ | .pssub _ _ _ | .psmul _ _ _ | .psdiv _ _ _ => true
  | .isprime _ _ | .mrwit _ _ => true

end Sys2Proof
end

