-- ==== Sys2Proof/Decode.lean ====
section
/-! DEFINITION. The command decoder and encoder (30_encoding R80 to R88) and the opcode map as data (R86). -/

namespace Sys2Proof

/-- Why a CMD value is no command, the four cases of 30_encoding R87. Every one of them is ILLCMD. -/
inductive DecodeError where
  /-- Bits 63:32 of the CMD write are not zero (point 1). -/
  | highBits
  /-- The opcode byte is not assigned (point 2). -/
  | unassignedOpcode (op : BitVec 8)
  /-- A must-be-zero field or an unused register field is not zero (point 3). -/
  | mustBeZero (op : BitVec 8)
  /-- RDC of a control register above 10 (point 4). -/
  | reservedCreg (creg : CregNum)
  deriving DecidableEq, Repr

/-! ### The fields of the four formats -/

/-- OP, bits 31:24 of every format (30_encoding R80). -/
def fieldOp (w : BitVec 32) : BitVec 8 := w.extractLsb' 24 8

/-- RD, bits 23:20 (30_encoding R81 to R83); Z4 of format N (R84). -/
def fieldRd (w : BitVec 32) : Reg := w.extractLsb' 20 4

/-- RA, bits 19:16 (30_encoding R81, R84); Z4 of format I (R82). -/
def fieldRa (w : BitVec 32) : Reg := w.extractLsb' 16 4

/-- RB, bits 15:12 (30_encoding R81, R84). -/
def fieldRb (w : BitVec 32) : Reg := w.extractLsb' 12 4

/-- RC, bits 11:8 (30_encoding R81). -/
def fieldRc (w : BitVec 32) : Reg := w.extractLsb' 8 4

/-- Z8 of format R and CREG of format C, bits 7:0 (30_encoding R81, R83). -/
def fieldLow8 (w : BitVec 32) : BitVec 8 := w.extractLsb' 0 8

/-- IMM16, bits 15:0 (30_encoding R82). -/
def fieldImm16 (w : BitVec 32) : BitVec 16 := w.extractLsb' 0 16

/-- Z12 of format C, bits 19:8 (30_encoding R83). -/
def fieldZ12 (w : BitVec 32) : BitVec 12 := w.extractLsb' 8 12

/-- Z6 of format N, bits 11:6 (30_encoding R84). -/
def fieldZ6 (w : BitVec 32) : BitVec 6 := w.extractLsb' 6 6

/-- LOGN of format N, bits 5:0 (30_encoding R84). -/
def fieldLogn (w : BitVec 32) : LogLen := w.extractLsb' 0 6

/-! ### Decoding -/

/-- A row accepts the word when its must-be-zero and unused fields are zero (30_encoding R87, point 3). -/
def acceptIf (zero : Bool) (w : BitVec 32) (i : Instr) : Except DecodeError Instr :=
  if zero then .ok i else .error (.mustBeZero (fieldOp w))

/-- Format R: the flags say which register fields the row uses (30_encoding R81, R86). -/
def decodeR (w : BitVec 32) (useRd useRa useRb useRc : Bool) (i : Instr) : Except DecodeError Instr :=
  acceptIf ((useRd || fieldRd w == 0) && (useRa || fieldRa w == 0) && (useRb || fieldRb w == 0) &&
    (useRc || fieldRc w == 0) && fieldLow8 w == 0) w i

/-- Format I (30_encoding R82). -/
def decodeI (w : BitVec 32) (i : Instr) : Except DecodeError Instr :=
  acceptIf (fieldRa w == 0) w i

/-- Format C, RDC's (30_encoding R83; R87 points 3 and 4). -/
def decodeC (w : BitVec 32) (i : Instr) : Except DecodeError Instr :=
  if fieldZ12 w == 0 then
    if fieldLow8 w ≤ lastCreg then .ok i else .error (.reservedCreg (fieldLow8 w))
  else .error (.mustBeZero (fieldOp w))

/-- Format N: the flags say which register fields the row uses (30_encoding R84, R86). -/
def decodeN (w : BitVec 32) (useRa useRb : Bool) (i : Instr) : Except DecodeError Instr :=
  acceptIf (fieldRd w == 0 && (useRa || fieldRa w == 0) && (useRb || fieldRb w == 0) && fieldZ6 w == 0) w i

/-- The opcode map (30_encoding R86): the opcode byte alone selects the command and its format (R80). -/
def decode (w : BitVec 32) : Except DecodeError Instr :=
  let rd := fieldRd w
  let ra := fieldRa w
  let rb := fieldRb w
  let rc := fieldRc w
  match (fieldOp w).toNat with
  | 0x00 => decodeR w false false false false .nop
  | 0x01 => decodeI w (.li rd (fieldImm16 w))
  | 0x02 => decodeI w (.lis rd (fieldImm16 w))
  | 0x03 => decodeR w true true false false (.mov rd ra)
  | 0x04 => decodeC w (.rdc rd (fieldLow8 w))
  | 0x10 => decodeR w false true false false (.setmod ra)
  | 0x11 => decodeR w false true false false (.setroot ra)
  | 0x20 => decodeR w true true false false (.mfrom rd ra)
  | 0x21 => decodeR w true true false false (.mto rd ra)
  | 0x22 => decodeR w true true true false (.madd rd ra rb)
  | 0x23 => decodeR w true true true false (.msub rd ra rb)
  | 0x24 => decodeR w true true true false (.mmul rd ra rb)
  | 0x25 => decodeR w true true false false (.mneg rd ra)
  | 0x26 => decodeR w true true true false (.mredc rd ra rb)
  | 0x28 => decodeR w true true true false (.meq rd ra rb)
  | 0x29 => decodeR w true true true false (.mcmp rd ra rb)
  | 0x30 => decodeR w true true true true (.mpowm rd ra rb rc)
  | 0x31 => decodeR w true true true false (.mpow rd ra rb)
  | 0x32 => decodeR w true true false false (.minv rd ra)
  | 0x33 => decodeR w true true true false (.mdiv rd ra rb)
  | 0x40 => decodeR w true true false false (.pld rd ra)
  | 0x41 => decodeR w false true true false (.pst ra rb)
  | 0x42 => decodeN w false false (.precomp (fieldLogn w))
  | 0x43 => decodeN w true false (.fntt ra (fieldLogn w))
  | 0x44 => decodeN w true false (.intt ra (fieldLogn w))
  | 0x45 => decodeN w true true (.pmul ra rb (fieldLogn w))
  | 0x46 => decodeR w false true true true (.phad ra rb rc)
  | 0x48 => decodeR w false true true true (.pvadd ra rb rc)
  | 0x49 => decodeR w false true true true (.pvsub ra rb rc)
  | 0x4A => decodeR w false true true true (.psadd ra rb rc)
  | 0x4B => decodeR w false true true true (.pssub ra rb rc)
  | 0x4C => decodeR w false true true true (.psmul ra rb rc)
  | 0x4D => decodeR w false true true true (.psdiv ra rb rc)
  | 0x50 => decodeR w true true false false (.isprime rd ra)
  | 0x51 => decodeR w true true false false (.mrwit rd ra)
  | _ => .error (.unassignedOpcode (fieldOp w))

/-- The decode of the 64-bit value of a CMD write: bits 63:32 must be zero (30_encoding R80, R87 point 1). -/
def decodeCmd (v : Word) : Except DecodeError Instr :=
  if v.extractLsb' 32 32 = 0 then decode (v.extractLsb' 0 32) else .error .highBits

/-! ### Encoding -/

/-- Format R (30_encoding R81), Z8 zero. -/
def encodeR (op : BitVec 8) (rd ra rb rc : Reg) : BitVec 32 := op ++ rd ++ ra ++ rb ++ rc ++ 0#8

/-- Format I (30_encoding R82), Z4 zero. -/
def encodeI (op : BitVec 8) (rd : Reg) (imm16 : BitVec 16) : BitVec 32 := op ++ rd ++ 0#4 ++ imm16

/-- Format C (30_encoding R83), Z12 zero. -/
def encodeC (op : BitVec 8) (rd : Reg) (creg : CregNum) : BitVec 32 := op ++ rd ++ 0#12 ++ creg

/-- Format N (30_encoding R84), Z4 and Z6 zero. -/
def encodeN (op : BitVec 8) (ra rb : Reg) (logn : LogLen) : BitVec 32 := op ++ 0#4 ++ ra ++ rb ++ 0#6 ++ logn

/-- The command word of a command, by the rows of 30_encoding R86; unused fields are zero. -/
def encode : Instr → BitVec 32
  | .nop => encodeR 0x00 0 0 0 0
  | .li rd imm16 => encodeI 0x01 rd imm16
  | .lis rd imm16 => encodeI 0x02 rd imm16
  | .mov rd ra => encodeR 0x03 rd ra 0 0
  | .rdc rd creg => encodeC 0x04 rd creg
  | .setmod ra => encodeR 0x10 0 ra 0 0
  | .setroot ra => encodeR 0x11 0 ra 0 0
  | .mfrom rd ra => encodeR 0x20 rd ra 0 0
  | .mto rd ra => encodeR 0x21 rd ra 0 0
  | .madd rd ra rb => encodeR 0x22 rd ra rb 0
  | .msub rd ra rb => encodeR 0x23 rd ra rb 0
  | .mmul rd ra rb => encodeR 0x24 rd ra rb 0
  | .mneg rd ra => encodeR 0x25 rd ra 0 0
  | .mredc rd ra rb => encodeR 0x26 rd ra rb 0
  | .meq rd ra rb => encodeR 0x28 rd ra rb 0
  | .mcmp rd ra rb => encodeR 0x29 rd ra rb 0
  | .mpowm rd ra rb rc => encodeR 0x30 rd ra rb rc
  | .mpow rd ra rb => encodeR 0x31 rd ra rb 0
  | .minv rd ra => encodeR 0x32 rd ra 0 0
  | .mdiv rd ra rb => encodeR 0x33 rd ra rb 0
  | .pld rd ra => encodeR 0x40 rd ra 0 0
  | .pst ra rb => encodeR 0x41 0 ra rb 0
  | .precomp logn => encodeN 0x42 0 0 logn
  | .fntt ra logn => encodeN 0x43 ra 0 logn
  | .intt ra logn => encodeN 0x44 ra 0 logn
  | .pmul ra rb logn => encodeN 0x45 ra rb logn
  | .phad ra rb rc => encodeR 0x46 0 ra rb rc
  | .pvadd ra rb rc => encodeR 0x48 0 ra rb rc
  | .pvsub ra rb rc => encodeR 0x49 0 ra rb rc
  | .psadd ra rb rc => encodeR 0x4A 0 ra rb rc
  | .pssub ra rb rc => encodeR 0x4B 0 ra rb rc
  | .psmul ra rb rc => encodeR 0x4C 0 ra rb rc
  | .psdiv ra rb rc => encodeR 0x4D 0 ra rb rc
  | .isprime rd ra => encodeR 0x50 rd ra 0 0
  | .mrwit rd ra => encodeR 0x51 rd ra 0 0

/-- The 64-bit value of the CMD write that offers a command (30_encoding R80). -/
def encodeCmd (i : Instr) : Word := 0#32 ++ encode i

/-! ### The opcode map as data -/

/-- The columns "match" and "mask" of one row of 30_encoding R86. -/
structure OpcodeRow where
  matchBits : BitVec 32
  mask : BitVec 32
  deriving DecidableEq, Repr

/-- A word selects a row when `w & mask = match` (30_encoding R86). -/
def OpcodeRow.selects (r : OpcodeRow) (w : BitVec 32) : Bool := w &&& r.mask == r.matchBits

/-- The 35 rows of 30_encoding R86, in the table's order, as the spec prints them. -/
def opcodeRows : List OpcodeRow :=
  [⟨0x00000000, 0xFFFFFFFF⟩, ⟨0x01000000, 0xFF0F0000⟩, ⟨0x02000000, 0xFF0F0000⟩, ⟨0x03000000, 0xFF00FFFF⟩,
   ⟨0x04000000, 0xFF0FFF00⟩, ⟨0x10000000, 0xFFF0FFFF⟩, ⟨0x11000000, 0xFFF0FFFF⟩] ++
  [⟨0x20000000, 0xFF00FFFF⟩, ⟨0x21000000, 0xFF00FFFF⟩, ⟨0x22000000, 0xFF000FFF⟩, ⟨0x23000000, 0xFF000FFF⟩,
   ⟨0x24000000, 0xFF000FFF⟩, ⟨0x25000000, 0xFF00FFFF⟩, ⟨0x26000000, 0xFF000FFF⟩, ⟨0x28000000, 0xFF000FFF⟩,
   ⟨0x29000000, 0xFF000FFF⟩] ++
  [⟨0x30000000, 0xFF0000FF⟩, ⟨0x31000000, 0xFF000FFF⟩, ⟨0x32000000, 0xFF00FFFF⟩, ⟨0x33000000, 0xFF000FFF⟩] ++
  [⟨0x40000000, 0xFF00FFFF⟩, ⟨0x41000000, 0xFFF00FFF⟩, ⟨0x42000000, 0xFFFFFFC0⟩, ⟨0x43000000, 0xFFF0FFC0⟩,
   ⟨0x44000000, 0xFFF0FFC0⟩, ⟨0x45000000, 0xFFF00FC0⟩, ⟨0x46000000, 0xFFF000FF⟩, ⟨0x48000000, 0xFFF000FF⟩,
   ⟨0x49000000, 0xFFF000FF⟩, ⟨0x4A000000, 0xFFF000FF⟩, ⟨0x4B000000, 0xFFF000FF⟩, ⟨0x4C000000, 0xFFF000FF⟩,
   ⟨0x4D000000, 0xFFF000FF⟩] ++
  [⟨0x50000000, 0xFF00FFFF⟩, ⟨0x51000000, 0xFF00FFFF⟩]

/-! ### The host's entry -/

/-- What the decoder reads from an instruction whose `nbits` bits are `w` (bit 0 the least significant of the one
32-bit command word); the bits above are zero. The word is offered as a CMD write's 64-bit value. -/
def decodeTableWord (nbits w : Nat) : Option Instr :=
  (decodeCmd (BitVec.ofNat 64 (w % 2 ^ nbits))).toOption

end Sys2Proof
end

