-- ==== Sys2Proof/Config.lean ====
section
/-! DEFINITION. What an implementation of CMAC fixes (PLOG and WITNESS_ROM, 00_scope R6, R7) and the free values
the spec leaves open (UNSPEC_W, 00_scope R12). -/

namespace Sys2Proof

/-- The shape of WITNESS_ROM (44_miller_rabin R181): six bounds, seven base sets, seven trial lists. -/
structure WitnessRom where
  bound : Vector Nat 6
  set : Vector (List Nat) 7
  trial : Vector (List Nat) 7
  deriving DecidableEq, Repr

/-- The parameters of the step relation (10_state R48). W and NX are fixed (00_scope R5, R8). -/
structure Params where
  /-- Base-2 logarithm of the depth of PMEM (00_scope R6). -/
  plog : Nat
  /-- The primality tester's constant tables (00_scope R7). -/
  rom : WitnessRom
  deriving DecidableEq, Repr

/-- The shape conditions of 44_miller_rabin R181: strictly ascending bounds below 2^64; non-empty sets of bases from 2
up, none with more bases than SET[6], "a largest set for candidates beyond all bounds" (log 22); trial lists of distinct
primes above 7. -/
def WitnessRom.shapeOk (rom : WitnessRom) : Bool :=
  decide (rom.bound.toList.Pairwise (· < ·)) && rom.bound.toList.all (· < radix) &&
    rom.set.toList.all (fun bases => !bases.isEmpty && bases.all (fun b => 2 ≤ b && b < radix)) &&
    rom.set.toList.all (fun bases => bases.length ≤ (rom.set.get 6).length) &&
    rom.trial.toList.all (fun qs => decide qs.Nodup && qs.all (fun q => 7 < q && q < radix && decide (Nat.Prime q)))

/-- The constraint on the parameters: 1 ≤ PLOG ≤ 21 (00_scope R6) and a ROM of the right shape
(44_miller_rabin R181). -/
def Params.ok (p : Params) : Bool :=
  decide (1 ≤ p.plog) && decide (p.plog ≤ 21) && p.rom.shapeOk

/-- PRESUMED (log 1), unsafe where a statement speaks of State.reset: the reference table of 44_miller_rabin R183,
which the spec itself supplies from general knowledge. -/
def Config.referenceRom : WitnessRom where
  bound := #v[2047, 1373653, 25326001, 3215031751, 2152302898747, 3474749660383]
  set := #v[[2], [2, 3], [2, 3, 5], [2, 3, 5, 7], [2, 3, 5, 7, 11], [2, 3, 5, 7, 11, 13],
    [2, 3, 5, 7, 11, 13, 17, 19, 23, 29, 31, 37]]
  trial := #v[[], [], [], [], [11], [11, 13], [11, 13, 17, 19, 23, 29, 31, 37]]

/-- DESIGN CHOICE (log 1): the parameters of State.reset are the spec's reference ones, PLOG = 12 (00_scope R6) and
the reference table. Statements quantify over every state, and so over every value of the parameters. -/
def Config.reference : Params where
  plog := 12
  rom := Config.referenceRom

/-- The free values (log 5): the k-th UNSPEC_W drawn since power-on is `Config.freeWord k`. It has no body, so
nothing can be proved of it (00_scope R12). -/
opaque Config.freeWord : Nat → Word

/-- What a total read answers at an index no write has listed (log 12). Commands consult it only in states that no
run reaches: a table index below the coverage that holds no entry. It has no body. -/
opaque Config.unlistedWord : Nat → Word

end Sys2Proof
end

