-- ==== Sys2Proof/Machine/State.lean ====
section
/-! DEFINITION. The architectural state of CMAC (10_state), its reset value (R49), and how a step can stop. -/

namespace Sys2Proof.Machine

/-- An engine record: the five modulus-derived constants (10_state R30, 41_montgomery R120). The architectural one is
a field of `State`; ISPRIME builds a private one (44_miller_rabin R187). -/
structure Engine where
  /-- MOD: the modulus m. -/
  m : Word
  /-- MOD2: 2m. -/
  m2 : Word
  /-- MPRIME: m' with m·m' ≡ -1 modulo 2^64. -/
  mprime : Word
  /-- ONE: 2^64 mod m. -/
  one : Word
  /-- RSQ: 2^128 mod m. -/
  rsq : Word
  deriving DecidableEq, Repr

/-- A word-addressed memory: the words written since reset, by strictly rising word address. An address that is not
listed holds no value: reading it is a draw of UNSPEC_W (10_state R41; log 6). -/
abbrev WordMem := List (Nat × Word)

/-- The canonical form of a memory: addresses strictly rising. (An unlisted address reads as no value at all, so no
entry can equal what it reads as.) -/
abbrev WordMem.wf (mem : WordMem) : Prop := mem.Pairwise (fun p q => p.1 < q.1)

/-- What the world outside does to CMAC, one entry a step (log 2). -/
inductive Input where
  /-- The host writes `value` at a byte offset of the window, `width` bytes wide (20_memory R64, R65). -/
  | hostWrite (offset width : Nat) (value : Word)
  /-- The host reads `width` bytes at a byte offset of the window (20_memory R64, R65). -/
  | hostRead (offset width : Nat)
  /-- The platform's reset input (70_reset_and_hazards R300). -/
  | hardwareReset
  /-- The instant at which the command in execution completes: "some finite, unspecified time later"
  (40_system R100). -/
  | completion
  deriving DecidableEq, Repr

/-- Why a step stops with a machine fault: never. CMAC's faults are command faults, recorded in STATUS, after which
the machine goes on (60_exceptions R272), so they are next states; "No behaviour of CMAC is treated as stuck"
(93_implementation_defined). Safe: nothing is hidden behind a fault (log 16). -/
inductive Fault where
  deriving DecidableEq, Repr

/-- Why a step is refused. -/
inductive Refusal where
  /-- Raised by an arm of exec whose instruction has no meaning yet. Safe. No arm of this model raises it. -/
  | notModelled (mnemonic : String)
  /-- Raised by `hostAccess`: a host access that is not an aligned 64-bit one "is not part of the interface ... a
  model gives it no step (it refuses it)" (20_memory R65; log 10). Safe: the hardware goes on, the model stops. -/
  | hostAccessForm
  deriving DecidableEq, Repr

/-- The state of CMAC. STATUS (10_state R33) is held as its fields and assembled by `statusWord`; its BUSY bit is
"`cur` holds a command" (R46). -/
structure State where
  /-- The parameters PLOG and WITNESS_ROM (10_state R48); no step changes them (log 1). -/
  cfg : Params
  /-- X0 .. X15 (10_state R20). -/
  regs : Vector Word 16
  /-- MOD, MOD2, MPRIME, ONE, RSQ (10_state R30). -/
  eng : Engine
  /-- ROOT (10_state R31). -/
  root : Word
  /-- ROOTR (10_state R31). -/
  rootr : Word
  /-- TWCOV (10_state R32). -/
  twcov : Word
  /-- STATUS.MODV, engine valid (10_state R26). -/
  modv : Bool
  /-- STATUS.ROOTV, root valid (10_state R26). -/
  rootv : Bool
  /-- STATUS.MRACC, the witness accumulator (10_state R26, 44_miller_rabin R190). -/
  mracc : Bool
  /-- STATUS.DONE (10_state R33). -/
  done : Bool
  /-- STATUS.ERR (10_state R33). -/
  err : Bool
  /-- STATUS.OVR (10_state R33). -/
  ovr : Bool
  /-- STATUS.ERRCODE (10_state R33). -/
  errcode : BitVec 8
  /-- STATUS.ERRCMD (10_state R33). -/
  errcmd : BitVec 32
  /-- CTRL.IE (10_state R34). -/
  ie : Bool
  /-- CMDCNT (10_state R25). -/
  cmdcnt : Word
  /-- The execution state (10_state R46): `none` is IDLE, `some v` is BUSY with CUR = v, the value of the accepted CMD
  write (40_system R100; log 4). -/
  cur : Option Word
  /-- What STATUS.OVR was when the last command was accepted: the one field of STATUS that can change while a command
  executes and that the command must read "as [it was] when it was accepted" (10_state R33; log 4). -/
  ovrAtAcceptance : Bool
  /-- PMEM (10_state R41). -/
  pmem : WordMem
  /-- TWF, the forward root table (10_state R40). -/
  twf : WordMem
  /-- TWI, the inverse root table (10_state R40). -/
  twi : WordMem
  /-- The model's own: what the world outside does next, in order (log 2). -/
  inputs : List Input
  /-- The model's own: the value the last host read returned (log 9). -/
  rdata : Word
  /-- The model's own: how many free values have been drawn (log 5). -/
  draws : Nat
  deriving DecidableEq, Repr

/-- What reset leaves of a machine with given parameters (10_state R49, 70_reset_and_hazards R300). Memories hold no
value. The last three arguments are the model's own fields, which a reset during a run keeps (log 7). -/
def State.resetWith (cfg : Params) (inputs : List Input) (rdata : Word) (draws : Nat) : State where
  cfg := cfg
  regs := Vector.replicate 16 0
  eng := { m := 0, m2 := 0, mprime := 0, one := 0, rsq := 0 }
  root := 0
  rootr := 0
  twcov := 0
  modv := false
  rootv := false
  mracc := false
  done := false
  err := false
  ovr := false
  errcode := 0
  errcmd := 0
  ie := false
  cmdcnt := 0
  cur := none
  ovrAtAcceptance := false
  pmem := []
  twf := []
  twi := []
  inputs := inputs
  rdata := rdata
  draws := draws

/-- The machine right after reset (10_state R49), with the reference parameters (log 1), nothing offered yet (log 2),
nothing read (log 9) and no free value drawn (log 5). -/
def State.reset : State := State.resetWith Config.reference [] 0 0

/-- What a step and a meaning answer. -/
abbrev Result := Host.Outcome State Fault Refusal

end Sys2Proof.Machine
end

