-- ==== Sys2Proof/Machine/Ops.lean ====
section
/-! DEFINITION. The named operations over registers and memories, the completion of a command, taking a fault
(60_exceptions R272), leaving it (R273), and reset (70_reset_and_hazards R300). -/

namespace Sys2Proof.Machine

/-! ### General registers (10_state R20, R21) -/

/-- `x[r]` (00_scope R11). -/
def State.x (s : State) (r : Reg) : Word := s.regs.get r.toFin

/-- `x[r] <- v` (00_scope R11). No register is hardwired (10_state R20). -/
def State.setX (s : State) (r : Reg) (v : Word) : State := { s with regs := s.regs.set r.toNat v r.isLt }

/-- `x[r] <- UNSPEC_W` (00_scope R12): a fresh free value (log 5). -/
def State.setXFree (s : State) (r : Reg) : State :=
  ({ s with draws := s.draws + 1 }).setX r (Config.freeWord s.draws)

/-- `x[r] <- v` where a rule gives the exact value v, `x[r] <- UNSPEC_W` where it gives none. -/
def State.setXValue (s : State) (r : Reg) : Option Nat → State
  | some v => s.setX r (BitVec.ofNat 64 v)
  | none => s.setXFree r

/-! ### Word-addressed memories (20_memory R61, R62) -/

/-- The word at an address, if one has been written there since reset (10_state R41). -/
def peek : WordMem → Nat → Option Word
  | [], _ => none
  | (k, w) :: rest, a => if k = a then some w else peek rest a

/-- Write one word; only the addressed word changes (20_memory R62). -/
def poke : WordMem → Nat → Word → WordMem
  | [], a, v => [(a, v)]
  | (k, w) :: rest, a, v =>
    if a < k then (a, v) :: (k, w) :: rest
    else if k = a then (a, v) :: rest
    else (k, w) :: poke rest a v

/-- The value a rule's pseudocode reads at an address it has established to hold one; at an address that holds none
(only in states no run reaches) an opaque value (log 12). -/
def wordAt (mem : WordMem) (a : Nat) : Nat := ((peek mem a).getD (Config.unlistedWord a)).toNat

/-- `MemRead(a, n)`, the n consecutive words from a, as exact integers (20_memory R62). -/
def loadRange (mem : WordMem) (a n : Nat) : List Nat := (List.range n).map fun j => wordAt mem (a + j)

/-- `MemWrite(a, n, v)` for a list of words (20_memory R62). -/
def storeRange : WordMem → Nat → List Word → WordMem
  | mem, _, [] => mem
  | mem, a, v :: vs => storeRange (poke mem a v) (a + 1) vs

/-- `MemWrite` of exact integers, each a word. -/
def storeNats (mem : WordMem) (a : Nat) (vs : List Nat) : WordMem := storeRange mem a (vs.map (BitVec.ofNat 64))

/-- The depth of PMEM, 2^PLOG (00_scope R6). -/
def State.depth (s : State) : Nat := 2 ^ s.cfg.plog

/-- `P[a] <- v` (00_scope R11). -/
def State.setP (s : State) (a : Nat) (v : Word) : State := { s with pmem := poke s.pmem a v }

/-- `P[a] <- UNSPEC_W` (00_scope R12): a fresh free value (log 5). -/
def State.setPFree (s : State) (a : Nat) : State :=
  { s with pmem := poke s.pmem a (Config.freeWord s.draws), draws := s.draws + 1 }

/-- `P[a] <- v` where a rule gives the exact value, `P[a] <- UNSPEC_W` where it gives none. -/
def State.setPValue (s : State) (a : Nat) : Option Nat → State
  | some v => s.setP a (BitVec.ofNat 64 v)
  | none => s.setPFree a

/-- n fresh free values, the draws from number d on. -/
def freeWords (d n : Nat) : List Word := (List.range n).map fun j => Config.freeWord (d + j)

/-- `PMEM[a + j] <- UNSPEC_W for all 0 ≤ j < n` (45_ntt R222, 46_poly_elementwise R249). -/
def State.freeRange (s : State) (a n : Nat) : State :=
  { s with pmem := storeRange s.pmem a (freeWords s.draws n), draws := s.draws + n }

/-! ### Faults and completion (40_system R100, 60_exceptions R270 to R273) -/

/-- The six command faults (60_exceptions R270). -/
inductive CmdFault where
  | illcmd
  | nomod
  | noroot
  | badlen
  | prange
  | badmod
  deriving DecidableEq, Repr

/-- The codes of 60_exceptions R270. -/
def CmdFault.code : CmdFault → BitVec 8
  | .illcmd => 1
  | .nomod => 2
  | .noroot => 3
  | .badlen => 4
  | .prange => 5
  | .badmod => 6

/-- The acceptance of a CMD value (40_system R100): BUSY rises with CUR the value, DONE falls. -/
def State.accept (s : State) (v : Word) : State :=
  { s with done := false, cur := some v, ovrAtAcceptance := s.ovr }

/-- Taking a command fault (60_exceptions R272, 40_system R100): ERR, ERRCODE and ERRCMD are written, BUSY falls, DONE
rises, nothing else changes. ERRCMD is CUR[31:0]. -/
def State.takeFault (s : State) (c : CmdFault) : State :=
  { s with err := true, errcode := c.code, errcmd := (s.cur.getD 0).setWidth 32, cur := none, done := true }

/-- The return from a fault (60_exceptions R273): CTRL.CLRERR clears ERR, ERRCODE and ERRCMD; nothing is restored,
because nothing was saved. -/
def State.clearFault (s : State) : State := { s with err := false, errcode := 0, errcmd := 0 }

/-- The completion of a command that does not fault (40_system R100, 10_state R25): CMDCNT counts it modulo 2^64, BUSY
falls, DONE rises. -/
def State.retire (s : State) : State := { s with cmdcnt := s.cmdcnt + 1, cur := none, done := true }

/-- What a command's rule comes to: the state with its writes applied, or the first fault of its checks. -/
abbrev Effect := Except CmdFault State

/-- `Complete(v)` of 40_system R100 for a command whose rule came to `e` on the state s at acceptance. A fault
changes s by its record only: whatever `e` would have written is not applied. -/
def finish (s : State) : Effect → Result
  | .ok t => .next t.retire
  | .error c => .next (s.takeFault c)

/-- One check of a command (60_exceptions R271): the fault when the condition does not hold. -/
def check (c : CmdFault) (condition : Bool) : Except CmdFault Unit :=
  if condition then .ok () else .error c

/-! ### Reset -/

/-- Either reset during a run (70_reset_and_hazards R300): every piece of state takes its value of 10_state R49, the
memories hold no value, a command in execution is abandoned. The parameters and the model's own fields stay (log 7). -/
def State.resetNow (s : State) : State := State.resetWith s.cfg s.inputs s.rdata s.draws

end Sys2Proof.Machine
end

