-- ==== Sys2Proof/Machine/Operands.lean ====
section
/-! DEFINITION. The operand forms of the commands: immediates (30_encoding R85), residue words in registers and in PMEM
(41_montgomery R122), PMEM ranges (20_memory R63), transform lengths (30_encoding R84), and the checks every command
makes on them (60_exceptions R270, R271). -/

namespace Sys2Proof.Machine

/-! ### Immediates -/

/-- `zext_64(IMM16)` (30_encoding R85). -/
def immediate (imm16 : BitVec 16) : Word := imm16.setWidth 64

/-- The transform length `n = 2^LOGN` (30_encoding R84). -/
def transformLength (logn : LogLen) : Nat := 2 ^ logn.toNat

/-! ### Residue operands -/

/-- `Res(v)`: v is below MOD2 (41_montgomery R122). -/
def Engine.res (e : Engine) (v : Nat) : Bool := decide (v < e.m2.toNat)

/-- A register as an ordinary integer. -/
def State.ordinary (s : State) (r : Reg) : Nat := (s.x r).toNat

/-- A register as a residue operand: no value when the word is not a valid residue word, where the rules write
UNSPEC_W (41_montgomery R122). -/
def State.residue (s : State) (r : Reg) : Option Nat :=
  if s.eng.res (s.x r).toNat then some (s.x r).toNat else none

/-- A function of one residue operand; no value when the operand is not a valid residue word. -/
def State.unary (s : State) (f : Nat → Nat) (ra : Reg) : Option Nat := (s.residue ra).map f

/-- A function of two residue operands; no value when either is not a valid residue word. -/
def State.binary (s : State) (f : Nat → Nat → Nat) (ra rb : Reg) : Option Nat :=
  (s.residue ra).bind fun a => (s.residue rb).map (f a)

/-- A PMEM word as a residue element: no value when it is not a valid residue word or has never been written
(46_poly_elementwise R249 point 5, 45_ntt R222). -/
def State.residueAt (s : State) (a : Nat) : Option Nat :=
  match peek s.pmem a with
  | some w => if s.eng.res w.toNat then some w.toNat else none
  | none => none

/-- Whether every word of a buffer is a valid residue word (45_ntt R217). -/
def State.bufferValid (s : State) (base n : Nat) : Bool :=
  (List.range n).all fun j => (s.residueAt (base + j)).isSome

/-! ### PMEM ranges -/

/-- Whether the operand range [base, base + len) is inside PMEM; an empty operand always is (20_memory R63). -/
def State.inRange (s : State) (base len : Nat) : Bool := len == 0 || decide (base + len ≤ s.depth)

/-! ### The checks of 60_exceptions R271, in its order -/

/-- The command uses ENG: NOMOD unless MODV = 1. -/
def State.needEngine (s : State) : Except CmdFault Unit := check .nomod s.modv

/-- The command uses the twiddle tables: NOROOT unless ROOTV = 1. -/
def State.needRoot (s : State) : Except CmdFault Unit := check .noroot s.rootv

/-- The command has a LOGN field: BADLEN unless LOGN ≤ PLOG. -/
def State.needLength (s : State) (logn : LogLen) : Except CmdFault Unit :=
  check .badlen (decide (logn.toNat ≤ s.cfg.plog))

/-- The command has a PMEM operand: PRANGE unless its range is inside PMEM. -/
def State.needRange (s : State) (base len : Nat) : Except CmdFault Unit := check .prange (s.inRange base len)

/-- The checks a transform makes before its PMEM ranges: NOMOD, NOROOT, BADLEN (60_exceptions R271). -/
def State.needTransform (s : State) (logn : LogLen) : Except CmdFault Unit := do
  s.needEngine
  s.needRoot
  s.needLength logn

end Sys2Proof.Machine
end

