-- ==== Sys2Proof/Machine/Engine.lean ====
section
/-! DEFINITION. The engine functions: REDC and the ring operations (41_montgomery R120 to R129), exponentiation
(42_exponentiation R150 to R153). Values are exact natural numbers unless a rule truncates them (00_scope R10). -/

namespace Sys2Proof.Machine

/-! ### Construction (41_montgomery R120) -/

/-- `ModOK(m)`: m is odd and below 2^62. -/
def modOk (m : Nat) : Bool := m % 2 == 1 && decide (m < modulusBound)

/-- One Newton step towards the inverse of m modulo 2^64: it doubles the number of right low bits. The iteration is
hidden; only its result is architectural (10_state R45; log 13). -/
def inverseStep (m x : Nat) : Nat := x * (2 + (radix - m * x % radix)) % radix

/-- `k` Newton steps. -/
def inverseSteps (m : Nat) : Nat → Nat → Nat
  | 0, x => x
  | k + 1, x => inverseSteps m k (inverseStep m x)

/-- MPRIME: the m' in [0, 2^64) with m·m' ≡ -1 modulo 2^64 (41_montgomery R120), for odd m. An odd m is its own
inverse modulo 8; five steps make that 96 bits. -/
def negInverse (m : Nat) : Nat := (radix - inverseSteps m 5 (m % radix)) % radix

/-- `Construct(m)` (41_montgomery R120). -/
def construct (m : Nat) : Engine where
  m := BitVec.ofNat 64 m
  m2 := BitVec.ofNat 64 (2 * m)
  mprime := BitVec.ofNat 64 (negInverse m)
  one := BitVec.ofNat 64 (radix % m)
  rsq := BitVec.ofNat 64 (doubleRadix % m)

/-! ### The ring (41_montgomery R123 to R129) -/

/-- The quotient of REDC, `((T mod 2^W)·m') mod 2^W` (41_montgomery R123, 90_conflicts C1). -/
def Engine.quotient (e : Engine) (t : Nat) : Nat := t % radix * e.mprime.toNat % radix

/-- `E.Reduce(T)` (41_montgomery R123). -/
def Engine.reduce (e : Engine) (t : Nat) : Nat := (t + e.quotient t * e.m.toNat) / radix

/-- `E.From(x)` (41_montgomery R124). -/
def Engine.fromOrdinary (e : Engine) (x : Nat) : Nat := e.reduce (x * e.rsq.toNat)

/-- `E.To(v)` (41_montgomery R125). -/
def Engine.toOrdinary (e : Engine) (v : Nat) : Nat :=
  let t := e.reduce v
  if t ≥ e.m.toNat then t - e.m.toNat else t

/-- `E.Add(a, b)` (41_montgomery R126). -/
def Engine.add (e : Engine) (a b : Nat) : Nat :=
  let sum := a + b
  if sum ≥ e.m2.toNat then sum - e.m2.toNat else sum

/-- `E.Sub(a, b)` (41_montgomery R127). -/
def Engine.sub (e : Engine) (a b : Nat) : Nat :=
  if a ≥ b then a - b else a + e.m2.toNat - b

/-- `E.Mul(a, b)` (41_montgomery R128). -/
def Engine.mul (e : Engine) (a b : Nat) : Nat := e.reduce (a * b)

/-- `E.Neg(a)` (41_montgomery R129). -/
def Engine.neg (e : Engine) (a : Nat) : Nat :=
  if a = 0 then 0 else e.m2.toNat - a

/-! ### Exponentiation (42_exponentiation R150 to R153) -/

/-- The square-and-multiply loop of `E.PowMul(x, y, z)`, from the least significant bit of y; at most `fuel`
iterations (42_exponentiation R150; log 14). -/
def Engine.powLoop (e : Engine) : Nat → Nat → Nat → Nat → Nat
  | 0, _, _, z => z
  | fuel + 1, x, y, z =>
    if y = 0 then z
    else e.powLoop fuel (e.mul x x) (y / 2) (if y % 2 = 1 then e.mul z x else z)

/-- `E.PowMul(x, y, z)` (42_exponentiation R150): W iterations consume every exponent below 2^W. -/
def Engine.powMul (e : Engine) (x y z : Nat) : Nat := e.powLoop 64 x y z

/-- `E.Power(x, y)` (42_exponentiation R151). -/
def Engine.power (e : Engine) (x y : Nat) : Nat := e.powMul x y e.one.toNat

/-- The exponent `(m - 2) mod 2^W` (42_exponentiation R152). -/
def Engine.fermatExponent (e : Engine) : Nat := (e.m.toNat + radix - 2) % radix

/-- `E.Inverse(x)` (42_exponentiation R152). -/
def Engine.inverse (e : Engine) (x : Nat) : Nat := e.powMul x e.fermatExponent e.one.toNat

/-- `E.Divide(x, y)` (42_exponentiation R153). -/
def Engine.divide (e : Engine) (x y : Nat) : Nat := e.powMul y e.fermatExponent x

end Sys2Proof.Machine
end

