-- ==== Sys2Proof/Machine/Compare.lean ====
section
/-! DEFINITION. MEQ and MCMP (43_residue_compare R170 to R172): comparison of normalised values, total on every
word. -/

namespace Sys2Proof.Machine

/-- MEQ's result: 1 or 0 (43_residue_compare R171). -/
def Engine.equalityWord (e : Engine) (a b : Nat) : Word := if e.toOrdinary a = e.toOrdinary b then 1 else 0

/-- MCMP's result: 0 equal, 1 greater, all ones less (43_residue_compare R172). -/
def Engine.orderWord (e : Engine) (a b : Nat) : Word :=
  if e.toOrdinary a = e.toOrdinary b then 0
  else if e.toOrdinary a > e.toOrdinary b then 1
  else BitVec.allOnes 64

/-- MEQ (43_residue_compare R171). -/
def execMeq (rd ra rb : Reg) (s : State) : Result :=
  finish s do
    s.needEngine
    return s.setX rd (s.eng.equalityWord (s.ordinary ra) (s.ordinary rb))

/-- MCMP (43_residue_compare R172). -/
def execMcmp (rd ra rb : Reg) (s : State) : Result :=
  finish s do
    s.needEngine
    return s.setX rd (s.eng.orderWord (s.ordinary ra) (s.ordinary rb))

end Sys2Proof.Machine
end

