-- ==== Sys2Proof/Machine/Exponent.lean ====
section
/-! DEFINITION. MPOWM, MPOW, MINV, MDIV (42_exponentiation R154 to R157). -/

namespace Sys2Proof.Machine

/-- MPOWM (42_exponentiation R154): base x[ra], exponent the ordinary integer x[rb], seed x[rc]. -/
def execMpowm (rd ra rb rc : Reg) (s : State) : Result :=
  finish s do
    s.needEngine
    return s.setXValue rd (s.binary (fun base seed => s.eng.powMul base (s.ordinary rb) seed) ra rc)

/-- MPOW (42_exponentiation R155): base x[ra], exponent the ordinary integer x[rb]. -/
def execMpow (rd ra rb : Reg) (s : State) : Result :=
  finish s do
    s.needEngine
    return s.setXValue rd (s.unary (fun base => s.eng.power base (s.ordinary rb)) ra)

/-- MINV (42_exponentiation R156). -/
def execMinv (rd ra : Reg) (s : State) : Result :=
  finish s do
    s.needEngine
    return s.setXValue rd (s.unary s.eng.inverse ra)

/-- MDIV (42_exponentiation R157): x[ra] divided by x[rb]. -/
def execMdiv (rd ra rb : Reg) (s : State) : Result :=
  finish s do
    s.needEngine
    return s.setXValue rd (s.binary s.eng.divide ra rb)

end Sys2Proof.Machine
end

