-- ==== Sys2Proof/Machine/Flags.lean ====
section
/-! DEFINITION. The status flags and the registers assembled from them: STATUS, CONFIG, CTRL, the interrupt line, and
the control registers by number (10_state R26, R33, R34, R36, R37, R47). CMAC has no arithmetic flags. -/

namespace Sys2Proof.Machine

/-- STATUS.BUSY: 1 from the acceptance of a command to its completion (10_state R33, R46). -/
def State.busy (s : State) : Bool := s.cur.isSome

/-- STATUS as bits 63 to 0: ERRCMD, reserved 31:16, ERRCODE, reserved 7, MRACC, ROOTV, MODV, OVR, ERR, DONE, BUSY
(10_state R33). -/
def assembleStatus (s : State) (ovr done busy : Bool) : Word :=
  s.errcmd ++ 0#16 ++ s.errcode ++ 0#1 ++ BitVec.ofBool s.mracc ++ BitVec.ofBool s.rootv ++ BitVec.ofBool s.modv ++
    BitVec.ofBool ovr ++ BitVec.ofBool s.err ++ BitVec.ofBool done ++ BitVec.ofBool busy

/-- STATUS as the host reads it (10_state R33). -/
def statusWord (s : State) : Word := assembleStatus s s.ovr s.done s.busy

/-- STATUS as a command reads it through RDC: it is executing, so BUSY = 1 and DONE = 0, and the other fields are as
they were when it was accepted (10_state R33, 40_system R105): OVR as latched then; no other field changes while it
executes. -/
def statusWordInCommand (s : State) : Word := assembleStatus s s.ovrAtAcceptance false true

/-- CONFIG: bits 7:0 W = 64, bits 15:8 PLOG, bits 31:16 VERSION = 1, bits 63:32 zero (10_state R36). -/
def configWord (s : State) : Word := 0#32 ++ 1#16 ++ BitVec.ofNat 8 s.cfg.plog ++ 64#8

/-- CTRL as the host reads it: IE in bit 0, every other bit 0 (10_state R34). -/
def ctrlWord (s : State) : Word := 0#63 ++ BitVec.ofBool s.ie

/-- The interrupt line, a pure function of state (10_state R47, 60_exceptions R275). -/
def irq (s : State) : Bool := s.ie && (s.done || s.err)

/-- The control registers 0 to 10 by number, with STATUS given by its reader; 11 to 255 are reserved and name none
(10_state R37). -/
def cregValue (s : State) (status : Word) (creg : Nat) : Option Word :=
  match creg with
  | 0 => some s.eng.m
  | 1 => some s.eng.m2
  | 2 => some s.eng.mprime
  | 3 => some s.eng.one
  | 4 => some s.eng.rsq
  | 5 => some s.root
  | 6 => some s.rootr
  | 7 => some s.twcov
  | 8 => some status
  | 9 => some s.cmdcnt
  | 10 => some (configWord s)
  | _ => none

/-- The flags a SETMOD that completes leaves: MODV set, ROOTV clear, MRACC set (10_state R26). -/
def State.flagsAfterSetmod (s : State) : State := { s with modv := true, rootv := false, mracc := true }

/-- The flag a SETROOT that completes sets (10_state R26). -/
def State.flagsAfterSetroot (s : State) : State := { s with rootv := true }

/-- MRWIT's read-modify-write of the witness accumulator (44_miller_rabin R189, R190). -/
def State.accumulateWitness (s : State) (pass : Bool) : State := { s with mracc := s.mracc && pass }

end Sys2Proof.Machine
end

