-- ==== Sys2Proof/Machine/MillerRabin.lean ====
section
/-! DEFINITION. The Miller-Rabin unit: ISPRIME and MRWIT (44_miller_rabin R180 to R190). -/

namespace Sys2Proof.Machine

/-! ### The witness ROM (44_miller_rabin R181, R184) -/

/-- `Index(n)`: the number of bounds n is at or above (44_miller_rabin R184). -/
def romIndexNat (rom : WitnessRom) (n : Nat) : Nat := rom.bound.toList.countP (fun bound => decide (bound ≤ n))

theorem romIndexNat_lt (rom : WitnessRom) (n : Nat) : romIndexNat rom n < 7 := by
  have h := List.countP_le_length (p := fun bound => decide (bound ≤ n)) (l := rom.bound.toList)
  have hl : rom.bound.toList.length = 6 := by simp
  unfold romIndexNat
  omega

/-- `Index(n)` as an index of the seven lists. -/
def romIndex (rom : WitnessRom) (n : Nat) : Fin 7 := ⟨romIndexNat rom n, romIndexNat_lt rom n⟩

/-- `SET[Index(n)]`. -/
def romSet (rom : WitnessRom) (n : Nat) : List Nat := rom.set.get (romIndex rom n)

/-- `TRIAL[Index(n)]`. -/
def romTrial (rom : WitnessRom) (n : Nat) : List Nat := rom.trial.get (romIndex rom n)

/-! ### One witness (44_miller_rabin R186) -/

/-- Halve c while it is even, counting: n - 1 = 2^s·c with c odd (44_miller_rabin R186). W halvings suffice for every
n - 1 from 1 to 2^W - 1 (log 14). -/
def oddPart : Nat → Nat → Nat → Nat × Nat
  | 0, c, s => (c, s)
  | fuel + 1, c, s => if c % 2 = 0 then oddPart fuel (c / 2) (s + 1) else (c, s)

/-- The loop over j = 0 .. s-1: does some term reach n - 1 (44_miller_rabin R186)? The first argument counts the terms
left. -/
def Engine.witnessLoop (e : Engine) : Nat → Nat → Bool
  | 0, _ => false
  | k + 1, x => if e.toOrdinary x = e.m.toNat - 1 then true else e.witnessLoop k (e.mul x x)

/-- `E.Witness(b)` (44_miller_rabin R186). -/
def Engine.witness (e : Engine) (b : Nat) : Bool :=
  let cs := oddPart 64 (e.m.toNat - 1) 0
  let x := e.power (e.fromOrdinary b) cs.1
  if e.toOrdinary x = 1 then true else e.witnessLoop cs.2 x

/-! ### ISPRIME (44_miller_rabin R188) -/

/-- Step 5: a private engine for the candidate and the conjunction over the base set; BADMOD when the candidate is at
or above 2^62 (44_miller_rabin R187). -/
def witnessVerdict (rom : WitnessRom) (n : Nat) : Except CmdFault Bool :=
  if n ≥ modulusBound then .error .badmod
  else .ok ((romSet rom n).all fun b => (construct n).witness b)

/-- The five steps of ISPRIME (44_miller_rabin R188). -/
def primalityVerdict (rom : WitnessRom) (n : Nat) : Except CmdFault Bool :=
  if n = 0 ∨ n = 1 then .ok false
  else if n = 2 ∨ n = 3 ∨ n = 5 ∨ n = 7 then .ok true
  else if n % 2 = 0 ∨ n % 3 = 0 ∨ n % 5 = 0 ∨ n % 7 = 0 then .ok false
  else if n ∈ romTrial rom n then .ok true
  else if (romTrial rom n).any fun q => n % q == 0 then .ok false
  else witnessVerdict rom n

/-- A verdict as a word: 1 or 0. -/
def verdictWord (verdict : Bool) : Word := if verdict then 1 else 0

/-- ISPRIME (44_miller_rabin R188): no engine is needed or touched. -/
def execIsprime (rd ra : Reg) (s : State) : Result :=
  finish s do
    let verdict ← primalityVerdict s.cfg.rom (s.ordinary ra)
    return s.setX rd (verdictWord verdict)

/-! ### MRWIT (44_miller_rabin R189) -/

/-- The verdict of one witness on the loaded engine; a modulus below 3 fails (44_miller_rabin R189). -/
def Engine.mrwitVerdict (e : Engine) (b : Nat) : Bool := if e.m.toNat < 3 then false else e.witness b

/-- MRWIT (44_miller_rabin R189): the verdict goes to x[rd] and into MRACC. -/
def execMrwit (rd ra : Reg) (s : State) : Result :=
  finish s do
    s.needEngine
    let pass := s.eng.mrwitVerdict (s.ordinary ra)
    return (s.setX rd (verdictWord pass)).accumulateWitness pass

end Sys2Proof.Machine
end

