-- ==== Sys2Proof/Machine/Montgomery.lean ====
section
/-! DEFINITION. SETMOD and the ring commands MFROM, MTO, MADD, MSUB, MMUL, MNEG, MREDC (41_montgomery R121, R132 to
R138). -/

namespace Sys2Proof.Machine

/-- What a SETMOD of an accepted modulus writes (41_montgomery R121): the five constants together, the flags, and the
root registers and the coverage cleared. -/
def State.loadModulus (s : State) (m : Nat) : State :=
  { s.flagsAfterSetmod with eng := construct m, root := 0, rootr := 0, twcov := 0 }

/-- SETMOD (41_montgomery R121): BADMOD unless ModOK. -/
def execSetmod (ra : Reg) (s : State) : Result :=
  finish s do
    check .badmod (modOk (s.ordinary ra))
    return s.loadModulus (s.ordinary ra)

/-- MFROM (41_montgomery R132), defined for every word. -/
def execMfrom (rd ra : Reg) (s : State) : Result :=
  finish s do
    s.needEngine
    return s.setXValue rd (some (s.eng.fromOrdinary (s.ordinary ra)))

/-- MTO (41_montgomery R133), defined for every word. -/
def execMto (rd ra : Reg) (s : State) : Result :=
  finish s do
    s.needEngine
    return s.setXValue rd (some (s.eng.toOrdinary (s.ordinary ra)))

/-- MADD (41_montgomery R134). -/
def execMadd (rd ra rb : Reg) (s : State) : Result :=
  finish s do
    s.needEngine
    return s.setXValue rd (s.binary s.eng.add ra rb)

/-- MSUB (41_montgomery R135): x[ra] minus x[rb]. -/
def execMsub (rd ra rb : Reg) (s : State) : Result :=
  finish s do
    s.needEngine
    return s.setXValue rd (s.binary s.eng.sub ra rb)

/-- MMUL (41_montgomery R136). -/
def execMmul (rd ra rb : Reg) (s : State) : Result :=
  finish s do
    s.needEngine
    return s.setXValue rd (s.binary s.eng.mul ra rb)

/-- MNEG (41_montgomery R137). -/
def execMneg (rd ra : Reg) (s : State) : Result :=
  finish s do
    s.needEngine
    return s.setXValue rd (s.unary s.eng.neg ra)

/-- Raw REDC of a double-width value; no value when `T + q·m` overflows the double width (41_montgomery R138). -/
def Engine.rawReduce (e : Engine) (t : Nat) : Option Nat :=
  if t + e.quotient t * e.m.toNat < doubleRadix then some (e.reduce t) else none

/-- MREDC (41_montgomery R138): T = {x[ra], x[rb]}, ra the high word. -/
def execMredc (rd ra rb : Reg) (s : State) : Result :=
  finish s do
    s.needEngine
    return s.setXValue rd (s.eng.rawReduce (s.ordinary ra * radix + s.ordinary rb))

end Sys2Proof.Machine
end

