-- ==== Sys2Proof/Machine/Ntt.lean ====
section
/-! DEFINITION. The NTT butterfly unit and the twiddle tables: SETROOT, PRECOMP, FNTT, INTT, PMUL (45_ntt R210 to
R223). -/

namespace Sys2Proof.Machine

/-! ### The twiddle tables (45_ntt R211, R212) -/

/-- `RootF(new) = Power(Inverse(ROOTR), (m - 1) div new)` (45_ntt R211). -/
def Engine.rootForward (e : Engine) (rootr new : Nat) : Nat := e.power (e.inverse rootr) ((e.m.toNat - 1) / new)

/-- `RootI(new) = Power(ROOTR, (m - 1) div new)` (45_ntt R211). -/
def Engine.rootInverse (e : Engine) (rootr new : Nat) : Nat := e.power rootr ((e.m.toNat - 1) / new)

/-- One growth of one table: `T[h + k] <- Mul(T[k], root)` for k = 0 .. h-1 (45_ntt R212). -/
def Engine.growTable (e : Engine) (table : WordMem) (h root : Nat) : WordMem :=
  (List.range h).foldl (fun t k => poke t (h + k) (BitVec.ofNat 64 (e.mul (wordAt t k) root))) table

/-- The body of Precompute's loop: both tables grow from coverage TWCOV to 2·TWCOV (45_ntt R212). -/
def State.growTables (s : State) : State :=
  let new := 2 * s.twcov.toNat
  let h := new / 4
  { s with
    twf := s.eng.growTable s.twf h (s.eng.rootForward s.rootr.toNat new)
    twi := s.eng.growTable s.twi h (s.eng.rootInverse s.rootr.toNat new)
    twcov := BitVec.ofNat 64 new }

/-- The loop `while TWCOV < n`, at most `fuel` iterations (45_ntt R212; log 14). -/
def State.precomputeLoop : Nat → Nat → State → State
  | 0, _, s => s
  | fuel + 1, n, s => if s.twcov.toNat < n then State.precomputeLoop fuel n s.growTables else s

/-- `Precompute(2^LOGN)` (45_ntt R212): from a coverage of at least 2, fewer than LOGN doublings reach 2^LOGN. -/
def State.precompute (s : State) (logn : LogLen) : State :=
  State.precomputeLoop logn.toNat (transformLength logn) s

/-- What a SETROOT writes (45_ntt R214). -/
def State.loadRoot (s : State) (g : Word) : State :=
  { s.flagsAfterSetroot with
    root := g
    rootr := BitVec.ofNat 64 (s.eng.fromOrdinary g.toNat)
    twf := poke s.twf 0 s.eng.one
    twi := poke s.twi 0 s.eng.one
    twcov := 2 }

/-! ### The butterfly networks (45_ntt R216, R218)

A buffer is the list P of its n words as integers; the loops are the rules' own, index for index. -/

/-- The Cooley-Tukey butterfly on P[j] and P[j + len] with root w (45_ntt R216). -/
def Engine.butterflyForward (e : Engine) (w len : Nat) (p : List Nat) (j : Nat) : List Nat :=
  let u := p.getD j 0
  let v := e.mul (p.getD (j + len) 0) w
  (p.set j (e.add u v)).set (j + len) (e.sub u v)

/-- The Gentleman-Sande butterfly on P[j] and P[j + len] with root w (45_ntt R218). -/
def Engine.butterflyInverse (e : Engine) (w len : Nat) (p : List Nat) (j : Nat) : List Nat :=
  let u := p.getD j 0
  let v := p.getD (j + len) 0
  (p.set j (e.add u v)).set (j + len) (e.mul (e.sub u v) w)

/-- One stage of span len over n words: block i = 0 .. n/(2·len) - 1 uses table entry i, and in it j runs from 2·i·len
to 2·i·len + len - 1 (45_ntt R216, R218). -/
def stage (butterfly : Nat → Nat → List Nat → Nat → List Nat) (table : WordMem) (n len : Nat) (p : List Nat) :
    List Nat :=
  (List.range (n / (2 * len))).foldl
    (fun p i => (List.range len).foldl (fun p k => butterfly (wordAt table i) len p (2 * i * len + k)) p) p

/-- `Fntt` on a buffer of n = 2^logn words: spans n/2, n/4, .., 1 (45_ntt R216). -/
def Engine.fntt (e : Engine) (table : WordMem) (logn : Nat) (p : List Nat) : List Nat :=
  (List.range logn).foldl (fun p k => stage e.butterflyForward table (2 ^ logn) (2 ^ (logn - 1 - k)) p) p

/-- The butterfly stages of `Intt`: spans 1, 2, .., n/2 (45_ntt R218). -/
def Engine.inttStages (e : Engine) (table : WordMem) (logn : Nat) (p : List Nat) : List Nat :=
  (List.range logn).foldl (fun p k => stage e.butterflyInverse table (2 ^ logn) (2 ^ k) p) p

/-- `Intt` on a buffer of n = 2^logn words: the stages, then one pass of scaling by Inverse(From(n)); nothing at all
for n = 1 (45_ntt R218, 90_conflicts C7). -/
def Engine.intt (e : Engine) (table : WordMem) (logn : Nat) (p : List Nat) : List Nat :=
  if logn = 0 then p
  else
    let ninv := e.inverse (e.fromOrdinary (2 ^ logn))
    (e.inttStages table logn p).map fun v => e.mul v ninv

/-! ### The transforms on PMEM -/

/-- `Fntt(base, n)` on PMEM (45_ntt R216). -/
def State.fnttAt (s : State) (base logn : Nat) : State :=
  { s with pmem := storeNats s.pmem base (s.eng.fntt s.twf logn (loadRange s.pmem base (2 ^ logn))) }

/-- `Intt(base, n)` on PMEM (45_ntt R218). -/
def State.inttAt (s : State) (base logn : Nat) : State :=
  { s with pmem := storeNats s.pmem base (s.eng.intt s.twi logn (loadRange s.pmem base (2 ^ logn))) }

/-- The pointwise step of PMUL: `PMEM[a + j] <- Mul(PMEM[a + j], PMEM[b + j])` for j = 0 .. n-1 in order (45_ntt
R220). -/
def State.pointwiseAt (s : State) (a b n : Nat) : State :=
  (List.range n).foldl
    (fun t j => t.setP (a + j) (BitVec.ofNat 64 (t.eng.mul (wordAt t.pmem (a + j)) (wordAt t.pmem (b + j))))) s

/-- FNTT after its checks and its table growth (45_ntt R217, R222). -/
def State.forwardTransform (s : State) (base : Nat) (logn : LogLen) : State :=
  if s.bufferValid base (transformLength logn) then s.fnttAt base logn.toNat
  else s.freeRange base (transformLength logn)

/-- INTT after its checks and its table growth (45_ntt R219, R222). -/
def State.inverseTransform (s : State) (base : Nat) (logn : LogLen) : State :=
  if s.bufferValid base (transformLength logn) then s.inttAt base logn.toNat
  else s.freeRange base (transformLength logn)

/-- PMUL after its checks and its table growth (45_ntt R220, R222): four steps on PMEM, each seeing the words the
previous one left. -/
def State.convolve (s : State) (a b : Nat) (logn : LogLen) : State :=
  if s.bufferValid a (transformLength logn) && s.bufferValid b (transformLength logn) then
    (((s.fnttAt a logn.toNat).fnttAt b logn.toNat).pointwiseAt a b (transformLength logn)).inttAt a logn.toNat
  else (s.freeRange a (transformLength logn)).freeRange b (transformLength logn)

/-! ### The commands -/

/-- SETROOT (45_ntt R214): g is any word, unchecked. -/
def execSetroot (ra : Reg) (s : State) : Result :=
  finish s do
    s.needEngine
    return s.loadRoot (s.x ra)

/-- PRECOMP (45_ntt R215). -/
def execPrecomp (logn : LogLen) (s : State) : Result :=
  finish s do
    s.needTransform logn
    return s.precompute logn

/-- FNTT (45_ntt R217). -/
def execFntt (ra : Reg) (logn : LogLen) (s : State) : Result :=
  finish s do
    s.needTransform logn
    s.needRange (s.ordinary ra) (transformLength logn)
    return (s.precompute logn).forwardTransform (s.ordinary ra) logn

/-- INTT (45_ntt R219). -/
def execIntt (ra : Reg) (logn : LogLen) (s : State) : Result :=
  finish s do
    s.needTransform logn
    s.needRange (s.ordinary ra) (transformLength logn)
    return (s.precompute logn).inverseTransform (s.ordinary ra) logn

/-- PMUL (45_ntt R220): operand A's range is checked before operand B's. -/
def execPmul (ra rb : Reg) (logn : LogLen) (s : State) : Result :=
  finish s do
    s.needTransform logn
    s.needRange (s.ordinary ra) (transformLength logn)
    s.needRange (s.ordinary rb) (transformLength logn)
    return (s.precompute logn).convolve (s.ordinary ra) (s.ordinary rb) logn

end Sys2Proof.Machine
end

