-- ==== Sys2Proof/Machine/Poly.lean ====
section
/-! DEFINITION. Polynomial element access and the element-wise commands: PLD, PST, PHAD, PVADD, PVSUB, PSADD, PSSUB,
PSMUL, PSDIV (46_poly_elementwise R240 to R249). -/

namespace Sys2Proof.Machine

/-! ### Element access -/

/-- `x[rd] <- PMEM[a]`: a word never written since reset reads as UNSPEC_W (46_poly_elementwise R240, 10_state R41). -/
def State.loadElement (s : State) (rd : Reg) (a : Nat) : State :=
  match peek s.pmem a with
  | some w => s.setX rd w
  | none => s.setXFree rd

/-- PLD (46_poly_elementwise R240). -/
def execPld (rd ra : Reg) (s : State) : Result :=
  finish s do
    s.needRange (s.ordinary ra) 1
    return s.loadElement rd (s.ordinary ra)

/-- PST (46_poly_elementwise R241): the raw word, unchecked. -/
def execPst (ra rb : Reg) (s : State) : Result :=
  finish s do
    s.needRange (s.ordinary ra) 1
    return s.setP (s.ordinary ra) (s.x rb)

/-! ### The template of 46_poly_elementwise R249 -/

/-- The value the vector form gives element i of A, with the addresses this command has spoiled so far: none where
either word is no residue, or where B's word is one this command has stored as UNSPEC_W, which spoils its readers
(46_poly_elementwise R249, 93_implementation_defined U7; log 8). -/
def vectorValue (op : Nat → Nat → Nat) (a b : Nat) (s : State) (spoiled : List Nat) (i : Nat) : Option Nat :=
  if b + i ∈ spoiled then none else (s.residueAt (a + i)).bind fun u => (s.residueAt (b + i)).map (op u)

/-- One step of the vector form: element i of A is combined with element i of B, and its address is noted where it
becomes UNSPEC_W. -/
def vectorStep (op : Nat → Nat → Nat) (a b : Nat) (p : State × List Nat) (i : Nat) : State × List Nat :=
  match vectorValue op a b p.1 p.2 i with
  | some v => (p.1.setPValue (a + i) (some v), p.2)
  | none => (p.1.setPValue (a + i) none, (a + i) :: p.2)

/-- The vector form: i = 0 .. len-1 in ascending order, each step seeing the words earlier steps stored. -/
def vectorForm (op : Nat → Nat → Nat) (a b len : Nat) (s : State) : State :=
  ((List.range len).foldl (vectorStep op a b) (s, [])).1

/-- One step of the scalar form with a valid scalar. -/
def scalarStep (op : Nat → Nat) (a : Nat) (s : State) (i : Nat) : State :=
  s.setPValue (a + i) ((s.residueAt (a + i)).map op)

/-- The scalar form: an invalid scalar spoils the whole destination, an invalid element its own index. -/
def scalarForm (op : Nat → Nat → Nat) (a len : Nat) (scalar : Option Nat) (s : State) : State :=
  match scalar with
  | some t => (List.range len).foldl (scalarStep (fun u => op u t) a) s
  | none => s.freeRange a len

/-- A vector command: NOMOD, then PRANGE on A, then on B, then the vector form. -/
def vectorEffect (op : Nat → Nat → Nat) (ra rb rc : Reg) (s : State) : Effect := do
  s.needEngine
  s.needRange (s.ordinary ra) (s.ordinary rc)
  s.needRange (s.ordinary rb) (s.ordinary rc)
  return vectorForm op (s.ordinary ra) (s.ordinary rb) (s.ordinary rc) s

/-- A scalar command: NOMOD, then PRANGE, then the scalar form on the scalar given. -/
def scalarEffect (op : Nat → Nat → Nat) (scalar : Option Nat) (ra rc : Reg) (s : State) : Effect := do
  s.needEngine
  s.needRange (s.ordinary ra) (s.ordinary rc)
  return scalarForm op (s.ordinary ra) (s.ordinary rc) scalar s

/-! ### The commands -/

/-- PHAD (46_poly_elementwise R242). -/
def execPhad (ra rb rc : Reg) (s : State) : Result := finish s (vectorEffect s.eng.mul ra rb rc s)

/-- PVADD (46_poly_elementwise R243). -/
def execPvadd (ra rb rc : Reg) (s : State) : Result := finish s (vectorEffect s.eng.add ra rb rc s)

/-- PVSUB (46_poly_elementwise R244): A minus B. -/
def execPvsub (ra rb rc : Reg) (s : State) : Result := finish s (vectorEffect s.eng.sub ra rb rc s)

/-- PSADD (46_poly_elementwise R245). -/
def execPsadd (ra rb rc : Reg) (s : State) : Result := finish s (scalarEffect s.eng.add (s.residue rb) ra rc s)

/-- PSSUB (46_poly_elementwise R246): each element minus the scalar. -/
def execPssub (ra rb rc : Reg) (s : State) : Result := finish s (scalarEffect s.eng.sub (s.residue rb) ra rc s)

/-- PSMUL (46_poly_elementwise R247). -/
def execPsmul (ra rb rc : Reg) (s : State) : Result := finish s (scalarEffect s.eng.mul (s.residue rb) ra rc s)

/-- PSDIV (46_poly_elementwise R248): multiply by t = Inverse(s), computed once. -/
def execPsdiv (ra rb rc : Reg) (s : State) : Result :=
  finish s (scalarEffect s.eng.mul (s.unary s.eng.inverse rb) ra rc s)

end Sys2Proof.Machine
end

