-- ==== Sys2Proof/Machine/System.lean ====
section
/-! DEFINITION. NOP, LI, LIS, MOV, RDC (40_system R101 to R105). None needs an engine. -/

namespace Sys2Proof.Machine

/-- NOP (40_system R101): nothing but its completion. -/
def execNop (s : State) : Result := finish s (.ok s)

/-- LI (40_system R102). -/
def execLi (rd : Reg) (imm16 : BitVec 16) (s : State) : Result := finish s (.ok (s.setX rd (immediate imm16)))

/-- LIS (40_system R103): shift left by 16 and add, modulo 2^64. -/
def execLis (rd : Reg) (imm16 : BitVec 16) (s : State) : Result :=
  finish s (.ok (s.setX rd ((s.x rd <<< 16) + immediate imm16)))

/-- MOV (40_system R104): the raw word is copied. -/
def execMov (rd ra : Reg) (s : State) : Result := finish s (.ok (s.setX rd (s.x ra)))

/-- RDC (40_system R105): a control register by number; a reserved number is ILLCMD (10_state R37). -/
def execRdc (rd : Reg) (creg : CregNum) (s : State) : Result :=
  finish s (match cregValue s (statusWordInCommand s) creg.toNat with
    | some v => .ok (s.setX rd v)
    | none => .error .illcmd)

end Sys2Proof.Machine
end

