-- ==== Sys2Proof/Machine/Dispatch.lean ====
section
/-! DEFINITION. The dispatch of a decoded command to its meaning, which is `Complete(v)` of 40_system R100 for it. -/

namespace Sys2Proof.Machine

def exec (i : Instr) (s : State) : Host.Outcome State Fault Refusal :=
  match i with
  | .nop => Sys2Proof.Machine.execNop s
  | .li rd imm16 => Sys2Proof.Machine.execLi rd imm16 s
  | .lis rd imm16 => Sys2Proof.Machine.execLis rd imm16 s
  | .mov rd ra => Sys2Proof.Machine.execMov rd ra s
  | .rdc rd creg => Sys2Proof.Machine.execRdc rd creg s
  | .setmod ra => Sys2Proof.Machine.execSetmod ra s
  | .setroot ra => Sys2Proof.Machine.execSetroot ra s
  | .mfrom rd ra => Sys2Proof.Machine.execMfrom rd ra s
  | .mto rd ra => Sys2Proof.Machine.execMto rd ra s
  | .madd rd ra rb => Sys2Proof.Machine.execMadd rd ra rb s
  | .msub rd ra rb => Sys2Proof.Machine.execMsub rd ra rb s
  | .mmul rd ra rb => Sys2Proof.Machine.execMmul rd ra rb s
  | .mneg rd ra => Sys2Proof.Machine.execMneg rd ra s
  | .mredc rd ra rb => Sys2Proof.Machine.execMredc rd ra rb s
  | .meq rd ra rb => Sys2Proof.Machine.execMeq rd ra rb s
  | .mcmp rd ra rb => Sys2Proof.Machine.execMcmp rd ra rb s
  | .mpowm rd ra rb rc => Sys2Proof.Machine.execMpowm rd ra rb rc s
  | .mpow rd ra rb => Sys2Proof.Machine.execMpow rd ra rb s
  | .minv rd ra => Sys2Proof.Machine.execMinv rd ra s
  | .mdiv rd ra rb => Sys2Proof.Machine.execMdiv rd ra rb s
  | .pld rd ra => Sys2Proof.Machine.execPld rd ra s
  | .pst ra rb => Sys2Proof.Machine.execPst ra rb s
  | .precomp logn => Sys2Proof.Machine.execPrecomp logn s
  | .fntt ra logn => Sys2Proof.Machine.execFntt ra logn s
  | .intt ra logn => Sys2Proof.Machine.execIntt ra logn s
  | .pmul ra rb logn => Sys2Proof.Machine.execPmul ra rb logn s
  | .phad ra rb rc => Sys2Proof.Machine.execPhad ra rb rc s
  | .pvadd ra rb rc => Sys2Proof.Machine.execPvadd ra rb rc s
  | .pvsub ra rb rc => Sys2Proof.Machine.execPvsub ra rb rc s
  | .psadd ra rb rc => Sys2Proof.Machine.execPsadd ra rb rc s
  | .pssub ra rb rc => Sys2Proof.Machine.execPssub ra rb rc s
  | .psmul ra rb rc => Sys2Proof.Machine.execPsmul ra rb rc s
  | .psdiv ra rb rc => Sys2Proof.Machine.execPsdiv ra rb rc s
  | .isprime rd ra => Sys2Proof.Machine.execIsprime rd ra s
  | .mrwit rd ra => Sys2Proof.Machine.execMrwit rd ra s

end Sys2Proof.Machine
end

