-- ==== Sys2Proof/Machine/HostWindow.lean ====
section
/-! DEFINITION. The host window: the map of byte offsets and what a host read or write of each object does, idle and
busy (20_memory R64 to R69, 10_state R34, R35, 40_system R100, 70_reset_and_hazards R303, R304). -/

namespace Sys2Proof.Machine

/-- The objects of the window (20_memory R64). -/
inductive WindowObject where
  | cmd
  | ctrl
  /-- A read-only control register, by its creg number (10_state R37). -/
  | creg (number : Nat)
  | x (r : Reg)
  | pmem (a : Nat)
  | twf (k : Nat)
  | twi (k : Nat)
  | unmapped
  deriving DecidableEq, Repr

/-- The array of `count` 64-bit objects from a base offset, if the offset falls in it. -/
def arrayIndex (base count offset : Nat) : Option Nat :=
  if base ≤ offset ∧ offset < base + 8 * count then some ((offset - base) / 8) else none

/-- The registers below offset 0x0068 (10_state R37, 20_memory R64). -/
def registerAt (offset : Nat) : WindowObject :=
  match offset with
  | 0x00 => .cmd
  | 0x08 => .creg 8
  | 0x10 => .ctrl
  | 0x18 => .creg 9
  | 0x20 => .creg 0
  | 0x28 => .creg 1
  | 0x30 => .creg 2
  | 0x38 => .creg 3
  | 0x40 => .creg 4
  | 0x48 => .creg 5
  | 0x50 => .creg 6
  | 0x58 => .creg 7
  | 0x60 => .creg 10
  | _ => .unmapped

/-- The map of 20_memory R64 for a block with a given PLOG, at an aligned offset. -/
def windowObject (plog offset : Nat) : WindowObject :=
  match arrayIndex 0x100 16 offset with
  | some i => .x (BitVec.ofNat 4 i)
  | none =>
    match arrayIndex 0x01000000 (2 ^ plog) offset with
    | some a => .pmem a
    | none =>
      match arrayIndex 0x02000000 (2 ^ (plog - 1)) offset with
      | some k => .twf k
      | none =>
        match arrayIndex 0x03000000 (2 ^ (plog - 1)) offset with
        | some k => .twi k
        | none => registerAt offset

/-- A host access is part of the interface when it is 8 bytes wide at an offset that is a multiple of 8 (20_memory
R65). -/
def accessOk (offset width : Nat) : Bool := width == 8 && offset % 8 == 0

/-! ### Writes -/

/-- A write that is dropped because CMAC is busy, or a CMD write dropped because of ERR, sets OVR and does nothing else
(10_state R33, 20_memory R68). -/
def State.dropWrite (s : State) : State := { s with ovr := true }

/-- `HostCmd(v)`: acceptance, or the drop (40_system R100). The command completes at a later step. -/
def State.hostCmd (s : State) (v : Word) : State :=
  if s.busy || s.err then s.dropWrite else s.accept v

/-- CTRL bit 0, IE (10_state R34). -/
def State.setIe (s : State) (b : Bool) : State := { s with ie := b }

/-- CTRL bit 1, CLRERR: the return from a fault (10_state R34, 60_exceptions R273). -/
def State.pulseClrerr (s : State) (b : Bool) : State := if b then s.clearFault else s

/-- CTRL bit 2, CLRDONE (10_state R34). -/
def State.pulseClrdone (s : State) (b : Bool) : State := if b then { s with done := false } else s

/-- CTRL bit 3, CLROVR (10_state R34). -/
def State.pulseClrovr (s : State) (b : Bool) : State := if b then { s with ovr := false } else s

/-- A CTRL write acts at once, busy or idle; SRST wins over all other bits (10_state R34, 70_reset_and_hazards R300). -/
def State.writeCtrl (s : State) (v : Word) : State :=
  if v.getLsbD 4 then s.resetNow
  else (((s.setIe (v.getLsbD 0)).pulseClrerr (v.getLsbD 1)).pulseClrdone (v.getLsbD 2)).pulseClrovr (v.getLsbD 3)

/-- A host write of one object (20_memory R64, R68, R69). Writes to read-only objects and unmapped offsets are
ignored, without OVR. -/
def State.hostWriteObject (s : State) (obj : WindowObject) (v : Word) : State :=
  match obj with
  | .cmd => s.hostCmd v
  | .ctrl => s.writeCtrl v
  | .x r => if s.busy then s.dropWrite else s.setX r v
  | .pmem a => if s.busy then s.dropWrite else s.setP a v
  | .creg _ => s
  | .twf _ => s
  | .twi _ => s
  | .unmapped => s

/-! ### Reads -/

/-- Whether a control register reads as itself while a command executes: STATUS, CMDCNT and CONFIG do (20_memory
R68). -/
def readableWhileBusy (creg : Nat) : Bool := creg == 8 || creg == 9 || creg == 10

/-- A twiddle entry as the host reads it: no value at or beyond the valid range, which ends at TWCOV/2 (10_state R32,
20_memory R68). -/
def State.tableEntry (s : State) (table : WordMem) (k : Nat) : Option Word :=
  if k < s.twcov.toNat / 2 then peek table k else none

/-- What a host read of an object returns; no value where the spec leaves it unspecified (20_memory R64, R67 to
R69). -/
def State.hostReadValue (s : State) (obj : WindowObject) : Option Word :=
  match obj with
  | .cmd => some 0
  | .ctrl => some (ctrlWord s)
  | .creg n => if s.busy && !readableWhileBusy n then none else cregValue s (statusWord s) n
  | .x r => if s.busy then none else some (s.x r)
  | .pmem a => if s.busy then none else peek s.pmem a
  | .twf k => if s.busy then none else s.tableEntry s.twf k
  | .twi k => if s.busy then none else s.tableEntry s.twi k
  | .unmapped => some 0

/-- A host read: it has no side effect on CMAC (20_memory R67); the value returned is kept in the model's field
`rdata` (log 9), an unspecified one as a fresh free value (log 11). -/
def State.hostReadObject (s : State) (obj : WindowObject) : State :=
  match s.hostReadValue obj with
  | some v => { s with rdata := v }
  | none => { s with rdata := Config.freeWord s.draws, draws := s.draws + 1 }

/-! ### Accesses -/

/-- One host write (20_memory R64, R65). -/
def hostWrite (offset width : Nat) (v : Word) (s : State) : Result :=
  if accessOk offset width then .next (s.hostWriteObject (windowObject s.cfg.plog offset) v)
  else .refused .hostAccessForm

/-- One host read (20_memory R64, R65). -/
def hostRead (offset width : Nat) (s : State) : Result :=
  if accessOk offset width then .next (s.hostReadObject (windowObject s.cfg.plog offset))
  else .refused .hostAccessForm

end Sys2Proof.Machine
end

