-- ==== Sys2Proof/Machine/Cycle.lean ====
section
/-! DEFINITION. The command cycle (40_system R100): the completion of the command in execution, and what each entry of
the input stream does. -/

namespace Sys2Proof.Machine

/-- `Complete(v)`: an illegal value is ILLCMD (30_encoding R87), whatever the state (60_exceptions R271); a command
has its meaning. -/
def completeCommand (v : Word) (s : State) : Result :=
  match decodeCmd v with
  | .ok i => exec i s
  | .error _ => .next (s.takeFault .illcmd)

/-- The completion instant: the command in execution completes; an idle block keeps its state (60_exceptions R283). -/
def completion (s : State) : Result :=
  match s.cur with
  | some v => completeCommand v s
  | none => .next s

/-- What one entry of the input stream does. -/
def handleInput (input : Input) (s : State) : Result :=
  match input with
  | .hostWrite offset width v => hostWrite offset width v s
  | .hostRead offset width => hostRead offset width s
  | .hardwareReset => .next s.resetNow
  | .completion => completion s

/-- The input stream with the completion of the command in execution ahead of everything else. An exhausted stream
says so already (log 2). -/
def completionFirst : List Input → List Input
  | [] => []
  | input :: rest => .completion :: input :: rest

/-- The state with the command in execution set to a CMD value that is accepted (40_system R100: BUSY rises, DONE
falls, CUR is the value) and its completion the next thing to happen (log 3). -/
def State.placeCommand (s : State) (v : Word) : State :=
  { s.accept v with inputs := completionFirst s.inputs }

end Sys2Proof.Machine
end

