-- ==== Sys2Proof/Machine/Step.lean ====
section
/-! DEFINITION. One step of CMAC, and the host's way of placing a command where the next step runs it. -/

namespace Sys2Proof.Machine

/-- One step: the next entry of the input stream acts; when the stream has run out, the command in execution, if there
is one, completes ("every accepted command completes after a finite time", 70_reset_and_hazards R307; log 2). -/
def step (s : State) : Host.Outcome State Fault Refusal :=
  match s.inputs with
  | [] => completion s
  | input :: rest => handleInput input { s with inputs := rest }

/-- The state s with the command word `w` of `nbits` bits (the bits above are zero) accepted and about to complete, so
that the next step runs it (log 3). -/
def State.withFetchWord (s : State) (nbits w : Nat) : State := s.placeCommand (BitVec.ofNat 64 (w % 2 ^ nbits))

end Sys2Proof.Machine
end

