-- ==== Sys2Proof/Safety.lean ====
section
/-! DEFINITION. The terms the claims are stated in: what a fault or a completion leaves, which fault a command reports
(60_exceptions R270, R271), the invariant of the machine, and the mathematical notions behind the units (residue
classes, witnesses, certifying ROMs, cyclic convolution). Nothing here is executed by a step. -/

namespace Sys2Proof.Machine

/-! ### What a command leaves -/

/-- The state after a command faulted with code `code` (60_exceptions R272), field by field: only the fault record
and the execution state differ from s. -/
def Faulted (s : State) (code : BitVec 8) (t : State) : Prop :=
  t = { s with err := true, errcode := code, errcmd := (s.cur.getD 0).extractLsb' 0 32, cur := none, done := true }

/-- The command completes, x[rd] becomes v, and the rest of the state is as it was but for what completion does: the
count, the execution state, DONE (40_system R100). -/
def WritesReg (i : Instr) (s : State) (rd : Reg) (v : Word) : Prop :=
  ∃ t, exec i s = .next t ∧ t.x rd = v ∧ (∀ r, r ≠ rd → t.x r = s.x r) ∧
    t = { s with regs := t.regs, cmdcnt := s.cmdcnt + 1, cur := none, done := true }

/-- The command completes, x[rd] becomes some word of which nothing is said (UNSPEC_W, 00_scope R12), and the rest of
the state is as it was but for what completion does and the model's count of free values. -/
def WritesSomeWord (i : Instr) (s : State) (rd : Reg) : Prop :=
  ∃ t, exec i s = .next t ∧ (∀ r, r ≠ rd → t.x r = s.x r) ∧
    t = { s with regs := t.regs, draws := t.draws, cmdcnt := s.cmdcnt + 1, cur := none, done := true }

/-- x[rd] becomes the exact value a rule gives, or an unspecified word where it gives none. -/
def WritesRegValue (i : Instr) (s : State) (rd : Reg) : Option Nat → Prop
  | some v => WritesReg i s rd (BitVec.ofNat 64 v)
  | none => WritesSomeWord i s rd

/-- A command that changes nothing but PMEM (and the model's count of free values) completes in t. -/
def OnlyPmem (s t : State) : Prop :=
  t = { s with pmem := t.pmem, draws := t.draws, cmdcnt := s.cmdcnt + 1, cur := none, done := true }

/-- A command that changes nothing but PMEM and the twiddle tables with their coverage (and the model's count of free
values) completes in t. -/
def OnlyPmemAndTables (s t : State) : Prop :=
  t = { s with
    pmem := t.pmem
    twf := t.twf
    twi := t.twi
    twcov := t.twcov
    draws := t.draws
    cmdcnt := s.cmdcnt + 1
    cur := none
    done := true }

/-- Every PMEM word outside [base, base + len) reads as before. -/
def PmemSameOutside (s t : State) (base len : Nat) : Prop :=
  ∀ a, (a < base ∨ base + len ≤ a) → peek t.pmem a = peek s.pmem a

/-- A read or a register holds the residue word u: the word is there and is below MOD2 (41_montgomery R122). -/
def ResidueWord (e : Engine) (read : Option Word) (u : Nat) : Prop :=
  ∃ w, read = some w ∧ w.toNat = u ∧ u < e.m2.toNat

/-- The words the vector form of 46_poly_elementwise R249 defines on A at a and B at b, by element: element k of A is
the operation of the two residue words it meets. Where B lies below A and reaches into it, element k of B is the word an
earlier element j of this command defined; if that one is unspecified, so is element k (93_implementation_defined U7). -/
inductive VectorElement (s : State) (op : Nat → Nat → Nat) (a b : Nat) : Nat → Word → Prop where
  | fromOldWords (k u v : Nat) (hb : ¬ (b < a ∧ a ≤ b + k)) (hu : ResidueWord s.eng (peek s.pmem (a + k)) u)
      (hv : ResidueWord s.eng (peek s.pmem (b + k)) v) : VectorElement s op a b k (BitVec.ofNat 64 (op u v))
  | fromEarlierElement (k j u v : Nat) (w : Word) (hb : b < a) (hj : b + k = a + j)
      (hu : ResidueWord s.eng (peek s.pmem (a + k)) u) (hw : VectorElement s op a b j w)
      (hv : ResidueWord s.eng (some w) v) : VectorElement s op a b k (BitVec.ofNat 64 (op u v))

/-- The element-wise result of a vector command on A = [a, a + len) and B = [b, b + len), in ascending order
(46_poly_elementwise R249): every element of A becomes the word `VectorElement` defines, or some word where it defines
none. Nothing else changes. -/
def VectorResult (i : Instr) (s : State) (op : Nat → Nat → Nat) (a b len : Nat) : Prop :=
  ∃ t, exec i s = .next t ∧ OnlyPmem s t ∧ PmemSameOutside s t a len ∧
    ∀ k < len, ∃ w, peek t.pmem (a + k) = some w ∧ ∀ v, VectorElement s op a b k v → w = v

/-- The element-wise result of a scalar command on A = [a, a + len) with the scalar word `scalar` (46_poly_elementwise
R249): element k becomes the operation on it when both it and the scalar are residue words, and some word otherwise.
Nothing else changes. -/
def ScalarResult (i : Instr) (s : State) (op : Nat → Nat → Nat) (a : Nat) (scalar : Word) (len : Nat) : Prop :=
  ∃ t, exec i s = .next t ∧ OnlyPmem s t ∧ PmemSameOutside s t a len ∧
    ∀ k < len, ∃ w, peek t.pmem (a + k) = some w ∧
      ∀ u v, ResidueWord s.eng (peek s.pmem (a + k)) u → ResidueWord s.eng (some scalar) v →
        w = BitVec.ofNat 64 (op u v)

/-- The next thing to happen is a host write, and it takes the machine to t. -/
def HostWriteGives (s : State) (offset : Nat) (v : Word) (t : State) : Prop :=
  step { s with inputs := .hostWrite offset 8 v :: s.inputs } = .next t

/-- A host read of this offset returns v and changes nothing else (20_memory R67). -/
def HostReadReturns (s : State) (offset : Nat) (v : Word) : Prop :=
  step { s with inputs := .hostRead offset 8 :: s.inputs } = .next { s with rdata := v }

/-- A host read of this offset returns some word of which nothing is said (20_memory R68), and changes nothing else
but the model's count of free values. -/
def HostReadReturnsSomething (s : State) (offset : Nat) : Prop :=
  ∃ v d, step { s with inputs := .hostRead offset 8 :: s.inputs } = .next { s with rdata := v, draws := d }

/-- STATUS as a number, field by field (10_state R33). -/
def statusNumber (s : State) (busy done ovr : Nat) : Nat :=
  busy + 2 * done + 4 * s.err.toNat + 8 * ovr + 16 * s.modv.toNat + 32 * s.rootv.toNat + 64 * s.mracc.toNat +
    2 ^ 8 * s.errcode.toNat + 2 ^ 32 * s.errcmd.toNat

/-- CONFIG as a number, field by field (10_state R36). -/
def configNumber (s : State) : Nat := 64 + 2 ^ 8 * s.cfg.plog + 2 ^ 16

/-- An operand range is inside PMEM (20_memory R63). -/
def InsidePmem (s : State) (base len : Nat) : Prop := len = 0 ∨ base + len ≤ 2 ^ s.cfg.plog

/-- Every word of a buffer has been written and is below MOD2 (45_ntt R217). -/
def ResidueBuffer (s : State) (base n : Nat) : Prop :=
  ∀ j < n, ∃ u, ResidueWord s.eng (peek s.pmem (base + j)) u

/-- The state a reset leaves, field by field (10_state R49), but for the parameters and the model's own fields. -/
structure ResetTable (t : State) : Prop where
  registers : ∀ r, t.x r = 0
  engine : t.eng.m = 0 ∧ t.eng.m2 = 0 ∧ t.eng.mprime = 0 ∧ t.eng.one = 0 ∧ t.eng.rsq = 0
  root : t.root = 0 ∧ t.rootr = 0
  coverage : t.twcov = 0
  status : statusWord t = 0
  flags : t.modv = false ∧ t.rootv = false ∧ t.mracc = false ∧ t.done = false ∧ t.err = false ∧ t.ovr = false
  fault_record : t.errcode = 0 ∧ t.errcmd = 0
  enable : t.ie = false
  count : t.cmdcnt = 0
  idle : t.cur = none
  line : irq t = false
  pmem_unspecified : ∀ a, peek t.pmem a = none
  tables_unspecified : ∀ k, peek t.twf k = none ∧ peek t.twi k = none

/-! ### Which fault a command reports (60_exceptions R270, R271) -/

/-- The commands of R270's NOMOD row. -/
def usesEngine : Instr → Bool
  | .setroot _ => true
  | .mfrom _ _ | .mto _ _ | .madd _ _ _ | .msub _ _ _ | .mmul _ _ _ | .mneg _ _ | .mredc _ _ _ => true
  | .meq _ _ _ | .mcmp _ _ _ => true
  | .mpowm _ _ _ _ | .mpow _ _ _ | .minv _ _ | .mdiv _ _ _ => true
  | .precomp _ | .fntt _ _ | .intt _ _ | .pmul _ _ _ => true
  | .phad _ _ _ | .pvadd _ _ _ | .pvsub _ _ _ => true
  | .psadd _ _ _ | .pssub _ _ _ | .psmul _ _ _ | .psdiv _ _ _ => true
  | .mrwit _ _ => true
  | .nop | .li _ _ | .lis _ _ | .mov _ _ | .rdc _ _ => false
  | .setmod _ | .pld _ _ | .pst _ _ | .isprime _ _ => false

/-- The LOGN field, of the commands of R270's NOROOT and BADLEN rows. -/
def lognOf : Instr → Option LogLen
  | .precomp logn | .fntt _ logn | .intt _ logn | .pmul _ _ logn => some logn
  | .nop | .li _ _ | .lis _ _ | .mov _ _ | .rdc _ _ => none
  | .setmod _ | .setroot _ => none
  | .mfrom _ _ | .mto _ _ | .madd _ _ _ | .msub _ _ _ | .mmul _ _ _ | .mneg _ _ | .mredc _ _ _ => none
  | .meq _ _ _ | .mcmp _ _ _ => none
  | .mpowm _ _ _ _ | .mpow _ _ _ | .minv _ _ | .mdiv _ _ _ => none
  | .pld _ _ | .pst _ _ => none
  | .phad _ _ _ | .pvadd _ _ _ | .pvsub _ _ _ => none
  | .psadd _ _ _ | .pssub _ _ _ | .psmul _ _ _ | .psdiv _ _ _ => none
  | .isprime _ _ | .mrwit _ _ => none

/-- The PMEM operand ranges (base, length) of R270's PRANGE row. -/
def pmemOperands : Instr → State → List (Nat × Nat)
  | .pld _ ra, s => [((s.x ra).toNat, 1)]
  | .pst ra _, s => [((s.x ra).toNat, 1)]
  | .fntt ra logn, s => [((s.x ra).toNat, 2 ^ logn.toNat)]
  | .intt ra logn, s => [((s.x ra).toNat, 2 ^ logn.toNat)]
  | .pmul ra rb logn, s => [((s.x ra).toNat, 2 ^ logn.toNat), ((s.x rb).toNat, 2 ^ logn.toNat)]
  | .phad ra rb rc, s => [((s.x ra).toNat, (s.x rc).toNat), ((s.x rb).toNat, (s.x rc).toNat)]
  | .pvadd ra rb rc, s => [((s.x ra).toNat, (s.x rc).toNat), ((s.x rb).toNat, (s.x rc).toNat)]
  | .pvsub ra rb rc, s => [((s.x ra).toNat, (s.x rc).toNat), ((s.x rb).toNat, (s.x rc).toNat)]
  | .psadd ra _ rc, s => [((s.x ra).toNat, (s.x rc).toNat)]
  | .pssub ra _ rc, s => [((s.x ra).toNat, (s.x rc).toNat)]
  | .psmul ra _ rc, s => [((s.x ra).toNat, (s.x rc).toNat)]
  | .psdiv ra _ rc, s => [((s.x ra).toNat, (s.x rc).toNat)]
  | .nop, _ | .li _ _, _ | .lis _ _, _ | .mov _ _, _ | .rdc _ _, _ => []
  | .setmod _, _ | .setroot _, _ => []
  | .mfrom _ _, _ | .mto _ _, _ | .madd _ _ _, _ | .msub _ _ _, _ | .mmul _ _ _, _ => []
  | .mneg _ _, _ | .mredc _ _ _, _ => []
  | .meq _ _ _, _ | .mcmp _ _ _, _ => []
  | .mpowm _ _ _ _, _ | .mpow _ _ _, _ | .minv _ _, _ | .mdiv _ _ _, _ => []
  | .precomp _, _ => []
  | .isprime _ _, _ | .mrwit _ _, _ => []

/-- The range fault (20_memory R63): a non-empty range that ends beyond 2^PLOG. -/
def OutsidePmem (s : State) (range : Nat × Nat) : Prop := range.2 ≠ 0 ∧ range.1 + range.2 > 2 ^ s.cfg.plog

/-- The modulus a command offers and refuses (R270's BADMOD row): SETMOD's operand when it is even or at or above
2^62; an ISPRIME candidate at or above 2^62 that steps 1 to 4 do not settle, being coprime to 2·3·5·7 and to its trial
primes (44_miller_rabin R187, R188 property P2). -/
def OffersBadModulus : Instr → State → Prop
  | .setmod ra, s => (s.x ra).toNat % 2 = 0 ∨ 2 ^ 62 ≤ (s.x ra).toNat
  | .isprime _ ra, s =>
    2 ^ 62 ≤ (s.x ra).toNat ∧ Nat.Coprime (s.x ra).toNat 210 ∧
      ∀ q ∈ romTrial s.cfg.rom (s.x ra).toNat, ¬ q ∣ (s.x ra).toNat
  | _, _ => False

/-- `Reports i s code`: the command's checks, in the order of 60_exceptions R271, first fail with this code. The first
line is the one illegal encoding that a term of `Instr` can still express (30_encoding R87 point 4). -/
inductive Reports (i : Instr) (s : State) : BitVec 8 → Prop where
  | illcmd (h : i.wellFormed = false) : Reports i s 1
  | nomod (h1 : i.wellFormed = true) (h : usesEngine i = true ∧ s.modv = false) : Reports i s 2
  | noroot (h1 : i.wellFormed = true) (h2 : usesEngine i = true → s.modv = true)
      (h : (lognOf i).isSome ∧ s.rootv = false) : Reports i s 3
  | badlen (h1 : i.wellFormed = true) (h2 : usesEngine i = true → s.modv = true)
      (h3 : (lognOf i).isSome → s.rootv = true)
      (h : ∃ logn, lognOf i = some logn ∧ s.cfg.plog < logn.toNat) : Reports i s 4
  | prange (h1 : i.wellFormed = true) (h2 : usesEngine i = true → s.modv = true)
      (h3 : (lognOf i).isSome → s.rootv = true) (h4 : ∀ logn, lognOf i = some logn → logn.toNat ≤ s.cfg.plog)
      (h : ∃ range ∈ pmemOperands i s, OutsidePmem s range) : Reports i s 5
  | badmod (h : OffersBadModulus i s) : Reports i s 6

/-- No check of the command fails. -/
def Runs (i : Instr) (s : State) : Prop :=
  i.wellFormed = true ∧ (usesEngine i = true → s.modv = true) ∧ ((lognOf i).isSome → s.rootv = true) ∧
    (∀ logn, lognOf i = some logn → logn.toNat ≤ s.cfg.plog) ∧
    (∀ range ∈ pmemOperands i s, ¬ OutsidePmem s range) ∧ ¬ OffersBadModulus i s

/-- The register a command writes (30_encoding R86, column "fields": rd). -/
def destination : Instr → Option Reg
  | .li rd _ | .lis rd _ | .mov rd _ | .rdc rd _ => some rd
  | .mfrom rd _ | .mto rd _ | .madd rd _ _ | .msub rd _ _ | .mmul rd _ _ | .mneg rd _ | .mredc rd _ _ => some rd
  | .meq rd _ _ | .mcmp rd _ _ => some rd
  | .mpowm rd _ _ _ | .mpow rd _ _ | .minv rd _ | .mdiv rd _ _ => some rd
  | .pld rd _ => some rd
  | .isprime rd _ | .mrwit rd _ => some rd
  | .nop | .setmod _ | .setroot _ | .pst _ _ | .precomp _ | .fntt _ _ | .intt _ _ | .pmul _ _ _ => none
  | .phad _ _ _ | .pvadd _ _ _ | .pvsub _ _ _ => none
  | .psadd _ _ _ | .pssub _ _ _ | .psmul _ _ _ | .psdiv _ _ _ => none

/-- A 64-bit CMD value is illegal (30_encoding R87, points 1 to 4, with the opcode map of R86). -/
def IllegalCommand (v : Word) : Prop :=
  v.toNat / 2 ^ 32 ≠ 0 ∨ (∀ row ∈ opcodeRows, (v.extractLsb' 0 32) &&& row.mask ≠ row.matchBits) ∨
    (v.toNat / 2 ^ 24 % 256 = 4 ∧ 10 < v.toNat % 256)

/-! ### Residues and the engine -/

/-- An engine some accepted modulus builds (41_montgomery R120, R121). -/
def Engine.Lawful (e : Engine) : Prop := ∃ m, modOk m = true ∧ e = construct m

/-- The word v represents the class c: `v ≡ c·R (mod m)` with c in [0, m) (00_scope R13). -/
def Engine.Represents (e : Engine) (v c : Nat) : Prop :=
  c < e.m.toNat ∧ v % e.m.toNat = c * 2 ^ 64 % e.m.toNat

/-! ### The invariant -/

/-- What the valid entries of one twiddle table hold at coverage 2^c (45_ntt R212, R214): ONE first, and every later
half-table is the one before times its stage root. -/
def TableLawful (e : Engine) (table : WordMem) (c : Nat) (stageRoot : Nat → Nat) : Prop :=
  peek table 0 = some e.one ∧
    ∀ j k, j + 2 ≤ c → k < 2 ^ j →
      ∃ w, peek table (2 ^ j + k) = some w ∧ w.toNat = e.mul (wordAt table k) (stageRoot (2 ^ (j + 2)))

/-- The twiddle unit while a root is loaded (10_state R31, R32, 45_ntt R211 to R214). -/
def State.TwiddlesLawful (s : State) : Prop :=
  s.rootr.toNat = s.eng.fromOrdinary s.root.toNat ∧
    ∃ c, 1 ≤ c ∧ c ≤ s.cfg.plog ∧ s.twcov.toNat = 2 ^ c ∧
      TableLawful s.eng s.twf c (s.eng.rootForward s.rootr.toNat) ∧
      TableLawful s.eng s.twi c (s.eng.rootInverse s.rootr.toNat)

/-- What holds of every state a run reaches. -/
structure State.Inv (s : State) : Prop where
  /-- 1 ≤ PLOG ≤ 21 and a ROM of the right shape (00_scope R6, 44_miller_rabin R181). -/
  params : s.cfg.ok = true
  /-- PMEM is canonical and inside its 2^PLOG words (10_state R41). -/
  pmem_wf : s.pmem.wf
  pmem_inside : ∀ p ∈ s.pmem, p.1 < 2 ^ s.cfg.plog
  /-- The tables are canonical and inside their 2^(PLOG-1) entries (10_state R40). -/
  twf_wf : s.twf.wf
  twf_inside : ∀ p ∈ s.twf, p.1 < 2 ^ (s.cfg.plog - 1)
  twi_wf : s.twi.wf
  twi_inside : ∀ p ∈ s.twi, p.1 < 2 ^ (s.cfg.plog - 1)
  /-- A valid engine is one that SETMOD builds; without one the engine registers read 0 (10_state R26, R30). -/
  engine_lawful : s.modv = true → s.eng.Lawful
  engine_absent : s.modv = false → s.eng = { m := 0, m2 := 0, mprime := 0, one := 0, rsq := 0 }
  /-- A root or a set witness accumulator belongs to a loaded engine (10_state R26). -/
  root_needs_engine : s.rootv = true → s.modv = true
  mracc_needs_engine : s.mracc = true → s.modv = true
  /-- Without a root ROOT, ROOTR and TWCOV are 0; with one they and the tables are lawful (10_state R31, R32). -/
  root_absent : s.rootv = false → s.root = 0 ∧ s.rootr = 0 ∧ s.twcov = 0
  root_lawful : s.rootv = true → s.TwiddlesLawful
  /-- ERRCODE and ERRCMD are 0 when ERR = 0; ERRCODE is one of the six codes when ERR = 1 (10_state R33, 60_exceptions
  R270). -/
  no_fault_record : s.err = false → s.errcode = 0 ∧ s.errcmd = 0
  fault_code : s.err = true → 1 ≤ s.errcode.toNat ∧ s.errcode.toNat ≤ 6
  /-- A command is in execution only while no fault is recorded and DONE is clear (40_system R100). -/
  busy_clean : s.cur.isSome = true → s.err = false ∧ s.done = false

/-! ### Miller-Rabin -/

/-- The terms x_0, x_1, .. of 44_miller_rabin R185. -/
def witnessTerm (n b c : Nat) : Nat → Nat
  | 0 => (b % n) ^ c % n
  | j + 1 => witnessTerm n b c j ^ 2 % n

/-- `WitnessPass(n, b)`, the mathematical definition (44_miller_rabin R185). -/
def WitnessPass (n b : Nat) : Prop :=
  ∃ s c, n - 1 = 2 ^ s * c ∧ c % 2 = 1 ∧ (witnessTerm n b c 0 = 1 ∨ ∃ j < s, witnessTerm n b c j = n - 1)

/-- `WF(WITNESS_ROM)` (44_miller_rabin R182): the shape of R181, and for every candidate below 2^62 that reaches step
4, membership of its trial list means that it is prime, and otherwise, with no trial prime dividing it, its witness set
certifies it. -/
def RomCertifies (rom : WitnessRom) : Prop :=
  rom.shapeOk = true ∧
    ∀ n, 11 ≤ n → n < 2 ^ 62 → Nat.Coprime n 210 →
      (n ∈ romTrial rom n → Nat.Prime n) ∧
        (n ∉ romTrial rom n → (∀ q ∈ romTrial rom n, ¬ q ∣ n) →
          ((∀ b ∈ romSet rom n, WitnessPass n b) ↔ Nat.Prime n))

/-! ### Polynomials in PMEM -/

/-- The classes (`To`) of the n words of a buffer. -/
def State.classAt (s : State) (base j : Nat) : Nat := s.eng.toOrdinary (wordAt s.pmem (base + j))

/-- The reversal of the low `bits` bits of i (45_ntt R213). -/
def bitReverse : Nat → Nat → Nat
  | 0, _ => 0
  | bits + 1, i => bitReverse bits (i / 2) + 2 ^ bits * (i % 2)

/-- Coefficient k of the cyclic convolution of length n of two coefficient functions (45_ntt R220 point 2). -/
def cyclicConvolution (n : Nat) (f g : Nat → Nat) (k : Nat) : Nat :=
  ∑ i ∈ Finset.range n, ∑ j ∈ Finset.range n, if (i + j) % n = k then f i * g j else 0

/-- The preconditions of 45_ntt R210: a prime modulus (point 1), a length that divides m - 1 (point 2), and a root g for
which g^((m-1)/n) is a primitive n-th root of unity. Every primitive root is such a g, the first alternative of point 3.
The second, "an element whose order is divisible by n", is not enough for what R211, R213 and R216 say under these
preconditions, and only such of those elements are taken in as satisfy it (DEDUCED, log 23). -/
def TransformPrecondition (m n : Nat) (g : Nat) : Prop :=
  Nat.Prime m ∧ n ∣ m - 1 ∧ orderOf ((g : ZMod m) ^ ((m - 1) / n)) = n

end Sys2Proof.Machine
end

