-- ==== Sys2Proof/Certificates/Slice0/Obligations.lean ====
section
/-! DEFINITION. The statements for the provers, from the numbered rules of spec/ (OBLIGATIONS.json lists them). -/

open Sys2Proof Sys2Proof.Machine

/-! ### Encoding -/

/-- Every command is read back from the CMD value the encoder writes for it, every operand at every value
(30_encoding R80 to R87). -/
def Obligations.DecodeInvertsEncode : Prop :=
  ∀ i : Instr, i.wellFormed = true → decodeCmd (encodeCmd i) = .ok i

/-- Every CMD value that is a command is the one the encoder writes for it: no two values stand for one command, and
no bit of a value is ignored (30_encoding R80 to R87). -/
def Obligations.EncodeInvertsDecode : Prop :=
  ∀ (v : Word) (i : Instr), decodeCmd v = .ok i → encodeCmd i = v ∧ i.wellFormed = true

/-- A CMD value in execution that is illegal by the four points of 30_encoding R87 (over the match and mask columns of
R86) raises ILLCMD with no other effect; every other value is a command; a LOGN above PLOG is no illegal encoding but,
with an engine and a root, BADLEN. -/
def Obligations.IllegalCommandRaisesIllcmd : Prop :=
  ∀ (s : State) (v : Word), s.cur = some v →
    (IllegalCommand v → ∃ t, completion s = .next t ∧ Faulted s 1 t) ∧
      (¬ IllegalCommand v → ∃ i, decodeCmd v = .ok i ∧ i.wellFormed = true ∧
        ∀ logn, lognOf i = some logn → s.cfg.plog < logn.toNat → s.modv = true → s.rootv = true →
          ∃ t, completion s = .next t ∧ Faulted s 4 t)

/-- Words the spec prints, one of each family, decode to the commands it prints them for (95_test_vectors, and for RDC
and PST 40_system R105 and 46_poly_elementwise R241). -/
def Obligations.WorkedWordsDecode : Prop :=
  decode 0x01103B80 = .ok (.li 1 0x3B80) ∧ decode 0x04300003 = .ok (.rdc 3 3) ∧
    decode 0x10010000 = .ok (.setmod 1) ∧ decode 0x22423000 = .ok (.madd 4 2 3) ∧
    decode 0x29412000 = .ok (.mcmp 4 1 2) ∧ decode 0x30412300 = .ok (.mpowm 4 1 2 3) ∧
    decode 0x41065000 = .ok (.pst 6 5) ∧ decode 0x45067003 = .ok (.pmul 6 7 3) ∧
    decode 0x4D065900 = .ok (.psdiv 6 5 9) ∧ decode 0x51320000 = .ok (.mrwit 3 2)

/-! ### The command cycle -/

/-- A step at a state whose command in execution decodes to i is exec of i, when its completion is the next thing to
happen or nothing else is offered; an idle block with nothing offered keeps its state (40_system R100, 60_exceptions
R283). That an exhausted input stream lets the command complete is the model's choice (log 2). -/
def Obligations.StepRunsTheCommandInExecution : Prop :=
  ∀ s : State,
    (∀ (v : Word) (i : Instr), s.cur = some v → decodeCmd v = .ok i → i.wellFormed = true →
      (s.inputs = [] → step s = exec i s) ∧
        (∀ rest, s.inputs = .completion :: rest → step s = exec i { s with inputs := rest })) ∧
      (s.cur = none → s.inputs = [] → step s = .next s)

/-- A CMD write while BUSY or ERR is dropped, sets OVR and has no other effect (70_reset_and_hazards R304). -/
def Obligations.CmdWriteIsDroppedWhileBusyOrFaulted : Prop :=
  ∀ (s : State) (v : Word), s.cur.isSome = true ∨ s.err = true → HostWriteGives s 0x0000 v { s with ovr := true }

/-- A CMD write while neither BUSY nor ERR is accepted: BUSY rises with CUR the value, DONE falls, nothing else the host
sees changes (40_system R100). That CUR keeps all 64 bits and that OVR is latched for the command to read are the
model's reading (log 4). -/
def Obligations.CmdWriteIsAcceptedWhileIdle : Prop :=
  ∀ (s : State) (v : Word), s.cur = none → s.err = false →
    HostWriteGives s 0x0000 v { s with done := false, cur := some v, ovrAtAcceptance := s.ovr }

/-- Whatever value is in execution, its completion leaves the block idle with DONE set, and either counts it or records
a fault and leaves the count: no accepted command stops the machine (40_system R100, 70_reset_and_hazards R307). -/
def Obligations.EveryAcceptedCommandCompletes : Prop :=
  ∀ (s : State) (v : Word), s.cur = some v →
    ∃ t, completion s = .next t ∧ t.cur = none ∧ t.done = true ∧
      ((t.cmdcnt = s.cmdcnt + 1 ∧ t.err = s.err ∧ t.errcode = s.errcode ∧ t.errcmd = s.errcmd) ∨
        ∃ code : BitVec 8, 1 ≤ code.toNat ∧ code.toNat ≤ 6 ∧ Faulted s code t)

/-- CMDCNT counts, modulo 2^64, the commands that complete without a fault, NOP among them; faulting and dropped
commands and host writes of its offset leave it; it is 0 after reset (10_state R25). -/
def Obligations.CmdcntCountsCompletedCommands : Prop :=
  State.reset.cmdcnt = 0 ∧
    (∀ (i : Instr) (s : State), Runs i s → ∃ t, exec i s = .next t ∧ t.cmdcnt.toNat = (s.cmdcnt.toNat + 1) % 2 ^ 64) ∧
    (∀ (i : Instr) (s : State) (code : BitVec 8), Reports i s code → ∃ t, exec i s = .next t ∧ t.cmdcnt = s.cmdcnt) ∧
    (∀ (s : State) (v : Word), s.cur = some v → IllegalCommand v →
      ∃ t, completion s = .next t ∧ t.cmdcnt = s.cmdcnt) ∧
    (∀ (s : State) (v : Word), s.cur.isSome = true ∨ s.err = true →
      ∃ t, HostWriteGives s 0x0000 v t ∧ t.cmdcnt = s.cmdcnt) ∧
    (∀ (s : State) (v : Word), s.cfg.ok = true → HostWriteGives s 0x0018 v s)

/-- The fault a command reports is that of its first failing check, in the fixed order ILLCMD, NOMOD, NOROOT, BADLEN,
PRANGE, BADMOD; its record is all that changes (60_exceptions R270 to R272). -/
def Obligations.FirstFailingCheckIsReported : Prop :=
  ∀ (i : Instr) (s : State) (code : BitVec 8), Reports i s code → ∃ t, exec i s = .next t ∧ Faulted s code t

/-- A command none of whose checks fails completes without a fault: the count goes up by one, the block is idle with
DONE set, and the fault record, OVR, IE, the parameters and the model's input stream stay (40_system R100,
60_exceptions R270, R271). -/
def Obligations.CommandsThatPassTheirChecksRetire : Prop :=
  ∀ (i : Instr) (s : State), Runs i s →
    ∃ t, exec i s = .next t ∧ t.cmdcnt = s.cmdcnt + 1 ∧ t.cur = none ∧ t.done = true ∧ t.err = s.err ∧
      t.errcode = s.errcode ∧ t.errcmd = s.errcmd ∧ t.ovr = s.ovr ∧ t.ie = s.ie ∧ t.cfg = s.cfg ∧
      t.inputs = s.inputs ∧ t.rdata = s.rdata

/-! ### System commands -/

/-- NOP, LI, LIS and MOV in every state (40_system R101 to R104): the value as a number, and nothing else changed. -/
def Obligations.SystemCommandResults : Prop :=
  ∀ (s : State) (rd ra : Reg) (imm16 : BitVec 16),
    (exec .nop s = .next { s with cmdcnt := s.cmdcnt + 1, cur := none, done := true }) ∧
      WritesReg (.li rd imm16) s rd (BitVec.ofNat 64 imm16.toNat) ∧
      WritesReg (.lis rd imm16) s rd (BitVec.ofNat 64 ((s.x rd).toNat * 2 ^ 16 + imm16.toNat)) ∧
      WritesReg (.mov rd ra) s rd (s.x ra)

/-- RDC of each control register, in every state, an engine loaded or not; STATUS reads with BUSY = 1 and DONE = 0,
OVR as latched at acceptance, the other fields as they are; a reserved number is ILLCMD (40_system R105, 10_state R33,
R36, R37). -/
def Obligations.RdcReadsControlRegisters : Prop :=
  ∀ (s : State) (rd : Reg),
    WritesReg (.rdc rd 0) s rd s.eng.m ∧ WritesReg (.rdc rd 1) s rd s.eng.m2 ∧
      WritesReg (.rdc rd 2) s rd s.eng.mprime ∧ WritesReg (.rdc rd 3) s rd s.eng.one ∧
      WritesReg (.rdc rd 4) s rd s.eng.rsq ∧ WritesReg (.rdc rd 5) s rd s.root ∧
      WritesReg (.rdc rd 6) s rd s.rootr ∧ WritesReg (.rdc rd 7) s rd s.twcov ∧
      WritesReg (.rdc rd 8) s rd (BitVec.ofNat 64 (statusNumber s 1 0 s.ovrAtAcceptance.toNat)) ∧
      WritesReg (.rdc rd 9) s rd s.cmdcnt ∧
      (s.cfg.plog < 256 → WritesReg (.rdc rd 10) s rd (BitVec.ofNat 64 (configNumber s))) ∧
      (∀ creg : CregNum, 10 < creg.toNat → ∃ t, exec (.rdc rd creg) s = .next t ∧ Faulted s 1 t)

/-- LI64: LI of bits 63:48, then LIS of bits 47:32, 31:16 and 15:0, builds the word (30_encoding R90). -/
def Obligations.LoadImmediateSequenceBuildsWord : Prop :=
  ∀ (s : State) (rd : Reg) (v : Word),
    ∃ t1 t2 t3 t4, exec (.li rd (v.extractLsb' 48 16)) s = .next t1 ∧ exec (.lis rd (v.extractLsb' 32 16)) t1 = .next t2 ∧
      exec (.lis rd (v.extractLsb' 16 16)) t2 = .next t3 ∧ exec (.lis rd (v.extractLsb' 0 16)) t3 = .next t4 ∧
      t4.x rd = v ∧ ∀ r, r ≠ rd → t4.x r = s.x r

/-! ### The engine -/

/-- SETMOD of an odd modulus below 2^62 loads the five constants, sets MODV and MRACC and clears the root and the
coverage; of any other it is BADMOD and nothing but the fault record changes (41_montgomery R120, R121). -/
def Obligations.SetmodLoadsTheModulus : Prop :=
  ∀ (s : State) (ra : Reg),
    ((s.x ra).toNat % 2 = 1 → (s.x ra).toNat < 2 ^ 62 →
      ∃ t, exec (.setmod ra) s = .next t ∧ t.eng.m = s.x ra ∧ t.eng.m2.toNat = 2 * (s.x ra).toNat ∧
        (s.x ra).toNat * t.eng.mprime.toNat % 2 ^ 64 = 2 ^ 64 - 1 ∧ t.eng.one.toNat = 2 ^ 64 % (s.x ra).toNat ∧
        t.eng.rsq.toNat = 2 ^ 128 % (s.x ra).toNat ∧
        t = { s with
          eng := t.eng
          modv := true
          rootv := false
          mracc := true
          root := 0
          rootr := 0
          twcov := 0
          cmdcnt := s.cmdcnt + 1
          cur := none
          done := true }) ∧
      ((s.x ra).toNat % 2 = 0 ∨ 2 ^ 62 ≤ (s.x ra).toNat → ∃ t, exec (.setmod ra) s = .next t ∧ Faulted s 6 t)

/-- REDC: the quotient, the exact shift, the congruence, the bounds and the double-width bound (41_montgomery R123,
facts 1 to 4). -/
def Obligations.ReductionIsExact : Prop :=
  ∀ m T : Nat, modOk m = true →
    let e := construct m
    let q := T % 2 ^ 64 * e.mprime.toNat % 2 ^ 64
    e.reduce T = (T + q * m) / 2 ^ 64 ∧ (T + q * m) % 2 ^ 64 = 0 ∧ e.reduce T * 2 ^ 64 % m = T % m ∧
      T ≤ e.reduce T * 2 ^ 64 ∧ e.reduce T * 2 ^ 64 < T + m * 2 ^ 64 ∧ (T < m * 2 ^ 64 → e.reduce T < 2 * m) ∧
      (T < 2 ^ 64 → e.reduce T ≤ m) ∧ (T ≤ 3 * 2 ^ 126 → T + q * m < 2 ^ 128)

/-- From and To on every word: From(x) is a valid residue word of the class x mod m, To(v) is the ordinary integer
v·R^-1 mod m, below m (41_montgomery R124, R125). -/
def Obligations.FromAndToConvert : Prop :=
  ∀ m x : Nat, modOk m = true → x < 2 ^ 64 →
    let e := construct m
    e.fromOrdinary x < 2 * m ∧ e.Represents (e.fromOrdinary x) (x % m) ∧ e.fromOrdinary 0 = 0 ∧
      e.fromOrdinary 1 = 2 ^ 64 % m ∧ e.toOrdinary x < m ∧ e.toOrdinary x * 2 ^ 64 % m = x % m ∧
      e.toOrdinary m = 0 ∧ (x < m → e.toOrdinary (e.fromOrdinary x) = x)

/-- Add, Sub and Neg keep the lazy range with one conditional correction by 2m (41_montgomery R126, R127, R129). -/
def Obligations.LazyAddSubNeg : Prop :=
  ∀ m a b : Nat, modOk m = true → a < 2 * m → b < 2 * m →
    let e := construct m
    a + b < 2 ^ 64 ∧ e.add a b < 2 * m ∧ (e.add a b = a + b ∨ e.add a b + 2 * m = a + b) ∧
      e.add a b % m = (a + b) % m ∧
      e.sub a b < 2 * m ∧ (e.sub a b + b = a ∨ e.sub a b + b = a + 2 * m) ∧ (e.sub a b + b) % m = a % m ∧
      e.sub a a = 0 ∧ e.neg 0 = 0 ∧ (a ≠ 0 → e.neg a = 2 * m - a) ∧ e.neg a < 2 * m ∧ (e.neg a + a) % m = 0 ∧
      e.neg m = m

/-- Mul of valid residue words is REDC of the exact product, a valid residue word of the product class; it is
commutative on raw words and 0 annihilates (41_montgomery R128). -/
def Obligations.MultiplyRepresentsProduct : Prop :=
  ∀ m a b : Nat, modOk m = true → a < 2 * m → b < 2 * m →
    let e := construct m
    e.mul a b = e.reduce (a * b) ∧ a * b < m * 2 ^ 64 ∧ e.mul a b < 2 * m ∧
      e.toOrdinary (e.mul a b) = e.toOrdinary a * e.toOrdinary b % m ∧ e.mul a b = e.mul b a ∧
      e.mul 0 b = 0

/-- The source's testable laws on classes (41_montgomery R131). -/
def Obligations.RingLawsOnClasses : Prop :=
  ∀ m x a b : Nat, modOk m = true → x < m → a < 2 * m → b < 2 * m →
    let e := construct m
    e.toOrdinary (e.fromOrdinary x) = x ∧
      e.toOrdinary (e.add a b) = (e.toOrdinary a + e.toOrdinary b) % m ∧
      e.toOrdinary (e.sub a b) = (e.toOrdinary a + m - e.toOrdinary b) % m ∧
      e.toOrdinary (e.mul a b) = e.toOrdinary a * e.toOrdinary b % m ∧
      e.toOrdinary (e.neg a) = (m - e.toOrdinary a) % m

/-- PowMul of valid residue words and a 64-bit exponent is a valid residue word of the class To(z)·To(x)^y; exponent 0
returns the seed's raw word; Power(x, 0) is ONE, Power(x, 1) keeps the class, Power(x, y) has the class To(x)^y
(42_exponentiation R150, R151). -/
def Obligations.PowMulRepresentsPower : Prop :=
  ∀ m x y z : Nat, modOk m = true → x < 2 * m → z < 2 * m → y < 2 ^ 64 →
    let e := construct m
    e.powMul x y z < 2 * m ∧ e.toOrdinary (e.powMul x y z) = e.toOrdinary z * e.toOrdinary x ^ y % m ∧
      e.powMul x 0 z = z ∧ e.power x 0 = 2 ^ 64 % m ∧ e.toOrdinary (e.power x 1) = e.toOrdinary x ∧
      e.toOrdinary (e.power x y) = e.toOrdinary x ^ y % m

/-- Inverse and Divide: the class they represent for every lawful modulus, Inverse(0) = 0, and for a prime modulus the
inverse and the quotient of the field (42_exponentiation R152, R153). -/
def Obligations.InverseAndDivide : Prop :=
  ∀ m x y : Nat, modOk m = true → x < 2 * m → y < 2 * m →
    let e := construct m
    let exponent := (m + 2 ^ 64 - 2) % 2 ^ 64
    e.inverse x < 2 * m ∧ e.toOrdinary (e.inverse x) = e.toOrdinary x ^ exponent % m ∧ e.inverse 0 = 0 ∧
      e.divide x y < 2 * m ∧ e.toOrdinary (e.divide x y) = e.toOrdinary x * e.toOrdinary y ^ exponent % m ∧
      (Nat.Prime m → e.toOrdinary y ≠ 0 →
        e.toOrdinary (e.mul y (e.inverse y)) = 1 ∧ e.toOrdinary (e.mul (e.divide x y) y) = e.toOrdinary x)

/-! ### Ring, power and compare commands -/

/-- MADD, MSUB and MNEG with an engine: the raw word by the formulas of 41_montgomery R126, R127 and R129 when the
operands are valid residue words, some word otherwise (R134, R135, R137); nothing else changes. -/
def Obligations.AddSubNegCommandResults : Prop :=
  ∀ (s : State) (rd ra rb : Reg), s.modv = true →
    let a := (s.x ra).toNat
    let b := (s.x rb).toNat
    let m2 := s.eng.m2.toNat
    WritesRegValue (.madd rd ra rb) s rd
        (if a < m2 ∧ b < m2 then some (if m2 ≤ a + b then a + b - m2 else a + b) else none) ∧
      WritesRegValue (.msub rd ra rb) s rd
        (if a < m2 ∧ b < m2 then some (if b ≤ a then a - b else a + (m2 - b)) else none) ∧
      WritesRegValue (.mneg rd ra) s rd (if a < m2 then some (if a = 0 then 0 else m2 - a) else none)

/-- MFROM, MTO, MMUL and MREDC with an engine: the raw word by REDC's formula of 41_montgomery R123 (R132, R133, R136,
R138); MFROM and MTO on every word; MMUL writes some word for an operand that is no valid residue word, MREDC for a
value whose `T + q·m` overflows the double width; nothing else changes. -/
def Obligations.ReducingCommandResults : Prop :=
  ∀ (s : State) (rd ra rb : Reg), s.modv = true →
    let a := (s.x ra).toNat
    let b := (s.x rb).toNat
    let m := s.eng.m.toNat
    let u := fun T : Nat => T + T % 2 ^ 64 * s.eng.mprime.toNat % 2 ^ 64 * m
    let redc := fun T : Nat => u T / 2 ^ 64
    WritesRegValue (.mfrom rd ra) s rd (some (redc (a * s.eng.rsq.toNat))) ∧
      WritesRegValue (.mto rd ra) s rd (some (if m ≤ redc a then redc a - m else redc a)) ∧
      WritesRegValue (.mmul rd ra rb) s rd
        (if a < s.eng.m2.toNat ∧ b < s.eng.m2.toNat then some (redc (a * b)) else none) ∧
      WritesRegValue (.mredc rd ra rb) s rd
        (if u (a * 2 ^ 64 + b) < 2 ^ 128 then some (redc (a * 2 ^ 64 + b)) else none)

/-- MPOWM, MPOW, MINV and MDIV with an engine: the raw word of PowMul, with the exponent an ordinary register, when the
residue operands are valid, some word otherwise; exponent 0 copies the seed (42_exponentiation R154 to R157); nothing
else changes. -/
def Obligations.PowerCommandResults : Prop :=
  ∀ (s : State) (rd ra rb rc : Reg), s.modv = true →
    let a := (s.x ra).toNat
    let b := (s.x rb).toNat
    let c := (s.x rc).toNat
    let m2 := s.eng.m2.toNat
    let fermat := (s.eng.m.toNat + 2 ^ 64 - 2) % 2 ^ 64
    WritesRegValue (.mpowm rd ra rb rc) s rd (if a < m2 ∧ c < m2 then some (s.eng.powMul a b c) else none) ∧
      (b = 0 → a < m2 → c < m2 → WritesReg (.mpowm rd ra rb rc) s rd (s.x rc)) ∧
      WritesRegValue (.mpow rd ra rb) s rd (if a < m2 then some (s.eng.powMul a b s.eng.one.toNat) else none) ∧
      WritesRegValue (.minv rd ra) s rd (if a < m2 then some (s.eng.powMul a fermat s.eng.one.toNat) else none) ∧
      WritesRegValue (.mdiv rd ra rb) s rd (if a < m2 ∧ b < m2 then some (s.eng.powMul b fermat a) else none)

/-- MEQ and MCMP with a lawful engine compare the classes of the two words, whatever the words are: equal exactly when
congruent modulo m, ordered as the ordinary integers in [0, m) (43_residue_compare R170 to R172). -/
def Obligations.CompareCommandsCompareClasses : Prop :=
  ∀ (s : State) (rd ra rb : Reg) (ca cb : Nat), s.modv = true → s.eng.Lawful →
    s.eng.Represents (s.x ra).toNat ca → s.eng.Represents (s.x rb).toNat cb →
    WritesReg (.meq rd ra rb) s rd (if (s.x ra).toNat % s.eng.m.toNat = (s.x rb).toNat % s.eng.m.toNat then 1 else 0) ∧
      WritesReg (.mcmp rd ra rb) s rd (if ca = cb then 0 else if cb < ca then 1 else BitVec.ofNat 64 (2 ^ 64 - 1))

/-! ### Miller-Rabin -/

/-- The witness computed on an engine is the mathematical one (44_miller_rabin R185, R186). -/
def Obligations.WitnessMatchesDefinition : Prop :=
  ∀ n b : Nat, n % 2 = 1 → 3 ≤ n → n < 2 ^ 62 → b < 2 ^ 64 → ((construct n).witness b = true ↔ WitnessPass n b)

/-- ISPRIME by the five steps, from any ROM of the right shape, in any state and for every candidate: each step's
verdict, the witnesses by their mathematical definition, only x[rd] written; and BADMOD for a candidate from 2^62 up that
reaches step 5 (44_miller_rabin R184 to R188). -/
def Obligations.IsprimeFollowsTheFiveSteps : Prop :=
  ∀ (s : State) (rd ra : Reg), s.cfg.ok = true →
    let n := (s.x ra).toNat
    let trial := romTrial s.cfg.rom n
    (n < 2 → WritesReg (.isprime rd ra) s rd 0) ∧
      (n = 2 ∨ n = 3 ∨ n = 5 ∨ n = 7 → WritesReg (.isprime rd ra) s rd 1) ∧
      (2 ≤ n → n ≠ 2 → n ≠ 3 → n ≠ 5 → n ≠ 7 → ¬ Nat.Coprime n 210 → WritesReg (.isprime rd ra) s rd 0) ∧
      (7 < n → Nat.Coprime n 210 → n ∈ trial → WritesReg (.isprime rd ra) s rd 1) ∧
      (7 < n → Nat.Coprime n 210 → n ∉ trial → (∃ q ∈ trial, q ∣ n) → WritesReg (.isprime rd ra) s rd 0) ∧
      (7 < n → n < 2 ^ 62 → Nat.Coprime n 210 → (∀ q ∈ trial, ¬ q ∣ n) →
        (∀ b ∈ romSet s.cfg.rom n, WitnessPass n b) → WritesReg (.isprime rd ra) s rd 1) ∧
      (7 < n → n < 2 ^ 62 → Nat.Coprime n 210 → (∀ q ∈ trial, ¬ q ∣ n) →
        (∃ b ∈ romSet s.cfg.rom n, ¬ WitnessPass n b) → WritesReg (.isprime rd ra) s rd 0) ∧
      (2 ^ 62 ≤ n → Nat.Coprime n 210 → (∀ q ∈ trial, ¬ q ∣ n) → ∃ t, exec (.isprime rd ra) s = .next t ∧ Faulted s 6 t)

/-- With a certifying ROM, ISPRIME writes 1 exactly for the primes among the candidates below 2^62, with or without an
engine loaded (44_miller_rabin R182, R188 property P1). -/
def Obligations.IsprimeDecidesPrimality : Prop :=
  ∀ (s : State) (rd ra : Reg), RomCertifies s.cfg.rom → (s.x ra).toNat < 2 ^ 62 →
    (Nat.Prime (s.x ra).toNat → WritesReg (.isprime rd ra) s rd 1) ∧
      (¬ Nat.Prime (s.x ra).toNat → WritesReg (.isprime rd ra) s rd 0)

/-- MRWIT runs one witness on the loaded modulus, writes its verdict and ANDs it into MRACC; a modulus below 3 fails;
nothing else changes (44_miller_rabin R189). -/
def Obligations.MrwitAccumulatesVerdicts : Prop :=
  ∀ (s : State) (rd ra : Reg) (pass : Bool), s.modv = true → s.eng.Lawful →
    (pass = true ↔ 3 ≤ s.eng.m.toNat ∧ WitnessPass s.eng.m.toNat (s.x ra).toNat) →
    ∃ t, exec (.mrwit rd ra) s = .next t ∧ t.x rd = (if pass then 1 else 0) ∧ t.mracc = (s.mracc && pass) ∧
      (∀ r, r ≠ rd → t.x r = s.x r) ∧
      t = { s with regs := t.regs, mracc := t.mracc, cmdcnt := s.cmdcnt + 1, cur := none, done := true }

/-! ### Transforms -/

/-- SETROOT with an engine takes any word as g: ROOT, ROOTR, the two first entries, coverage 2 and ROOTV are written,
nothing else (45_ntt R214). That the words of the entries this makes invalid, unspecified by the spec, stay in the
model's tables is the model's choice (log 19). -/
def Obligations.SetrootStartsNewTables : Prop :=
  ∀ (s : State) (ra : Reg), s.modv = true →
    ∃ t, exec (.setroot ra) s = .next t ∧ t.root = s.x ra ∧
      t.rootr = BitVec.ofNat 64 (s.eng.fromOrdinary (s.x ra).toNat) ∧ t.twcov = 2 ∧ t.rootv = true ∧
      peek t.twf 0 = some s.eng.one ∧ peek t.twi 0 = some s.eng.one ∧
      (∀ k, k ≠ 0 → peek t.twf k = peek s.twf k ∧ peek t.twi k = peek s.twi k) ∧
      t = { s with
        root := t.root
        rootr := t.rootr
        rootv := true
        twf := t.twf
        twi := t.twi
        twcov := 2
        cmdcnt := s.cmdcnt + 1
        cur := none
        done := true }

/-- PRECOMP with a root and a length that fits grows the coverage to the length if it is smaller, by the recurrence of
45_ntt R212 (which `TwiddlesLawful` states), never rewrites a valid entry, and touches no entry beyond; nothing but the
tables and TWCOV changes (45_ntt R212, R215). The invariant is the premise. -/
def Obligations.PrecompGrowsTheTables : Prop :=
  ∀ (s : State) (logn : LogLen), s.Inv → s.rootv = true → logn.toNat ≤ s.cfg.plog →
    ∃ t, exec (.precomp logn) s = .next t ∧ t.twcov.toNat = max s.twcov.toNat (2 ^ logn.toNat) ∧ t.TwiddlesLawful ∧
      (∀ k, k < s.twcov.toNat / 2 → peek t.twf k = peek s.twf k ∧ peek t.twi k = peek s.twi k) ∧
      (∀ k, t.twcov.toNat / 2 ≤ k → peek t.twf k = peek s.twf k ∧ peek t.twi k = peek s.twi k) ∧
      t = { s with
        twf := t.twf
        twi := t.twi
        twcov := t.twcov
        cmdcnt := s.cmdcnt + 1
        cur := none
        done := true }

/-- FNTT and INTT with a root, a length that fits and a buffer inside PMEM: the tables end as PRECOMP leaves them; a
buffer of valid residue words ends as the network of 45_ntt R216 or R218 on its words, any other as some words; every
other word of PMEM and everything else stays (45_ntt R217, R219, R222). That an invalid word becomes some word for length
1 too follows R217's pseudocode and not its corner case (log 20); that results are taken modulo 2^64 acts only with
engines no run reaches (log 17). -/
def Obligations.TransformCommandResults : Prop :=
  ∀ (s : State) (ra : Reg) (logn : LogLen), s.modv = true → s.rootv = true → logn.toNat ≤ s.cfg.plog →
    InsidePmem s (s.x ra).toNat (2 ^ logn.toNat) →
    let base := (s.x ra).toNat
    let n := 2 ^ logn.toNat
    ∃ p t u, exec (.precomp logn) s = .next p ∧ exec (.fntt ra logn) s = .next t ∧ exec (.intt ra logn) s = .next u ∧
      OnlyPmemAndTables s t ∧ OnlyPmemAndTables s u ∧ PmemSameOutside s t base n ∧ PmemSameOutside s u base n ∧
      t.twf = p.twf ∧ t.twi = p.twi ∧ t.twcov = p.twcov ∧ u.twf = p.twf ∧ u.twi = p.twi ∧ u.twcov = p.twcov ∧
      (∀ j < n, (∃ w, peek t.pmem (base + j) = some w) ∧ ∃ w, peek u.pmem (base + j) = some w) ∧
      (ResidueBuffer s base n →
        loadRange t.pmem base n =
          (s.eng.fntt p.twf logn.toNat (loadRange s.pmem base n)).map (fun v => v % 2 ^ 64) ∧
        loadRange u.pmem base n =
          (s.eng.intt p.twi logn.toNat (loadRange s.pmem base n)).map (fun v => v % 2 ^ 64))

/-- PMUL with a root, a length that fits and two buffers inside PMEM: on buffers of valid residue words, apart,
overlapping or equal, its PMEM and tables are those of FNTT of A, FNTT of B, PHAD of A with B (run with its length
register, any but ra and rb, set to the length), INTT of A, one after the other; otherwise every word of both buffers is
some word; every other word of PMEM and everything else stays (45_ntt R220, R222). The invariant is the premise. -/
def Obligations.PmulIsFourSteps : Prop :=
  ∀ (s : State) (ra rb rc : Reg) (logn : LogLen), s.Inv → s.rootv = true → logn.toNat ≤ s.cfg.plog →
    InsidePmem s (s.x ra).toNat (2 ^ logn.toNat) → InsidePmem s (s.x rb).toNat (2 ^ logn.toNat) →
    let a := (s.x ra).toNat
    let b := (s.x rb).toNat
    let n := 2 ^ logn.toNat
    ∃ t, exec (.pmul ra rb logn) s = .next t ∧ OnlyPmemAndTables s t ∧
      (∀ c, (c < a ∨ a + n ≤ c) → (c < b ∨ b + n ≤ c) → peek t.pmem c = peek s.pmem c) ∧
      (∀ j < n, (∃ w, peek t.pmem (a + j) = some w) ∧ ∃ w, peek t.pmem (b + j) = some w) ∧
      (ResidueBuffer s a n → ResidueBuffer s b n → rc ≠ ra → rc ≠ rb →
        ∃ t1 t2 t3 t4, exec (.fntt ra logn) s = .next t1 ∧ exec (.fntt rb logn) t1 = .next t2 ∧
          exec (.phad ra rb rc) (t2.setX rc (BitVec.ofNat 64 n)) = .next t3 ∧ exec (.intt ra logn) t3 = .next t4 ∧ t.pmem = t4.pmem ∧
          t.twf = t4.twf ∧ t.twi = t4.twi ∧ t.twcov = t4.twcov)

/-- FNTT then INTT of the same buffer, and INTT then FNTT, restore every element's class, for a prime modulus and a root that is not of
class 0 (45_ntt R218, R221 property 1; it needs less than R210's preconditions). -/
def Obligations.TransformRoundTrip : Prop :=
  ∀ (s : State) (ra : Reg) (logn : LogLen), s.Inv → s.rootv = true → Nat.Prime s.eng.m.toNat →
    ¬ s.eng.m.toNat ∣ s.root.toNat → logn.toNat ≤ s.cfg.plog → InsidePmem s (s.x ra).toNat (2 ^ logn.toNat) →
    ResidueBuffer s (s.x ra).toNat (2 ^ logn.toNat) →
    (∃ t u, exec (.fntt ra logn) s = .next t ∧ exec (.intt ra logn) t = .next u ∧
      ∀ j < 2 ^ logn.toNat, u.classAt (s.x ra).toNat j = s.classAt (s.x ra).toNat j) ∧
      ∃ t u, exec (.intt ra logn) s = .next t ∧ exec (.fntt ra logn) t = .next u ∧
        ∀ j < 2 ^ logn.toNat, u.classAt (s.x ra).toNat j = s.classAt (s.x ra).toNat j

/-- FNTT evaluates the polynomial of the buffer's classes at the powers of ω_n = g^(-(m-1)/n), in bit-reversed order,
under 45_ntt R210 points 1 and 2 for a primitive root g, or any g for which g^((m-1)/n) has order n (45_ntt R211, R213,
R216). The other elements of R210 point 3, of an order divisible by n, are left out: the result does not hold of them
(log 23). The exponent of g is written as (m - 1) - (m - 1)/n, which is the same power. -/
def Obligations.ForwardTransformEvaluates : Prop :=
  ∀ (s : State) (ra : Reg) (logn : LogLen), s.Inv → s.rootv = true → logn.toNat ≤ s.cfg.plog →
    TransformPrecondition s.eng.m.toNat (2 ^ logn.toNat) s.root.toNat →
    InsidePmem s (s.x ra).toNat (2 ^ logn.toNat) → ResidueBuffer s (s.x ra).toNat (2 ^ logn.toNat) →
    let m := s.eng.m.toNat
    let n := 2 ^ logn.toNat
    ∃ t, exec (.fntt ra logn) s = .next t ∧ ∀ i < n, t.classAt (s.x ra).toNat i =
      (∑ j ∈ Finset.range n, s.classAt (s.x ra).toNat j *
        s.root.toNat ^ ((m - 1 - (m - 1) / n) * j * bitReverse logn.toNat i)) % m

/-- PMUL of two disjoint buffers of residue words is the cyclic convolution of their classes, under 45_ntt R210 points 1
and 2 for a primitive root g, or any g for which g^((m-1)/n) has order n (45_ntt R220 point 2, R221 property 2). The
other elements of R210 point 3, of an order divisible by n, are left out (log 23). What overlapping buffers give is
`PmulIsFourSteps`. -/
def Obligations.PmulIsCyclicConvolution : Prop :=
  ∀ (s : State) (ra rb : Reg) (logn : LogLen), s.Inv → s.rootv = true → logn.toNat ≤ s.cfg.plog →
    TransformPrecondition s.eng.m.toNat (2 ^ logn.toNat) s.root.toNat →
    InsidePmem s (s.x ra).toNat (2 ^ logn.toNat) → InsidePmem s (s.x rb).toNat (2 ^ logn.toNat) →
    ResidueBuffer s (s.x ra).toNat (2 ^ logn.toNat) → ResidueBuffer s (s.x rb).toNat (2 ^ logn.toNat) →
    ((s.x ra).toNat + 2 ^ logn.toNat ≤ (s.x rb).toNat ∨ (s.x rb).toNat + 2 ^ logn.toNat ≤ (s.x ra).toNat) →
    ∃ t, exec (.pmul ra rb logn) s = .next t ∧
      ∀ k < 2 ^ logn.toNat, t.classAt (s.x ra).toNat k =
        cyclicConvolution (2 ^ logn.toNat) (s.classAt (s.x ra).toNat) (s.classAt (s.x rb).toNat) k % s.eng.m.toNat

/-! ### Polynomial memory -/

/-- PLD and PST at an address inside PMEM, with or without an engine: the raw word is copied; a word never written
loads as some word; nothing else changes (46_poly_elementwise R240, R241). -/
def Obligations.ElementAccessResults : Prop :=
  ∀ (s : State) (rd ra rb : Reg), (s.x ra).toNat < 2 ^ s.cfg.plog →
    (∀ w, peek s.pmem (s.x ra).toNat = some w → WritesReg (.pld rd ra) s rd w) ∧
      (peek s.pmem (s.x ra).toNat = none → WritesSomeWord (.pld rd ra) s rd) ∧
      ∃ t, exec (.pst ra rb) s = .next t ∧ peek t.pmem (s.x ra).toNat = some (s.x rb) ∧
        PmemSameOutside s t (s.x ra).toNat 1 ∧
        t = { s with pmem := t.pmem, cmdcnt := s.cmdcnt + 1, cur := none, done := true }

/-- A word stored by PST is what PLD of the same address loads next (46_poly_elementwise R240, R241, 20_memory R72). -/
def Obligations.StoreThenLoadReturnsWord : Prop :=
  ∀ (s : State) (rd ra rb : Reg), (s.x ra).toNat < 2 ^ s.cfg.plog →
    ∃ t, exec (.pst ra rb) s = .next t ∧ WritesReg (.pld rd ra) t rd (s.x rb)

/-- PHAD, PVADD and PVSUB with an engine and both ranges inside PMEM, for every length (0 among them) and every overlap:
each element becomes the operation of the two residue words it meets, which are those an earlier element stored where
the operands overlap so; it is some word where one is no residue or is unspecified; nothing else changes
(46_poly_elementwise R242 to R244, R249, 93_implementation_defined U7). -/
def Obligations.VectorCommandsCombineElementwise : Prop :=
  ∀ (s : State) (ra rb rc : Reg), s.modv = true →
    InsidePmem s (s.x ra).toNat (s.x rc).toNat → InsidePmem s (s.x rb).toNat (s.x rc).toNat →
    VectorResult (.phad ra rb rc) s s.eng.mul (s.x ra).toNat (s.x rb).toNat (s.x rc).toNat ∧
      VectorResult (.pvadd ra rb rc) s s.eng.add (s.x ra).toNat (s.x rb).toNat (s.x rc).toNat ∧
      VectorResult (.pvsub ra rb rc) s s.eng.sub (s.x ra).toNat (s.x rb).toNat (s.x rc).toNat

/-- PSADD, PSSUB, PSMUL and PSDIV with an engine and the range inside PMEM, for every length (0 among them) and every
scalar: each element becomes the operation on it and the scalar, or some word where either is no residue; nothing else
changes (46_poly_elementwise R245 to R249). -/
def Obligations.ScalarCommandsCombineElementwise : Prop :=
  ∀ (s : State) (ra rb rc : Reg), s.modv = true → InsidePmem s (s.x ra).toNat (s.x rc).toNat →
    ScalarResult (.psadd ra rb rc) s s.eng.add (s.x ra).toNat (s.x rb) (s.x rc).toNat ∧
      ScalarResult (.pssub ra rb rc) s s.eng.sub (s.x ra).toNat (s.x rb) (s.x rc).toNat ∧
      ScalarResult (.psmul ra rb rc) s s.eng.mul (s.x ra).toNat (s.x rb) (s.x rc).toNat ∧
      ScalarResult (.psdiv ra rb rc) s (fun u v => s.eng.mul u (s.eng.inverse v)) (s.x ra).toNat (s.x rb)
        (s.x rc).toNat

/-! ### Whole-machine rules -/

/-- What a command can change, over all commands: the engine and MODV only SETMOD, the root registers and ROOTV only
SETMOD and SETROOT, MRACC only SETMOD and MRWIT, a general register only the command's rd, a PMEM word only inside the
command's operand ranges, and never OVR, IE, the parameters or the input stream (10_state R26, R30, R31, R21,
20_memory R62). -/
def Obligations.CommandsTouchOnlyTheirOwnState : Prop :=
  ∀ (i : Instr) (s t : State), exec i s = .next t →
    (t.eng ≠ s.eng ∨ t.modv ≠ s.modv → ∃ ra, i = .setmod ra) ∧
      (t.root ≠ s.root ∨ t.rootr ≠ s.rootr ∨ t.rootv ≠ s.rootv → ∃ ra, i = .setmod ra ∨ i = .setroot ra) ∧
      (t.mracc ≠ s.mracc → (∃ ra, i = .setmod ra) ∨ ∃ rd ra, i = .mrwit rd ra) ∧
      (∀ r, t.x r ≠ s.x r → destination i = some r) ∧
      (∀ a, peek t.pmem a ≠ peek s.pmem a → ∃ range ∈ pmemOperands i s, range.1 ≤ a ∧ a < range.1 + range.2) ∧
      (t.twf ≠ s.twf ∨ t.twi ≠ s.twi ∨ t.twcov ≠ s.twcov →
        (∃ ra, i = .setmod ra ∨ i = .setroot ra) ∨ (lognOf i).isSome) ∧
      t.ovr = s.ovr ∧ t.ovrAtAcceptance = s.ovrAtAcceptance ∧ t.ie = s.ie ∧ t.cfg = s.cfg ∧ t.inputs = s.inputs ∧
      t.rdata = s.rdata

/-- Within one (modulus, root) pair the tables only grow: no command but SETMOD and SETROOT rewrites a valid entry or
lowers TWCOV (10_state R32, R40, 45_ntt R212). The invariant is the premise. -/
def Obligations.ValidTwiddleEntriesAreNeverRewritten : Prop :=
  ∀ (i : Instr) (s t : State), s.Inv → exec i s = .next t → (∀ ra, i ≠ .setmod ra ∧ i ≠ .setroot ra) →
    s.twcov.toNat ≤ t.twcov.toNat ∧
      ∀ k, k < s.twcov.toNat / 2 → peek t.twf k = peek s.twf k ∧ peek t.twi k = peek s.twi k

/-- The invariant holds right after reset (10_state R49; the parameters there are the model's choice, log 1). -/
def Obligations.InvariantHoldsAtReset : Prop := State.reset.Inv

/-- Every step keeps the invariant: canonical memories inside their bounds, a lawful engine while MODV = 1 and zero
registers without one, lawful twiddle tables while ROOTV = 1, a consistent fault record and execution state (10_state
R26 to R41, 45_ntt R212, 60_exceptions R270). -/
def Obligations.InvariantKeptByEveryStep : Prop := ∀ s t : State, s.Inv → step s = .next t → t.Inv

/-! ### Reset and the host window -/

/-- Hardware reset and CTRL.SRST, idle, busy or faulted, whatever else the CTRL write says, leave the state of 10_state
R49, keep the parameters, and abandon a command in execution; State.reset is such a state, and CONFIG reads 0x10C40
there (70_reset_and_hazards R300). That the rest of the input stream stays is the model's choice (log 7). -/
def Obligations.ResetGivesTheResetTable : Prop :=
  ResetTable State.reset ∧ configWord State.reset = 0x10C40 ∧
    (∀ s : State, ∃ t, step { s with inputs := .hardwareReset :: s.inputs } = .next t ∧ ResetTable t ∧
      t.cfg = s.cfg ∧ t.inputs = s.inputs) ∧
    (∀ (s : State) (v : Word), s.cfg.ok = true → v.toNat / 16 % 2 = 1 → ∃ t, HostWriteGives s 0x0010 v t ∧
      ResetTable t ∧ t.cfg = s.cfg ∧ t.inputs = s.inputs)

/-- A CTRL write without SRST acts at once, busy or idle: IE takes bit 0, the pulses CLRERR, CLRDONE and CLROVR clear
their fields, writing 0 to a pulse does nothing, reserved bits are ignored; SRST wins; CTRL reads as IE alone (10_state
R34). -/
def Obligations.CtrlWriteActsAtOnce : Prop :=
  ∀ (s : State) (v : Word), s.cfg.ok = true →
    (v.toNat / 16 % 2 = 0 → HostWriteGives s 0x0010 v { s with
      ie := decide (v.toNat % 2 = 1)
      err := if v.toNat / 2 % 2 = 1 then false else s.err
      errcode := if v.toNat / 2 % 2 = 1 then 0 else s.errcode
      errcmd := if v.toNat / 2 % 2 = 1 then 0 else s.errcmd
      done := if v.toNat / 4 % 2 = 1 then false else s.done
      ovr := if v.toNat / 8 % 2 = 1 then false else s.ovr }) ∧
      (v.toNat / 16 % 2 = 1 → ∃ t, HostWriteGives s 0x0010 v t ∧ ResetTable t) ∧
      HostReadReturns s 0x0010 (BitVec.ofNat 64 s.ie.toNat) ∧ State.reset.ie = false

/-- The fault state is left by CLRERR: after a command faults, a CMD write is dropped; after CTRL.CLRERR the record is
clear, DONE is as it was, and a CMD write is accepted (60_exceptions R272 to R274). That the accepted write keeps all 64
bits in CUR and latches OVR is the model's reading (log 4). -/
def Obligations.FaultIsLeftByClrerr : Prop :=
  ∀ (i : Instr) (s t : State) (code : BitVec 8) (v : Word), s.cfg.ok = true → Reports i s code → exec i s = .next t →
    HostWriteGives t 0x0000 v { t with ovr := true } ∧
      ∃ u, HostWriteGives t 0x0010 (BitVec.ofNat 64 (s.ie.toNat + 2)) u ∧ u.err = false ∧ u.errcode = 0 ∧
        u.errcmd = 0 ∧ u.done = true ∧ (∀ r, u.x r = s.x r) ∧
        HostWriteGives u 0x0000 v { u with done := false, cur := some v, ovrAtAcceptance := u.ovr }

/-- Host writes reach exactly their object: X and PMEM while idle, dropped with OVR while busy; a write to a read-only
object or an unmapped offset is ignored, without OVR, at any time (20_memory R64, R67 to R69). -/
def Obligations.HostWritesReachOnlyTheirObject : Prop :=
  ∀ (s : State) (v : Word), s.cfg.ok = true →
    (∀ r : Reg, s.cur = none → ∃ t, HostWriteGives s (0x0100 + 8 * r.toNat) v t ∧ t.x r = v ∧
      (∀ r', r' ≠ r → t.x r' = s.x r') ∧ t = { s with regs := t.regs }) ∧
      (∀ a, a < 2 ^ s.cfg.plog → s.cur = none → ∃ t, HostWriteGives s (0x01000000 + 8 * a) v t ∧
        peek t.pmem a = some v ∧ PmemSameOutside s t a 1 ∧ t = { s with pmem := t.pmem }) ∧
      (∀ r : Reg, s.cur.isSome = true → HostWriteGives s (0x0100 + 8 * r.toNat) v { s with ovr := true }) ∧
      (∀ a, a < 2 ^ s.cfg.plog → s.cur.isSome = true →
        HostWriteGives s (0x01000000 + 8 * a) v { s with ovr := true }) ∧
      (∀ offset, offset % 8 = 0 → offset ≠ 0x0000 → offset ≠ 0x0010 → ¬ (0x0100 ≤ offset ∧ offset < 0x0180) →
        ¬ (0x01000000 ≤ offset ∧ offset < 0x01000000 + 8 * 2 ^ s.cfg.plog) → HostWriteGives s offset v s)

/-- Host reads return their object and change nothing: STATUS, CTRL, CMDCNT and CONFIG at any time; the other registers,
X, written PMEM words and valid table entries while idle; CMD and unmapped offsets 0; anything unspecified some word
(20_memory R64, R67 to R69, 10_state R32, R33, R36, R37). -/
def Obligations.HostReadsReturnTheirObject : Prop :=
  ∀ s : State, s.cfg.ok = true →
    HostReadReturns s 0x0000 0 ∧
      HostReadReturns s 0x0008 (BitVec.ofNat 64 (statusNumber s s.cur.isSome.toNat s.done.toNat s.ovr.toNat)) ∧
      HostReadReturns s 0x0010 (BitVec.ofNat 64 s.ie.toNat) ∧ HostReadReturns s 0x0018 s.cmdcnt ∧
      HostReadReturns s 0x0060 (BitVec.ofNat 64 (configNumber s)) ∧
      (∀ offset, offset % 8 = 0 → 0x0060 < offset → ¬ (0x0100 ≤ offset ∧ offset < 0x0180) →
        ¬ (0x01000000 ≤ offset ∧ offset < 0x01000000 + 8 * 2 ^ s.cfg.plog) →
        ¬ (0x02000000 ≤ offset ∧ offset < 0x02000000 + 8 * 2 ^ (s.cfg.plog - 1)) →
        ¬ (0x03000000 ≤ offset ∧ offset < 0x03000000 + 8 * 2 ^ (s.cfg.plog - 1)) → HostReadReturns s offset 0) ∧
      (s.cur = none →
        HostReadReturns s 0x0020 s.eng.m ∧ HostReadReturns s 0x0028 s.eng.m2 ∧
          HostReadReturns s 0x0030 s.eng.mprime ∧ HostReadReturns s 0x0038 s.eng.one ∧
          HostReadReturns s 0x0040 s.eng.rsq ∧ HostReadReturns s 0x0048 s.root ∧
          HostReadReturns s 0x0050 s.rootr ∧ HostReadReturns s 0x0058 s.twcov ∧
          (∀ r : Reg, HostReadReturns s (0x0100 + 8 * r.toNat) (s.x r)) ∧
          (∀ a w, a < 2 ^ s.cfg.plog → peek s.pmem a = some w → HostReadReturns s (0x01000000 + 8 * a) w) ∧
          (∀ a, a < 2 ^ s.cfg.plog → peek s.pmem a = none → HostReadReturnsSomething s (0x01000000 + 8 * a)) ∧
          (∀ k w, k < 2 ^ (s.cfg.plog - 1) → k < s.twcov.toNat / 2 → peek s.twf k = some w →
            HostReadReturns s (0x02000000 + 8 * k) w) ∧
          (∀ k w, k < 2 ^ (s.cfg.plog - 1) → k < s.twcov.toNat / 2 → peek s.twi k = some w →
            HostReadReturns s (0x03000000 + 8 * k) w)) ∧
      (∀ k, k < 2 ^ (s.cfg.plog - 1) → s.twcov.toNat / 2 ≤ k →
        HostReadReturnsSomething s (0x02000000 + 8 * k) ∧ HostReadReturnsSomething s (0x03000000 + 8 * k)) ∧
      (s.cur.isSome = true →
        (∀ j < 8, HostReadReturnsSomething s (0x0020 + 8 * j)) ∧
          (∀ r : Reg, HostReadReturnsSomething s (0x0100 + 8 * r.toNat)) ∧
          (∀ a, a < 2 ^ s.cfg.plog → HostReadReturnsSomething s (0x01000000 + 8 * a)) ∧
          (∀ k, k < 2 ^ (s.cfg.plog - 1) → HostReadReturnsSomething s (0x02000000 + 8 * k) ∧
            HostReadReturnsSomething s (0x03000000 + 8 * k)))

/-- No host write but a soft reset reaches the engine constants, the root registers, the coverage, the tables, the flags
or the count: they are read-only to the host (10_state R26, R30 to R32, R40, 20_memory R69). -/
def Obligations.ReadOnlyStateIsOutOfTheHostsReach : Prop :=
  ∀ (s t : State) (offset width : Nat) (v : Word), ¬ (offset = 0x0010 ∧ v.toNat / 16 % 2 = 1) →
    step { s with inputs := .hostWrite offset width v :: s.inputs } = .next t →
    t.eng = s.eng ∧ t.root = s.root ∧ t.rootr = s.rootr ∧ t.twcov = s.twcov ∧ t.twf = s.twf ∧ t.twi = s.twi ∧
      t.modv = s.modv ∧ t.rootv = s.rootv ∧ t.mracc = s.mracc ∧ t.cmdcnt = s.cmdcnt ∧ t.cfg = s.cfg

/-- A host access that is not an aligned 64-bit access is refused, read or write, and the only refusals of a step are
those: "a model gives it no step (it refuses it)" (20_memory R65). -/
def Obligations.MisalignedHostAccessIsRefused : Prop :=
  ∀ (s : State) (offset width : Nat) (v : Word),
    ((width ≠ 8 ∨ offset % 8 ≠ 0) →
      step { s with inputs := .hostWrite offset width v :: s.inputs } = .refused .hostAccessForm ∧
        step { s with inputs := .hostRead offset width :: s.inputs } = .refused .hostAccessForm) ∧
      (∀ r, step s = .refused r → ∃ offset width v rest, (width ≠ 8 ∨ offset % 8 ≠ 0) ∧
        (s.inputs = .hostWrite offset width v :: rest ∨ s.inputs = .hostRead offset width :: rest))

/-- The interrupt line is IE and (DONE or ERR): with IE = 1 every completion, faulting or not, raises it; a CTRL write
of IE, CLRERR and CLRDONE lowers it; it is low after reset (60_exceptions R275, 10_state R47). -/
def Obligations.InterruptLineFollowsDoneAndErr : Prop :=
  (∀ s : State, irq s = true ↔ s.ie = true ∧ (s.done = true ∨ s.err = true)) ∧ irq State.reset = false ∧
    (∀ (i : Instr) (s t : State), exec i s = .next t → irq t = s.ie) ∧
    (∀ s : State, s.cfg.ok = true → ∃ t, HostWriteGives s 0x0010 7 t ∧ irq t = false ∧ t.ie = true)

/-- CONFIG is the constant of PLOG: W = 64, PLOG, VERSION = 1, read the same by a command and by the host, 0x10C40 at
PLOG = 12, and no step changes it (10_state R36). -/
def Obligations.ConfigIsAConstant : Prop :=
  (∀ (s : State) (rd : Reg), s.cfg.ok = true →
      WritesReg (.rdc rd 10) s rd (BitVec.ofNat 64 (64 + 256 * s.cfg.plog + 65536)) ∧
        HostReadReturns s 0x0060 (BitVec.ofNat 64 (64 + 256 * s.cfg.plog + 65536)) ∧
        (∀ v, HostWriteGives s 0x0060 v s) ∧ (s.cfg.plog = 12 → configWord s = 0x10C40)) ∧
    (∀ s t : State, step s = .next t → t.cfg = s.cfg ∧ configWord t = configWord s)
end

