-- ==== Sys2Proof/Laws/Encoding.lean ====
section
/-! SUPPORT. What each field of an encoded command word reads as, format by format (30_encoding R81 to R84). -/

-- One declaration at a time: as one text the package has too many theorems for a thread each within the memory limit.
set_option Elab.async false

namespace Sys2Proof

/-! ### Format R -/

@[simp] theorem fieldOp_encodeR (op : BitVec 8) (rd ra rb rc : Reg) :
    fieldOp (encodeR op rd ra rb rc) = op := by
  apply BitVec.eq_of_getLsbD_eq; intro i hi
  simp only [fieldOp, encodeR, BitVec.getLsbD_extractLsb', BitVec.getLsbD_append]
  interval_cases i <;> simp

@[simp] theorem fieldRd_encodeR (op : BitVec 8) (rd ra rb rc : Reg) :
    fieldRd (encodeR op rd ra rb rc) = rd := by
  apply BitVec.eq_of_getLsbD_eq; intro i hi
  simp only [fieldRd, encodeR, BitVec.getLsbD_extractLsb', BitVec.getLsbD_append]
  interval_cases i <;> simp

@[simp] theorem fieldRa_encodeR (op : BitVec 8) (rd ra rb rc : Reg) :
    fieldRa (encodeR op rd ra rb rc) = ra := by
  apply BitVec.eq_of_getLsbD_eq; intro i hi
  simp only [fieldRa, encodeR, BitVec.getLsbD_extractLsb', BitVec.getLsbD_append]
  interval_cases i <;> simp

@[simp] theorem fieldRb_encodeR (op : BitVec 8) (rd ra rb rc : Reg) :
    fieldRb (encodeR op rd ra rb rc) = rb := by
  apply BitVec.eq_of_getLsbD_eq; intro i hi
  simp only [fieldRb, encodeR, BitVec.getLsbD_extractLsb', BitVec.getLsbD_append]
  interval_cases i <;> simp

@[simp] theorem fieldRc_encodeR (op : BitVec 8) (rd ra rb rc : Reg) :
    fieldRc (encodeR op rd ra rb rc) = rc := by
  apply BitVec.eq_of_getLsbD_eq; intro i hi
  simp only [fieldRc, encodeR, BitVec.getLsbD_extractLsb', BitVec.getLsbD_append]
  interval_cases i <;> simp

@[simp] theorem fieldLow8_encodeR (op : BitVec 8) (rd ra rb rc : Reg) :
    fieldLow8 (encodeR op rd ra rb rc) = 0#8 := by
  apply BitVec.eq_of_getLsbD_eq; intro i hi
  simp only [fieldLow8, encodeR, BitVec.getLsbD_extractLsb', BitVec.getLsbD_append]
  interval_cases i <;> simp

/-! ### Format I -/

@[simp] theorem fieldOp_encodeI (op : BitVec 8) (rd : Reg) (imm16 : BitVec 16) :
    fieldOp (encodeI op rd imm16) = op := by
  apply BitVec.eq_of_getLsbD_eq; intro i hi
  simp only [fieldOp, encodeI, BitVec.getLsbD_extractLsb', BitVec.getLsbD_append]
  interval_cases i <;> simp

@[simp] theorem fieldRd_encodeI (op : BitVec 8) (rd : Reg) (imm16 : BitVec 16) :
    fieldRd (encodeI op rd imm16) = rd := by
  apply BitVec.eq_of_getLsbD_eq; intro i hi
  simp only [fieldRd, encodeI, BitVec.getLsbD_extractLsb', BitVec.getLsbD_append]
  interval_cases i <;> simp

@[simp] theorem fieldRa_encodeI (op : BitVec 8) (rd : Reg) (imm16 : BitVec 16) :
    fieldRa (encodeI op rd imm16) = 0#4 := by
  apply BitVec.eq_of_getLsbD_eq; intro i hi
  simp only [fieldRa, encodeI, BitVec.getLsbD_extractLsb', BitVec.getLsbD_append]
  interval_cases i <;> simp

@[simp] theorem fieldImm16_encodeI (op : BitVec 8) (rd : Reg) (imm16 : BitVec 16) :
    fieldImm16 (encodeI op rd imm16) = imm16 := by
  apply BitVec.eq_of_getLsbD_eq; intro i hi
  simp only [fieldImm16, encodeI, BitVec.getLsbD_extractLsb', BitVec.getLsbD_append]
  interval_cases i <;> simp

/-! ### Format C -/

@[simp] theorem fieldOp_encodeC (op : BitVec 8) (rd : Reg) (creg : CregNum) :
    fieldOp (encodeC op rd creg) = op := by
  apply BitVec.eq_of_getLsbD_eq; intro i hi
  simp only [fieldOp, encodeC, BitVec.getLsbD_extractLsb', BitVec.getLsbD_append]
  interval_cases i <;> simp

@[simp] theorem fieldRd_encodeC (op : BitVec 8) (rd : Reg) (creg : CregNum) :
    fieldRd (encodeC op rd creg) = rd := by
  apply BitVec.eq_of_getLsbD_eq; intro i hi
  simp only [fieldRd, encodeC, BitVec.getLsbD_extractLsb', BitVec.getLsbD_append]
  interval_cases i <;> simp

@[simp] theorem fieldZ12_encodeC (op : BitVec 8) (rd : Reg) (creg : CregNum) :
    fieldZ12 (encodeC op rd creg) = 0#12 := by
  apply BitVec.eq_of_getLsbD_eq; intro i hi
  simp only [fieldZ12, encodeC, BitVec.getLsbD_extractLsb', BitVec.getLsbD_append]
  interval_cases i <;> simp

@[simp] theorem fieldLow8_encodeC (op : BitVec 8) (rd : Reg) (creg : CregNum) :
    fieldLow8 (encodeC op rd creg) = creg := by
  apply BitVec.eq_of_getLsbD_eq; intro i hi
  simp only [fieldLow8, encodeC, BitVec.getLsbD_extractLsb', BitVec.getLsbD_append]
  interval_cases i <;> simp

/-! ### Format N -/

@[simp] theorem fieldOp_encodeN (op : BitVec 8) (ra rb : Reg) (logn : LogLen) :
    fieldOp (encodeN op ra rb logn) = op := by
  apply BitVec.eq_of_getLsbD_eq; intro i hi
  simp only [fieldOp, encodeN, BitVec.getLsbD_extractLsb', BitVec.getLsbD_append]
  interval_cases i <;> simp

@[simp] theorem fieldRd_encodeN (op : BitVec 8) (ra rb : Reg) (logn : LogLen) :
    fieldRd (encodeN op ra rb logn) = 0#4 := by
  apply BitVec.eq_of_getLsbD_eq; intro i hi
  simp only [fieldRd, encodeN, BitVec.getLsbD_extractLsb', BitVec.getLsbD_append]
  interval_cases i <;> simp

@[simp] theorem fieldRa_encodeN (op : BitVec 8) (ra rb : Reg) (logn : LogLen) :
    fieldRa (encodeN op ra rb logn) = ra := by
  apply BitVec.eq_of_getLsbD_eq; intro i hi
  simp only [fieldRa, encodeN, BitVec.getLsbD_extractLsb', BitVec.getLsbD_append]
  interval_cases i <;> simp

@[simp] theorem fieldRb_encodeN (op : BitVec 8) (ra rb : Reg) (logn : LogLen) :
    fieldRb (encodeN op ra rb logn) = rb := by
  apply BitVec.eq_of_getLsbD_eq; intro i hi
  simp only [fieldRb, encodeN, BitVec.getLsbD_extractLsb', BitVec.getLsbD_append]
  interval_cases i <;> simp

@[simp] theorem fieldZ6_encodeN (op : BitVec 8) (ra rb : Reg) (logn : LogLen) :
    fieldZ6 (encodeN op ra rb logn) = 0#6 := by
  apply BitVec.eq_of_getLsbD_eq; intro i hi
  simp only [fieldZ6, encodeN, BitVec.getLsbD_extractLsb', BitVec.getLsbD_append]
  interval_cases i <;> simp

@[simp] theorem fieldLogn_encodeN (op : BitVec 8) (ra rb : Reg) (logn : LogLen) :
    fieldLogn (encodeN op ra rb logn) = logn := by
  apply BitVec.eq_of_getLsbD_eq; intro i hi
  simp only [fieldLogn, encodeN, BitVec.getLsbD_extractLsb', BitVec.getLsbD_append]
  interval_cases i <;> simp

/-! ### The 64-bit CMD value -/

@[simp] theorem high_encodeCmd (i : Instr) : (encodeCmd i).extractLsb' 32 32 = 0#32 := by
  apply BitVec.eq_of_getLsbD_eq; intro j hj
  simp only [encodeCmd, BitVec.getLsbD_extractLsb', BitVec.getLsbD_append]
  simp

@[simp] theorem low_encodeCmd (i : Instr) : (encodeCmd i).extractLsb' 0 32 = encode i := by
  apply BitVec.eq_of_getLsbD_eq; intro j hj
  simp only [encodeCmd, BitVec.getLsbD_extractLsb', BitVec.getLsbD_append]
  simp [hj]

/-- The CMD value of a command is decoded as its command word is. -/
theorem decodeCmd_encodeCmd (i : Instr) : decodeCmd (encodeCmd i) = decode (encode i) := by
  simp [decodeCmd]

end Sys2Proof
end

