-- ==== Sys2Proof/Laws/Memory.lean ====
section
/-! SUPPORT. The laws of the word-addressed memories: read after write, the frame of a write, and that every memory
operation keeps the canonical form. -/

-- One declaration at a time: as one text the package has too many theorems for a thread each within the memory limit.
set_option Elab.async false

namespace Sys2Proof.Machine

/-! ### One word -/

@[simp] theorem peek_nil (a : Nat) : peek [] a = none := rfl

theorem peek_cons (k : Nat) (w : Word) (rest : WordMem) (a : Nat) :
    peek ((k, w) :: rest) a = if k = a then some w else peek rest a := rfl

/-- A read at the written address gives the written word (20_memory R62, R72). -/
@[simp] theorem peek_poke_same (mem : WordMem) (a : Nat) (v : Word) : peek (poke mem a v) a = some v := by
  induction mem with
  | nil => simp [poke, peek]
  | cons p rest ih =>
    obtain ⟨k, w⟩ := p
    simp only [poke]
    split
    · simp [peek]
    · split
      · simp [peek]
      · next h1 h2 => simp [peek, h2, ih]

/-- A write leaves every other address alone (20_memory R62). -/
theorem peek_poke_other (mem : WordMem) {a b : Nat} (v : Word) (h : b ≠ a) : peek (poke mem a v) b = peek mem b := by
  induction mem with
  | nil => simp [poke, peek, Ne.symm h]
  | cons p rest ih =>
    obtain ⟨k, w⟩ := p
    simp only [poke]
    split
    · simp [peek, Ne.symm h]
    · split
      · next h1 h2 => subst h2; simp [peek, Ne.symm h]
      · simp [peek, ih]

/-- Both cases of a read after a write. -/
theorem peek_poke (mem : WordMem) (a b : Nat) (v : Word) :
    peek (poke mem a v) b = if b = a then some v else peek mem b := by
  split
  · next h => subst h; simp
  · next h => exact peek_poke_other mem v h

/-- The addresses listed after a write are the written one and those listed before. -/
theorem mem_poke {mem : WordMem} {a : Nat} {v : Word} {p : Nat × Word} (h : p ∈ poke mem a v) :
    p = (a, v) ∨ p ∈ mem := by
  induction mem with
  | nil => simpa [poke] using h
  | cons q rest ih =>
    obtain ⟨k, w⟩ := q
    simp only [poke] at h
    split at h
    · simpa using h
    · split at h
      · rcases List.mem_cons.1 h with h | h
        · exact .inl h
        · exact .inr (List.mem_cons_of_mem _ h)
      · rcases List.mem_cons.1 h with h | h
        · exact .inr (by simp [h])
        · rcases ih h with h | h
          · exact .inl h
          · exact .inr (List.mem_cons_of_mem _ h)

/-- A write keeps the canonical form. -/
theorem poke_wf {mem : WordMem} (h : mem.wf) (a : Nat) (v : Word) : (poke mem a v).wf := by
  induction mem with
  | nil => simp [poke, WordMem.wf]
  | cons q rest ih =>
    obtain ⟨k, w⟩ := q
    obtain ⟨hk, hrest⟩ := List.pairwise_cons.1 h
    simp only [poke]
    split
    · next hak =>
      refine List.pairwise_cons.2 ⟨?_, h⟩
      intro p hp
      rcases List.mem_cons.1 hp with rfl | hp
      · exact hak
      · exact lt_trans hak (hk p hp)
    · split
      · next hak =>
        subst hak
        exact List.pairwise_cons.2 ⟨fun p hp => hk p hp, hrest⟩
      · next h1 h2 =>
        refine List.pairwise_cons.2 ⟨?_, ih hrest⟩
        intro p hp
        rcases mem_poke hp with rfl | hp
        · change k < a; omega
        · exact hk p hp

/-- A write inside a bound keeps every listed address inside it. -/
theorem poke_inside {mem : WordMem} {bound : Nat} (h : ∀ p ∈ mem, p.1 < bound) {a : Nat} (ha : a < bound) (v : Word) :
    ∀ p ∈ poke mem a v, p.1 < bound := by
  intro p hp
  rcases mem_poke hp with rfl | hp
  · exact ha
  · exact h p hp

/-- In a canonical memory a listed word is what a read of its address gives. -/
theorem peek_of_mem {mem : WordMem} (h : mem.wf) {a : Nat} {w : Word} (hm : (a, w) ∈ mem) : peek mem a = some w := by
  induction mem with
  | nil => simp at hm
  | cons q rest ih =>
    obtain ⟨k, u⟩ := q
    obtain ⟨hk, hrest⟩ := List.pairwise_cons.1 h
    rcases List.mem_cons.1 hm with heq | hm
    · cases heq; simp [peek]
    · have : k ≠ a := Nat.ne_of_lt (hk _ hm)
      simp [peek, this, ih hrest hm]

/-- A word that is read is listed. -/
theorem mem_of_peek {mem : WordMem} {a : Nat} {w : Word} (h : peek mem a = some w) : (a, w) ∈ mem := by
  induction mem with
  | nil => simp at h
  | cons q rest ih =>
    obtain ⟨k, u⟩ := q
    rw [peek_cons] at h
    split at h
    · next hk => cases h; subst hk; simp
    · exact List.mem_cons_of_mem _ (ih h)

/-- The total read of a word that is there. -/
theorem wordAt_of_peek {mem : WordMem} {a : Nat} {w : Word} (h : peek mem a = some w) : wordAt mem a = w.toNat := by
  simp [wordAt, h]

theorem wordAt_lt (mem : WordMem) (a : Nat) : wordAt mem a < 2 ^ 64 := BitVec.isLt _

@[simp] theorem wordAt_poke_same (mem : WordMem) (a : Nat) (v : Word) : wordAt (poke mem a v) a = v.toNat := by
  simp [wordAt]

theorem wordAt_poke_other (mem : WordMem) {a b : Nat} (v : Word) (h : b ≠ a) :
    wordAt (poke mem a v) b = wordAt mem b := by
  simp [wordAt, peek_poke_other mem v h]

/-! ### Ranges -/

@[simp] theorem length_loadRange (mem : WordMem) (a n : Nat) : (loadRange mem a n).length = n := by simp [loadRange]

theorem getElem_loadRange (mem : WordMem) (a n j : Nat) (h : j < (loadRange mem a n).length) :
    (loadRange mem a n)[j] = wordAt mem (a + j) := by simp [loadRange]

@[simp] theorem length_freeWords (d n : Nat) : (freeWords d n).length = n := by simp [freeWords]

/-- A range store writes its j-th word at a + j and leaves every other address alone (20_memory R62). -/
theorem peek_storeRange (vs : List Word) : ∀ (mem : WordMem) (a b : Nat),
    peek (storeRange mem a vs) b = if h : a ≤ b ∧ b - a < vs.length then some vs[b - a] else peek mem b := by
  induction vs with
  | nil => intro mem a b; simp [storeRange]
  | cons v vs ih =>
    intro mem a b
    rw [storeRange, ih]
    by_cases h : a + 1 ≤ b ∧ b - (a + 1) < vs.length
    · have h' : a ≤ b ∧ b - a < (v :: vs).length := by simp only [List.length_cons]; omega
      rw [dif_pos h, dif_pos h']
      have : b - a = (b - (a + 1)) + 1 := by omega
      simp [this]
    · rw [dif_neg h, peek_poke]
      by_cases hb : b = a
      · subst hb; simp
      · have h' : ¬ (a ≤ b ∧ b - a < (v :: vs).length) := by simp only [List.length_cons]; omega
        rw [if_neg hb, dif_neg h']

theorem peek_storeRange_inside (mem : WordMem) (a j : Nat) (vs : List Word) (h : j < vs.length) :
    peek (storeRange mem a vs) (a + j) = some vs[j] := by
  rw [peek_storeRange, dif_pos (by omega)]
  simp

theorem peek_storeRange_outside (mem : WordMem) (a b : Nat) (vs : List Word) (h : b < a ∨ a + vs.length ≤ b) :
    peek (storeRange mem a vs) b = peek mem b := by
  rw [peek_storeRange, dif_neg (by omega)]

/-- A range store keeps the canonical form. -/
theorem storeRange_wf (vs : List Word) : ∀ {mem : WordMem}, mem.wf → ∀ a, (storeRange mem a vs).wf := by
  induction vs with
  | nil => intro mem h a; exact h
  | cons v vs ih => intro mem h a; exact ih (poke_wf h a v) (a + 1)

/-- A range store inside a bound keeps every listed address inside it. -/
theorem storeRange_inside {bound : Nat} (vs : List Word) : ∀ {mem : WordMem}, (∀ p ∈ mem, p.1 < bound) →
    ∀ a, (vs = [] ∨ a + vs.length ≤ bound) → ∀ p ∈ storeRange mem a vs, p.1 < bound := by
  induction vs with
  | nil => intro mem h a _; exact h
  | cons v vs ih =>
    intro mem h a ha
    simp only [List.length_cons, reduceCtorEq, false_or] at ha
    refine ih (poke_inside h (by omega) v) (a + 1) ?_
    cases vs with
    | nil => exact .inl rfl
    | cons _ _ => right; simp only [List.length_cons] at ha ⊢; omega

theorem peek_storeNats_inside (mem : WordMem) (a j : Nat) (vs : List Nat) (h : j < vs.length) :
    peek (storeNats mem a vs) (a + j) = some (BitVec.ofNat 64 vs[j]) := by
  rw [storeNats, peek_storeRange_inside _ _ _ _ (by simpa using h)]
  simp

theorem peek_storeNats_outside (mem : WordMem) (a b : Nat) (vs : List Nat) (h : b < a ∨ a + vs.length ≤ b) :
    peek (storeNats mem a vs) b = peek mem b :=
  peek_storeRange_outside _ _ _ _ (by simpa using h)

theorem storeNats_wf {mem : WordMem} (h : mem.wf) (a : Nat) (vs : List Nat) : (storeNats mem a vs).wf :=
  storeRange_wf _ h a

theorem storeNats_inside {mem : WordMem} {bound : Nat} (h : ∀ p ∈ mem, p.1 < bound) (a : Nat) (vs : List Nat)
    (ha : vs = [] ∨ a + vs.length ≤ bound) : ∀ p ∈ storeNats mem a vs, p.1 < bound :=
  storeRange_inside _ h a (by simpa using ha)

/-- The memories of the machine right after reset are canonical: they list nothing. -/
theorem reset_memories_wf : State.reset.pmem.wf ∧ State.reset.twf.wf ∧ State.reset.twi.wf :=
  ⟨List.Pairwise.nil, List.Pairwise.nil, List.Pairwise.nil⟩

end Sys2Proof.Machine
end

