-- ==== Sys2Proof/Laws/MillerRabin.lean ====
section
/-! SUPPORT. A witness ROM that certifies (44_miller_rabin R182), so that the statements about certifying ROMs speak of
something: its sets hold every base up to the square root of the candidates they serve. -/

-- One declaration at a time: as one text the package has too many theorems for a thread each within the memory limit.
set_option Elab.async false

namespace Sys2Proof.Machine

/-- The terms of 44_miller_rabin R185 in closed form. -/
theorem witnessTerm_eq (n b c j : Nat) : witnessTerm n b c j = b ^ (c * 2 ^ j) % n := by
  induction j with
  | zero => simp [witnessTerm, ← Nat.pow_mod]
  | succ j ih => rw [witnessTerm, ih, ← Nat.pow_mod, ← pow_mul, mul_assoc, pow_succ]

/-- In a field, a term sequence that ends in 1 starts with 1 or passes through -1. -/
theorem one_or_neg_one {K : Type} [Field K] (x : K) (c : Nat) :
    ∀ j, x ^ (c * 2 ^ j) = 1 → x ^ c = 1 ∨ ∃ i < j, x ^ (c * 2 ^ i) = -1 := by
  intro j
  induction j with
  | zero => intro h; left; simpa using h
  | succ j ih =>
    intro h
    have hsq : x ^ (c * 2 ^ j) * x ^ (c * 2 ^ j) = 1 := by rw [← h, pow_succ]; ring
    rcases mul_self_eq_one_iff.1 hsq with h1 | h1
    · rcases ih h1 with h2 | ⟨i, hi, h2⟩
      · exact .inl h2
      · exact .inr ⟨i, by omega, h2⟩
    · exact .inr ⟨j, by omega, h1⟩

/-- A prime passes for every base it does not divide. -/
theorem prime_passes {n b : Nat} (hn : n.Prime) (h2 : n ≠ 2) (hb : ¬ n ∣ b) : WitnessPass n b := by
  have : Fact n.Prime := ⟨hn⟩
  have hodd : n % 2 = 1 := hn.eq_two_or_odd.resolve_left h2
  have hn2 := hn.two_le
  obtain ⟨s, c, hc, hsc⟩ := Nat.exists_eq_two_pow_mul_odd (n := n - 1) (by omega)
  have hx : (b : ZMod n) ≠ 0 := fun h => hb ((ZMod.natCast_eq_zero_iff b n).1 h)
  have hfermat : (b : ZMod n) ^ (c * 2 ^ s) = 1 := by
    rw [mul_comm, ← hsc]
    exact ZMod.pow_card_sub_one_eq_one hx
  refine ⟨s, c, hsc, Nat.odd_iff.1 hc, ?_⟩
  rcases one_or_neg_one _ c s hfermat with h | ⟨i, hi, h⟩
  · left
    rw [witnessTerm_eq, pow_zero, mul_one]
    have : ((b ^ c : Nat) : ZMod n) = ((1 : Nat) : ZMod n) := by simpa using h
    rw [(ZMod.natCast_eq_natCast_iff' _ _ _).1 this, Nat.mod_eq_of_lt (by omega)]
  · right
    refine ⟨i, hi, ?_⟩
    rw [witnessTerm_eq]
    have : ((b ^ (c * 2 ^ i) : Nat) : ZMod n) = ((n - 1 : Nat) : ZMod n) := by
      rw [Nat.cast_sub (by omega)]
      simpa using h
    rw [(ZMod.natCast_eq_natCast_iff' _ _ _).1 this, Nat.mod_eq_of_lt (by omega)]

/-- A base that shares a factor with the candidate fails. -/
theorem common_factor_fails {n b p : Nat} (hn : 3 ≤ n) (hp : 2 ≤ p) (hpn : p ∣ n) (hpb : p ∣ b) : ¬ WitnessPass n b := by
  rintro ⟨s, c, hsc, hc, h⟩
  have hdvd : ∀ j, p ∣ witnessTerm n b c j := by
    intro j
    rw [witnessTerm_eq]
    have hpos : c * 2 ^ j ≠ 0 := Nat.mul_ne_zero (by omega) (by positivity)
    exact (Nat.dvd_mod_iff hpn).2 (dvd_pow hpb hpos)
  rcases h with h | ⟨j, _, h⟩
  · have h1 := Nat.le_of_dvd one_pos (h ▸ hdvd 0)
    omega
  · have h1 : p ∣ n - 1 := h ▸ hdvd j
    have h2 : p ∣ 1 := by
      have h3 := Nat.dvd_sub hpn h1
      rwa [show n - (n - 1) = 1 by omega] at h3
    have h4 := Nat.le_of_dvd one_pos h2
    omega

/-! ### The ROM -/

/-- What the shape of 44_miller_rabin R181 says of the trial lists: they hold distinct primes above 7. -/
theorem trial_of_shapeOk {rom : WitnessRom} (h : rom.shapeOk = true) {qs : List Nat} (hqs : qs ∈ rom.trial.toList) :
    qs.Nodup ∧ ∀ q ∈ qs, 7 < q ∧ q < radix ∧ q.Prime := by
  simp only [WitnessRom.shapeOk, Bool.and_eq_true, List.all_eq_true, decide_eq_true_eq] at h
  exact ⟨(h.2 qs hqs).1, fun q hq => ⟨((h.2 qs hqs).2 q hq).1.1, ((h.2 qs hqs).2 q hq).1.2, ((h.2 qs hqs).2 q hq).2⟩⟩

/-- What the shape of 44_miller_rabin R181 says of the witness sets: they hold bases from 2 up, and SET[6] is a largest
one (log 22). -/
theorem set_of_shapeOk {rom : WitnessRom} (h : rom.shapeOk = true) {bases : List Nat} (hb : bases ∈ rom.set.toList) :
    bases ≠ [] ∧ (∀ b ∈ bases, 2 ≤ b ∧ b < radix) ∧ bases.length ≤ (rom.set.get 6).length := by
  simp only [WitnessRom.shapeOk, Bool.and_eq_true, List.all_eq_true, decide_eq_true_eq, Bool.not_eq_true',
    List.isEmpty_eq_false_iff] at h
  exact ⟨(h.1.1.2 bases hb).1, (h.1.1.2 bases hb).2, h.1.2 bases hb⟩

/-- The trial list of a candidate holds primes. -/
theorem romTrial_prime {rom : WitnessRom} (h : rom.shapeOk = true) {n q : Nat} (hq : q ∈ romTrial rom n) : q.Prime := by
  have hmem : romTrial rom n ∈ rom.trial.toList := by
    rw [Vector.mem_toList_iff]
    exact Vector.getElem_mem _
  exact ((trial_of_shapeOk h hmem).2 q hq).2.2

/-- The bases 2, 3, .., b - 1. -/
def basesBelow (b : Nat) : List Nat := List.range' 2 (b - 2)

theorem mem_basesBelow {b x : Nat} : x ∈ basesBelow b ↔ 2 ≤ x ∧ x < b := by
  rw [basesBelow, List.mem_range'_1]
  omega

/-- With all bases up to its square root a candidate is certified. -/
theorem basesBelow_certify {n b : Nat} (h3 : 3 ≤ n) (hb : b ≤ n) (hsq : n < b * b) (h2 : ¬ 2 ∣ n) :
    (∀ x ∈ basesBelow b, WitnessPass n x) ↔ n.Prime := by
  constructor
  · intro h
    by_contra hn
    have h1 : n ≠ 1 := by omega
    have hp := Nat.minFac_prime h1
    have hlt : n.minFac < b := by
      have := Nat.minFac_sq_le_self (by omega) hn
      rw [sq] at this
      exact Nat.mul_self_lt_mul_self_iff.1 (by omega)
    exact common_factor_fails h3 hp.two_le n.minFac_dvd (dvd_refl _) (h _ (mem_basesBelow.2 ⟨hp.two_le, hlt⟩))
  · intro hn x hx
    obtain ⟨hx2, hxb⟩ := mem_basesBelow.1 hx
    refine prime_passes hn (fun h => h2 (h ▸ dvd_refl _)) fun hd => ?_
    have := Nat.le_of_dvd (by omega) hd
    omega

/-- A ROM of the shape of 44_miller_rabin R181 whose sets are all small bases, SET[6] the largest. -/
def allBasesRom : WitnessRom where
  bound := #v[121, 14641, 214358881, 45949729863572161, 4611686018427387904, 9223372036854775808]
  set := #v[basesBelow 11, basesBelow 121, basesBelow 14641, basesBelow 214358881, basesBelow 2147483648, [2],
    basesBelow 2147483649]
  trial := #v[[], [], [], [], [], [], []]

theorem basesBelow_shape {b : Nat} (h3 : 3 ≤ b) (hb : b ≤ radix) :
    (!(basesBelow b).isEmpty && (basesBelow b).all (fun x => 2 ≤ x && x < radix)) = true := by
  have hne : basesBelow b ≠ [] := List.ne_nil_of_mem (mem_basesBelow.2 ⟨le_refl 2, h3⟩)
  rw [Bool.and_eq_true]
  refine ⟨by simpa using hne, List.all_eq_true.2 fun x hx => ?_⟩
  obtain ⟨h1, h2⟩ := mem_basesBelow.1 hx
  simp only [Bool.and_eq_true, decide_eq_true_eq]
  omega

theorem length_basesBelow (b : Nat) : (basesBelow b).length = b - 2 := List.length_range'

theorem allBasesRom_shape : allBasesRom.shapeOk = true := by
  have hset : allBasesRom.set.toList = [basesBelow 11, basesBelow 121, basesBelow 14641, basesBelow 214358881,
      basesBelow 2147483648, [2], basesBelow 2147483649] := rfl
  have hlast : allBasesRom.set.get 6 = basesBelow 2147483649 := rfl
  simp only [WitnessRom.shapeOk, hset, hlast, length_basesBelow, List.all_cons, List.all_nil,
    basesBelow_shape (b := 11) (by decide) (by decide), basesBelow_shape (b := 121) (by decide) (by decide),
    basesBelow_shape (b := 14641) (by decide) (by decide), basesBelow_shape (b := 214358881) (by decide) (by decide),
    basesBelow_shape (b := 2147483648) (by decide) (by decide),
    basesBelow_shape (b := 2147483649) (by decide) (by decide)]
  decide

theorem romIndexNat_allBases (n : Nat) : romIndexNat allBasesRom n =
    (if 121 ≤ n then 1 else 0) + (if 14641 ≤ n then 1 else 0) + (if 214358881 ≤ n then 1 else 0) +
      (if 45949729863572161 ≤ n then 1 else 0) + (if 4611686018427387904 ≤ n then 1 else 0) +
      (if 9223372036854775808 ≤ n then 1 else 0) := by
  have hbound : allBasesRom.bound.toList =
      [121, 14641, 214358881, 45949729863572161, 4611686018427387904, 9223372036854775808] := rfl
  rw [romIndexNat, hbound]
  simp only [List.countP_cons, List.countP_nil, decide_eq_true_eq]
  omega

theorem romSet_allBases {n k : Nat} (hk : k < 7) (h : romIndexNat allBasesRom n = k) :
    romSet allBasesRom n = allBasesRom.set.get ⟨k, hk⟩ := by
  subst h
  rfl

/-- The ROM certifies (44_miller_rabin R182). -/
theorem allBasesRom_certifies : RomCertifies allBasesRom := by
  refine ⟨allBasesRom_shape, fun n h11 h62 hcop => ⟨romTrial_prime allBasesRom_shape, ?_⟩⟩
  · intro _ _
    have h2 : ¬ 2 ∣ n := fun hd => by
      have := Nat.dvd_gcd hd (show 2 ∣ 210 by decide)
      rw [hcop] at this
      exact absurd this (by decide)
    have hidx := romIndexNat_allBases n
    by_cases h1 : 121 ≤ n
    · by_cases h2' : 14641 ≤ n
      · by_cases h3 : 214358881 ≤ n
        · by_cases h4 : 45949729863572161 ≤ n
          · rw [romSet_allBases (k := 4) (by decide) (by rw [hidx]; split_ifs <;> omega)]
            exact basesBelow_certify (by omega) (by omega) (by omega) h2
          · rw [romSet_allBases (k := 3) (by decide) (by rw [hidx]; split_ifs <;> omega)]
            exact basesBelow_certify (by omega) (by omega) (by omega) h2
        · rw [romSet_allBases (k := 2) (by decide) (by rw [hidx]; split_ifs <;> omega)]
          exact basesBelow_certify (by omega) (by omega) (by omega) h2
      · rw [romSet_allBases (k := 1) (by decide) (by rw [hidx]; split_ifs <;> omega)]
        exact basesBelow_certify (by omega) (by omega) (by omega) h2
    · rw [romSet_allBases (k := 0) (by decide) (by rw [hidx]; split_ifs <;> omega)]
      exact basesBelow_certify (by omega) (by omega) (by omega) h2

end Sys2Proof.Machine
end

