-- ==== Sys2Proof/Laws/State.lean ====
section
/-! SUPPORT. One lemma per field per named update of State, true by rfl: later proofs unfold no record update. -/

-- One declaration at a time: as one text the package has too many theorems for a thread each within the memory limit.
set_option Elab.async false

namespace Sys2Proof.Machine

variable (s : State)

/-! ### setX -/

@[simp] theorem State.setX_cfg (r : Reg) (v : Word) : (s.setX r v).cfg = s.cfg := rfl
@[simp] theorem State.setX_regs (r : Reg) (v : Word) : (s.setX r v).regs = s.regs.set r.toNat v r.isLt := rfl
@[simp] theorem State.setX_eng (r : Reg) (v : Word) : (s.setX r v).eng = s.eng := rfl
@[simp] theorem State.setX_root (r : Reg) (v : Word) : (s.setX r v).root = s.root := rfl
@[simp] theorem State.setX_rootr (r : Reg) (v : Word) : (s.setX r v).rootr = s.rootr := rfl
@[simp] theorem State.setX_twcov (r : Reg) (v : Word) : (s.setX r v).twcov = s.twcov := rfl
@[simp] theorem State.setX_modv (r : Reg) (v : Word) : (s.setX r v).modv = s.modv := rfl
@[simp] theorem State.setX_rootv (r : Reg) (v : Word) : (s.setX r v).rootv = s.rootv := rfl
@[simp] theorem State.setX_mracc (r : Reg) (v : Word) : (s.setX r v).mracc = s.mracc := rfl
@[simp] theorem State.setX_done (r : Reg) (v : Word) : (s.setX r v).done = s.done := rfl
@[simp] theorem State.setX_err (r : Reg) (v : Word) : (s.setX r v).err = s.err := rfl
@[simp] theorem State.setX_ovr (r : Reg) (v : Word) : (s.setX r v).ovr = s.ovr := rfl
@[simp] theorem State.setX_errcode (r : Reg) (v : Word) : (s.setX r v).errcode = s.errcode := rfl
@[simp] theorem State.setX_errcmd (r : Reg) (v : Word) : (s.setX r v).errcmd = s.errcmd := rfl
@[simp] theorem State.setX_ie (r : Reg) (v : Word) : (s.setX r v).ie = s.ie := rfl
@[simp] theorem State.setX_cmdcnt (r : Reg) (v : Word) : (s.setX r v).cmdcnt = s.cmdcnt := rfl
@[simp] theorem State.setX_cur (r : Reg) (v : Word) : (s.setX r v).cur = s.cur := rfl
@[simp] theorem State.setX_ovrAtAcceptance (r : Reg) (v : Word) :
    (s.setX r v).ovrAtAcceptance = s.ovrAtAcceptance := rfl
@[simp] theorem State.setX_pmem (r : Reg) (v : Word) : (s.setX r v).pmem = s.pmem := rfl
@[simp] theorem State.setX_twf (r : Reg) (v : Word) : (s.setX r v).twf = s.twf := rfl
@[simp] theorem State.setX_twi (r : Reg) (v : Word) : (s.setX r v).twi = s.twi := rfl
@[simp] theorem State.setX_inputs (r : Reg) (v : Word) : (s.setX r v).inputs = s.inputs := rfl
@[simp] theorem State.setX_rdata (r : Reg) (v : Word) : (s.setX r v).rdata = s.rdata := rfl
@[simp] theorem State.setX_draws (r : Reg) (v : Word) : (s.setX r v).draws = s.draws := rfl

/-! ### setXFree -/

@[simp] theorem State.setXFree_cfg (r : Reg) : (s.setXFree r).cfg = s.cfg := rfl
@[simp] theorem State.setXFree_regs (r : Reg) :
    (s.setXFree r).regs = s.regs.set r.toNat (Config.freeWord s.draws) r.isLt := rfl
@[simp] theorem State.setXFree_eng (r : Reg) : (s.setXFree r).eng = s.eng := rfl
@[simp] theorem State.setXFree_root (r : Reg) : (s.setXFree r).root = s.root := rfl
@[simp] theorem State.setXFree_rootr (r : Reg) : (s.setXFree r).rootr = s.rootr := rfl
@[simp] theorem State.setXFree_twcov (r : Reg) : (s.setXFree r).twcov = s.twcov := rfl
@[simp] theorem State.setXFree_modv (r : Reg) : (s.setXFree r).modv = s.modv := rfl
@[simp] theorem State.setXFree_rootv (r : Reg) : (s.setXFree r).rootv = s.rootv := rfl
@[simp] theorem State.setXFree_mracc (r : Reg) : (s.setXFree r).mracc = s.mracc := rfl
@[simp] theorem State.setXFree_done (r : Reg) : (s.setXFree r).done = s.done := rfl
@[simp] theorem State.setXFree_err (r : Reg) : (s.setXFree r).err = s.err := rfl
@[simp] theorem State.setXFree_ovr (r : Reg) : (s.setXFree r).ovr = s.ovr := rfl
@[simp] theorem State.setXFree_errcode (r : Reg) : (s.setXFree r).errcode = s.errcode := rfl
@[simp] theorem State.setXFree_errcmd (r : Reg) : (s.setXFree r).errcmd = s.errcmd := rfl
@[simp] theorem State.setXFree_ie (r : Reg) : (s.setXFree r).ie = s.ie := rfl
@[simp] theorem State.setXFree_cmdcnt (r : Reg) : (s.setXFree r).cmdcnt = s.cmdcnt := rfl
@[simp] theorem State.setXFree_cur (r : Reg) : (s.setXFree r).cur = s.cur := rfl
@[simp] theorem State.setXFree_ovrAtAcceptance (r : Reg) : (s.setXFree r).ovrAtAcceptance = s.ovrAtAcceptance := rfl
@[simp] theorem State.setXFree_pmem (r : Reg) : (s.setXFree r).pmem = s.pmem := rfl
@[simp] theorem State.setXFree_twf (r : Reg) : (s.setXFree r).twf = s.twf := rfl
@[simp] theorem State.setXFree_twi (r : Reg) : (s.setXFree r).twi = s.twi := rfl
@[simp] theorem State.setXFree_inputs (r : Reg) : (s.setXFree r).inputs = s.inputs := rfl
@[simp] theorem State.setXFree_rdata (r : Reg) : (s.setXFree r).rdata = s.rdata := rfl
@[simp] theorem State.setXFree_draws (r : Reg) : (s.setXFree r).draws = s.draws + 1 := rfl

/-! ### setP -/

@[simp] theorem State.setP_cfg (a : Nat) (v : Word) : (s.setP a v).cfg = s.cfg := rfl
@[simp] theorem State.setP_regs (a : Nat) (v : Word) : (s.setP a v).regs = s.regs := rfl
@[simp] theorem State.setP_eng (a : Nat) (v : Word) : (s.setP a v).eng = s.eng := rfl
@[simp] theorem State.setP_root (a : Nat) (v : Word) : (s.setP a v).root = s.root := rfl
@[simp] theorem State.setP_rootr (a : Nat) (v : Word) : (s.setP a v).rootr = s.rootr := rfl
@[simp] theorem State.setP_twcov (a : Nat) (v : Word) : (s.setP a v).twcov = s.twcov := rfl
@[simp] theorem State.setP_modv (a : Nat) (v : Word) : (s.setP a v).modv = s.modv := rfl
@[simp] theorem State.setP_rootv (a : Nat) (v : Word) : (s.setP a v).rootv = s.rootv := rfl
@[simp] theorem State.setP_mracc (a : Nat) (v : Word) : (s.setP a v).mracc = s.mracc := rfl
@[simp] theorem State.setP_done (a : Nat) (v : Word) : (s.setP a v).done = s.done := rfl
@[simp] theorem State.setP_err (a : Nat) (v : Word) : (s.setP a v).err = s.err := rfl
@[simp] theorem State.setP_ovr (a : Nat) (v : Word) : (s.setP a v).ovr = s.ovr := rfl
@[simp] theorem State.setP_errcode (a : Nat) (v : Word) : (s.setP a v).errcode = s.errcode := rfl
@[simp] theorem State.setP_errcmd (a : Nat) (v : Word) : (s.setP a v).errcmd = s.errcmd := rfl
@[simp] theorem State.setP_ie (a : Nat) (v : Word) : (s.setP a v).ie = s.ie := rfl
@[simp] theorem State.setP_cmdcnt (a : Nat) (v : Word) : (s.setP a v).cmdcnt = s.cmdcnt := rfl
@[simp] theorem State.setP_cur (a : Nat) (v : Word) : (s.setP a v).cur = s.cur := rfl
@[simp] theorem State.setP_ovrAtAcceptance (a : Nat) (v : Word) :
    (s.setP a v).ovrAtAcceptance = s.ovrAtAcceptance := rfl
@[simp] theorem State.setP_pmem (a : Nat) (v : Word) : (s.setP a v).pmem = poke s.pmem a v := rfl
@[simp] theorem State.setP_twf (a : Nat) (v : Word) : (s.setP a v).twf = s.twf := rfl
@[simp] theorem State.setP_twi (a : Nat) (v : Word) : (s.setP a v).twi = s.twi := rfl
@[simp] theorem State.setP_inputs (a : Nat) (v : Word) : (s.setP a v).inputs = s.inputs := rfl
@[simp] theorem State.setP_rdata (a : Nat) (v : Word) : (s.setP a v).rdata = s.rdata := rfl
@[simp] theorem State.setP_draws (a : Nat) (v : Word) : (s.setP a v).draws = s.draws := rfl

/-! ### setPFree -/

@[simp] theorem State.setPFree_cfg (a : Nat) : (s.setPFree a).cfg = s.cfg := rfl
@[simp] theorem State.setPFree_regs (a : Nat) : (s.setPFree a).regs = s.regs := rfl
@[simp] theorem State.setPFree_eng (a : Nat) : (s.setPFree a).eng = s.eng := rfl
@[simp] theorem State.setPFree_root (a : Nat) : (s.setPFree a).root = s.root := rfl
@[simp] theorem State.setPFree_rootr (a : Nat) : (s.setPFree a).rootr = s.rootr := rfl
@[simp] theorem State.setPFree_twcov (a : Nat) : (s.setPFree a).twcov = s.twcov := rfl
@[simp] theorem State.setPFree_modv (a : Nat) : (s.setPFree a).modv = s.modv := rfl
@[simp] theorem State.setPFree_rootv (a : Nat) : (s.setPFree a).rootv = s.rootv := rfl
@[simp] theorem State.setPFree_mracc (a : Nat) : (s.setPFree a).mracc = s.mracc := rfl
@[simp] theorem State.setPFree_done (a : Nat) : (s.setPFree a).done = s.done := rfl
@[simp] theorem State.setPFree_err (a : Nat) : (s.setPFree a).err = s.err := rfl
@[simp] theorem State.setPFree_ovr (a : Nat) : (s.setPFree a).ovr = s.ovr := rfl
@[simp] theorem State.setPFree_errcode (a : Nat) : (s.setPFree a).errcode = s.errcode := rfl
@[simp] theorem State.setPFree_errcmd (a : Nat) : (s.setPFree a).errcmd = s.errcmd := rfl
@[simp] theorem State.setPFree_ie (a : Nat) : (s.setPFree a).ie = s.ie := rfl
@[simp] theorem State.setPFree_cmdcnt (a : Nat) : (s.setPFree a).cmdcnt = s.cmdcnt := rfl
@[simp] theorem State.setPFree_cur (a : Nat) : (s.setPFree a).cur = s.cur := rfl
@[simp] theorem State.setPFree_ovrAtAcceptance (a : Nat) : (s.setPFree a).ovrAtAcceptance = s.ovrAtAcceptance := rfl
@[simp] theorem State.setPFree_pmem (a : Nat) : (s.setPFree a).pmem = poke s.pmem a (Config.freeWord s.draws) := rfl
@[simp] theorem State.setPFree_twf (a : Nat) : (s.setPFree a).twf = s.twf := rfl
@[simp] theorem State.setPFree_twi (a : Nat) : (s.setPFree a).twi = s.twi := rfl
@[simp] theorem State.setPFree_inputs (a : Nat) : (s.setPFree a).inputs = s.inputs := rfl
@[simp] theorem State.setPFree_rdata (a : Nat) : (s.setPFree a).rdata = s.rdata := rfl
@[simp] theorem State.setPFree_draws (a : Nat) : (s.setPFree a).draws = s.draws + 1 := rfl

/-! ### freeRange -/

@[simp] theorem State.freeRange_cfg (a n : Nat) : (s.freeRange a n).cfg = s.cfg := rfl
@[simp] theorem State.freeRange_regs (a n : Nat) : (s.freeRange a n).regs = s.regs := rfl
@[simp] theorem State.freeRange_eng (a n : Nat) : (s.freeRange a n).eng = s.eng := rfl
@[simp] theorem State.freeRange_root (a n : Nat) : (s.freeRange a n).root = s.root := rfl
@[simp] theorem State.freeRange_rootr (a n : Nat) : (s.freeRange a n).rootr = s.rootr := rfl
@[simp] theorem State.freeRange_twcov (a n : Nat) : (s.freeRange a n).twcov = s.twcov := rfl
@[simp] theorem State.freeRange_modv (a n : Nat) : (s.freeRange a n).modv = s.modv := rfl
@[simp] theorem State.freeRange_rootv (a n : Nat) : (s.freeRange a n).rootv = s.rootv := rfl
@[simp] theorem State.freeRange_mracc (a n : Nat) : (s.freeRange a n).mracc = s.mracc := rfl
@[simp] theorem State.freeRange_done (a n : Nat) : (s.freeRange a n).done = s.done := rfl
@[simp] theorem State.freeRange_err (a n : Nat) : (s.freeRange a n).err = s.err := rfl
@[simp] theorem State.freeRange_ovr (a n : Nat) : (s.freeRange a n).ovr = s.ovr := rfl
@[simp] theorem State.freeRange_errcode (a n : Nat) : (s.freeRange a n).errcode = s.errcode := rfl
@[simp] theorem State.freeRange_errcmd (a n : Nat) : (s.freeRange a n).errcmd = s.errcmd := rfl
@[simp] theorem State.freeRange_ie (a n : Nat) : (s.freeRange a n).ie = s.ie := rfl
@[simp] theorem State.freeRange_cmdcnt (a n : Nat) : (s.freeRange a n).cmdcnt = s.cmdcnt := rfl
@[simp] theorem State.freeRange_cur (a n : Nat) : (s.freeRange a n).cur = s.cur := rfl
@[simp] theorem State.freeRange_ovrAtAcceptance (a n : Nat) :
    (s.freeRange a n).ovrAtAcceptance = s.ovrAtAcceptance := rfl
@[simp] theorem State.freeRange_pmem (a n : Nat) :
    (s.freeRange a n).pmem = storeRange s.pmem a (freeWords s.draws n) := rfl
@[simp] theorem State.freeRange_twf (a n : Nat) : (s.freeRange a n).twf = s.twf := rfl
@[simp] theorem State.freeRange_twi (a n : Nat) : (s.freeRange a n).twi = s.twi := rfl
@[simp] theorem State.freeRange_inputs (a n : Nat) : (s.freeRange a n).inputs = s.inputs := rfl
@[simp] theorem State.freeRange_rdata (a n : Nat) : (s.freeRange a n).rdata = s.rdata := rfl
@[simp] theorem State.freeRange_draws (a n : Nat) : (s.freeRange a n).draws = s.draws + n := rfl

/-! ### takeFault -/

@[simp] theorem State.takeFault_cfg (c : CmdFault) : (s.takeFault c).cfg = s.cfg := rfl
@[simp] theorem State.takeFault_regs (c : CmdFault) : (s.takeFault c).regs = s.regs := rfl
@[simp] theorem State.takeFault_eng (c : CmdFault) : (s.takeFault c).eng = s.eng := rfl
@[simp] theorem State.takeFault_root (c : CmdFault) : (s.takeFault c).root = s.root := rfl
@[simp] theorem State.takeFault_rootr (c : CmdFault) : (s.takeFault c).rootr = s.rootr := rfl
@[simp] theorem State.takeFault_twcov (c : CmdFault) : (s.takeFault c).twcov = s.twcov := rfl
@[simp] theorem State.takeFault_modv (c : CmdFault) : (s.takeFault c).modv = s.modv := rfl
@[simp] theorem State.takeFault_rootv (c : CmdFault) : (s.takeFault c).rootv = s.rootv := rfl
@[simp] theorem State.takeFault_mracc (c : CmdFault) : (s.takeFault c).mracc = s.mracc := rfl
@[simp] theorem State.takeFault_done (c : CmdFault) : (s.takeFault c).done = true := rfl
@[simp] theorem State.takeFault_err (c : CmdFault) : (s.takeFault c).err = true := rfl
@[simp] theorem State.takeFault_ovr (c : CmdFault) : (s.takeFault c).ovr = s.ovr := rfl
@[simp] theorem State.takeFault_errcode (c : CmdFault) : (s.takeFault c).errcode = c.code := rfl
@[simp] theorem State.takeFault_errcmd (c : CmdFault) : (s.takeFault c).errcmd = (s.cur.getD 0).setWidth 32 := rfl
@[simp] theorem State.takeFault_ie (c : CmdFault) : (s.takeFault c).ie = s.ie := rfl
@[simp] theorem State.takeFault_cmdcnt (c : CmdFault) : (s.takeFault c).cmdcnt = s.cmdcnt := rfl
@[simp] theorem State.takeFault_cur (c : CmdFault) : (s.takeFault c).cur = none := rfl
@[simp] theorem State.takeFault_ovrAtAcceptance (c : CmdFault) :
    (s.takeFault c).ovrAtAcceptance = s.ovrAtAcceptance := rfl
@[simp] theorem State.takeFault_pmem (c : CmdFault) : (s.takeFault c).pmem = s.pmem := rfl
@[simp] theorem State.takeFault_twf (c : CmdFault) : (s.takeFault c).twf = s.twf := rfl
@[simp] theorem State.takeFault_twi (c : CmdFault) : (s.takeFault c).twi = s.twi := rfl
@[simp] theorem State.takeFault_inputs (c : CmdFault) : (s.takeFault c).inputs = s.inputs := rfl
@[simp] theorem State.takeFault_rdata (c : CmdFault) : (s.takeFault c).rdata = s.rdata := rfl
@[simp] theorem State.takeFault_draws (c : CmdFault) : (s.takeFault c).draws = s.draws := rfl

/-! ### clearFault -/

@[simp] theorem State.clearFault_cfg : s.clearFault.cfg = s.cfg := rfl
@[simp] theorem State.clearFault_regs : s.clearFault.regs = s.regs := rfl
@[simp] theorem State.clearFault_eng : s.clearFault.eng = s.eng := rfl
@[simp] theorem State.clearFault_root : s.clearFault.root = s.root := rfl
@[simp] theorem State.clearFault_rootr : s.clearFault.rootr = s.rootr := rfl
@[simp] theorem State.clearFault_twcov : s.clearFault.twcov = s.twcov := rfl
@[simp] theorem State.clearFault_modv : s.clearFault.modv = s.modv := rfl
@[simp] theorem State.clearFault_rootv : s.clearFault.rootv = s.rootv := rfl
@[simp] theorem State.clearFault_mracc : s.clearFault.mracc = s.mracc := rfl
@[simp] theorem State.clearFault_done : s.clearFault.done = s.done := rfl
@[simp] theorem State.clearFault_err : s.clearFault.err = false := rfl
@[simp] theorem State.clearFault_ovr : s.clearFault.ovr = s.ovr := rfl
@[simp] theorem State.clearFault_errcode : s.clearFault.errcode = 0 := rfl
@[simp] theorem State.clearFault_errcmd : s.clearFault.errcmd = 0 := rfl
@[simp] theorem State.clearFault_ie : s.clearFault.ie = s.ie := rfl
@[simp] theorem State.clearFault_cmdcnt : s.clearFault.cmdcnt = s.cmdcnt := rfl
@[simp] theorem State.clearFault_cur : s.clearFault.cur = s.cur := rfl
@[simp] theorem State.clearFault_ovrAtAcceptance : s.clearFault.ovrAtAcceptance = s.ovrAtAcceptance := rfl
@[simp] theorem State.clearFault_pmem : s.clearFault.pmem = s.pmem := rfl
@[simp] theorem State.clearFault_twf : s.clearFault.twf = s.twf := rfl
@[simp] theorem State.clearFault_twi : s.clearFault.twi = s.twi := rfl
@[simp] theorem State.clearFault_inputs : s.clearFault.inputs = s.inputs := rfl
@[simp] theorem State.clearFault_rdata : s.clearFault.rdata = s.rdata := rfl
@[simp] theorem State.clearFault_draws : s.clearFault.draws = s.draws := rfl

/-! ### retire -/

@[simp] theorem State.retire_cfg : s.retire.cfg = s.cfg := rfl
@[simp] theorem State.retire_regs : s.retire.regs = s.regs := rfl
@[simp] theorem State.retire_eng : s.retire.eng = s.eng := rfl
@[simp] theorem State.retire_root : s.retire.root = s.root := rfl
@[simp] theorem State.retire_rootr : s.retire.rootr = s.rootr := rfl
@[simp] theorem State.retire_twcov : s.retire.twcov = s.twcov := rfl
@[simp] theorem State.retire_modv : s.retire.modv = s.modv := rfl
@[simp] theorem State.retire_rootv : s.retire.rootv = s.rootv := rfl
@[simp] theorem State.retire_mracc : s.retire.mracc = s.mracc := rfl
@[simp] theorem State.retire_done : s.retire.done = true := rfl
@[simp] theorem State.retire_err : s.retire.err = s.err := rfl
@[simp] theorem State.retire_ovr : s.retire.ovr = s.ovr := rfl
@[simp] theorem State.retire_errcode : s.retire.errcode = s.errcode := rfl
@[simp] theorem State.retire_errcmd : s.retire.errcmd = s.errcmd := rfl
@[simp] theorem State.retire_ie : s.retire.ie = s.ie := rfl
@[simp] theorem State.retire_cmdcnt : s.retire.cmdcnt = s.cmdcnt + 1 := rfl
@[simp] theorem State.retire_cur : s.retire.cur = none := rfl
@[simp] theorem State.retire_ovrAtAcceptance : s.retire.ovrAtAcceptance = s.ovrAtAcceptance := rfl
@[simp] theorem State.retire_pmem : s.retire.pmem = s.pmem := rfl
@[simp] theorem State.retire_twf : s.retire.twf = s.twf := rfl
@[simp] theorem State.retire_twi : s.retire.twi = s.twi := rfl
@[simp] theorem State.retire_inputs : s.retire.inputs = s.inputs := rfl
@[simp] theorem State.retire_rdata : s.retire.rdata = s.rdata := rfl
@[simp] theorem State.retire_draws : s.retire.draws = s.draws := rfl

/-! ### flagsAfterSetmod -/

@[simp] theorem State.flagsAfterSetmod_cfg : s.flagsAfterSetmod.cfg = s.cfg := rfl
@[simp] theorem State.flagsAfterSetmod_regs : s.flagsAfterSetmod.regs = s.regs := rfl
@[simp] theorem State.flagsAfterSetmod_eng : s.flagsAfterSetmod.eng = s.eng := rfl
@[simp] theorem State.flagsAfterSetmod_root : s.flagsAfterSetmod.root = s.root := rfl
@[simp] theorem State.flagsAfterSetmod_rootr : s.flagsAfterSetmod.rootr = s.rootr := rfl
@[simp] theorem State.flagsAfterSetmod_twcov : s.flagsAfterSetmod.twcov = s.twcov := rfl
@[simp] theorem State.flagsAfterSetmod_modv : s.flagsAfterSetmod.modv = true := rfl
@[simp] theorem State.flagsAfterSetmod_rootv : s.flagsAfterSetmod.rootv = false := rfl
@[simp] theorem State.flagsAfterSetmod_mracc : s.flagsAfterSetmod.mracc = true := rfl
@[simp] theorem State.flagsAfterSetmod_done : s.flagsAfterSetmod.done = s.done := rfl
@[simp] theorem State.flagsAfterSetmod_err : s.flagsAfterSetmod.err = s.err := rfl
@[simp] theorem State.flagsAfterSetmod_ovr : s.flagsAfterSetmod.ovr = s.ovr := rfl
@[simp] theorem State.flagsAfterSetmod_errcode : s.flagsAfterSetmod.errcode = s.errcode := rfl
@[simp] theorem State.flagsAfterSetmod_errcmd : s.flagsAfterSetmod.errcmd = s.errcmd := rfl
@[simp] theorem State.flagsAfterSetmod_ie : s.flagsAfterSetmod.ie = s.ie := rfl
@[simp] theorem State.flagsAfterSetmod_cmdcnt : s.flagsAfterSetmod.cmdcnt = s.cmdcnt := rfl
@[simp] theorem State.flagsAfterSetmod_cur : s.flagsAfterSetmod.cur = s.cur := rfl
@[simp] theorem State.flagsAfterSetmod_ovrAtAcceptance : s.flagsAfterSetmod.ovrAtAcceptance = s.ovrAtAcceptance := rfl
@[simp] theorem State.flagsAfterSetmod_pmem : s.flagsAfterSetmod.pmem = s.pmem := rfl
@[simp] theorem State.flagsAfterSetmod_twf : s.flagsAfterSetmod.twf = s.twf := rfl
@[simp] theorem State.flagsAfterSetmod_twi : s.flagsAfterSetmod.twi = s.twi := rfl
@[simp] theorem State.flagsAfterSetmod_inputs : s.flagsAfterSetmod.inputs = s.inputs := rfl
@[simp] theorem State.flagsAfterSetmod_rdata : s.flagsAfterSetmod.rdata = s.rdata := rfl
@[simp] theorem State.flagsAfterSetmod_draws : s.flagsAfterSetmod.draws = s.draws := rfl

/-! ### flagsAfterSetroot -/

@[simp] theorem State.flagsAfterSetroot_cfg : s.flagsAfterSetroot.cfg = s.cfg := rfl
@[simp] theorem State.flagsAfterSetroot_regs : s.flagsAfterSetroot.regs = s.regs := rfl
@[simp] theorem State.flagsAfterSetroot_eng : s.flagsAfterSetroot.eng = s.eng := rfl
@[simp] theorem State.flagsAfterSetroot_root : s.flagsAfterSetroot.root = s.root := rfl
@[simp] theorem State.flagsAfterSetroot_rootr : s.flagsAfterSetroot.rootr = s.rootr := rfl
@[simp] theorem State.flagsAfterSetroot_twcov : s.flagsAfterSetroot.twcov = s.twcov := rfl
@[simp] theorem State.flagsAfterSetroot_modv : s.flagsAfterSetroot.modv = s.modv := rfl
@[simp] theorem State.flagsAfterSetroot_rootv : s.flagsAfterSetroot.rootv = true := rfl
@[simp] theorem State.flagsAfterSetroot_mracc : s.flagsAfterSetroot.mracc = s.mracc := rfl
@[simp] theorem State.flagsAfterSetroot_done : s.flagsAfterSetroot.done = s.done := rfl
@[simp] theorem State.flagsAfterSetroot_err : s.flagsAfterSetroot.err = s.err := rfl
@[simp] theorem State.flagsAfterSetroot_ovr : s.flagsAfterSetroot.ovr = s.ovr := rfl
@[simp] theorem State.flagsAfterSetroot_errcode : s.flagsAfterSetroot.errcode = s.errcode := rfl
@[simp] theorem State.flagsAfterSetroot_errcmd : s.flagsAfterSetroot.errcmd = s.errcmd := rfl
@[simp] theorem State.flagsAfterSetroot_ie : s.flagsAfterSetroot.ie = s.ie := rfl
@[simp] theorem State.flagsAfterSetroot_cmdcnt : s.flagsAfterSetroot.cmdcnt = s.cmdcnt := rfl
@[simp] theorem State.flagsAfterSetroot_cur : s.flagsAfterSetroot.cur = s.cur := rfl
@[simp] theorem State.flagsAfterSetroot_ovrAtAcceptance :
    s.flagsAfterSetroot.ovrAtAcceptance = s.ovrAtAcceptance := rfl
@[simp] theorem State.flagsAfterSetroot_pmem : s.flagsAfterSetroot.pmem = s.pmem := rfl
@[simp] theorem State.flagsAfterSetroot_twf : s.flagsAfterSetroot.twf = s.twf := rfl
@[simp] theorem State.flagsAfterSetroot_twi : s.flagsAfterSetroot.twi = s.twi := rfl
@[simp] theorem State.flagsAfterSetroot_inputs : s.flagsAfterSetroot.inputs = s.inputs := rfl
@[simp] theorem State.flagsAfterSetroot_rdata : s.flagsAfterSetroot.rdata = s.rdata := rfl
@[simp] theorem State.flagsAfterSetroot_draws : s.flagsAfterSetroot.draws = s.draws := rfl

/-! ### accumulateWitness -/

@[simp] theorem State.accumulateWitness_cfg (pass : Bool) : (s.accumulateWitness pass).cfg = s.cfg := rfl
@[simp] theorem State.accumulateWitness_regs (pass : Bool) : (s.accumulateWitness pass).regs = s.regs := rfl
@[simp] theorem State.accumulateWitness_eng (pass : Bool) : (s.accumulateWitness pass).eng = s.eng := rfl
@[simp] theorem State.accumulateWitness_root (pass : Bool) : (s.accumulateWitness pass).root = s.root := rfl
@[simp] theorem State.accumulateWitness_rootr (pass : Bool) : (s.accumulateWitness pass).rootr = s.rootr := rfl
@[simp] theorem State.accumulateWitness_twcov (pass : Bool) : (s.accumulateWitness pass).twcov = s.twcov := rfl
@[simp] theorem State.accumulateWitness_modv (pass : Bool) : (s.accumulateWitness pass).modv = s.modv := rfl
@[simp] theorem State.accumulateWitness_rootv (pass : Bool) : (s.accumulateWitness pass).rootv = s.rootv := rfl
@[simp] theorem State.accumulateWitness_mracc (pass : Bool) :
    (s.accumulateWitness pass).mracc = (s.mracc && pass) := rfl
@[simp] theorem State.accumulateWitness_done (pass : Bool) : (s.accumulateWitness pass).done = s.done := rfl
@[simp] theorem State.accumulateWitness_err (pass : Bool) : (s.accumulateWitness pass).err = s.err := rfl
@[simp] theorem State.accumulateWitness_ovr (pass : Bool) : (s.accumulateWitness pass).ovr = s.ovr := rfl
@[simp] theorem State.accumulateWitness_errcode (pass : Bool) : (s.accumulateWitness pass).errcode = s.errcode := rfl
@[simp] theorem State.accumulateWitness_errcmd (pass : Bool) : (s.accumulateWitness pass).errcmd = s.errcmd := rfl
@[simp] theorem State.accumulateWitness_ie (pass : Bool) : (s.accumulateWitness pass).ie = s.ie := rfl
@[simp] theorem State.accumulateWitness_cmdcnt (pass : Bool) : (s.accumulateWitness pass).cmdcnt = s.cmdcnt := rfl
@[simp] theorem State.accumulateWitness_cur (pass : Bool) : (s.accumulateWitness pass).cur = s.cur := rfl
@[simp] theorem State.accumulateWitness_ovrAtAcceptance (pass : Bool) :
    (s.accumulateWitness pass).ovrAtAcceptance = s.ovrAtAcceptance := rfl
@[simp] theorem State.accumulateWitness_pmem (pass : Bool) : (s.accumulateWitness pass).pmem = s.pmem := rfl
@[simp] theorem State.accumulateWitness_twf (pass : Bool) : (s.accumulateWitness pass).twf = s.twf := rfl
@[simp] theorem State.accumulateWitness_twi (pass : Bool) : (s.accumulateWitness pass).twi = s.twi := rfl
@[simp] theorem State.accumulateWitness_inputs (pass : Bool) : (s.accumulateWitness pass).inputs = s.inputs := rfl
@[simp] theorem State.accumulateWitness_rdata (pass : Bool) : (s.accumulateWitness pass).rdata = s.rdata := rfl
@[simp] theorem State.accumulateWitness_draws (pass : Bool) : (s.accumulateWitness pass).draws = s.draws := rfl

/-! ### loadModulus -/

@[simp] theorem State.loadModulus_cfg (m : Nat) : (s.loadModulus m).cfg = s.cfg := rfl
@[simp] theorem State.loadModulus_regs (m : Nat) : (s.loadModulus m).regs = s.regs := rfl
@[simp] theorem State.loadModulus_eng (m : Nat) : (s.loadModulus m).eng = construct m := rfl
@[simp] theorem State.loadModulus_root (m : Nat) : (s.loadModulus m).root = 0 := rfl
@[simp] theorem State.loadModulus_rootr (m : Nat) : (s.loadModulus m).rootr = 0 := rfl
@[simp] theorem State.loadModulus_twcov (m : Nat) : (s.loadModulus m).twcov = 0 := rfl
@[simp] theorem State.loadModulus_modv (m : Nat) : (s.loadModulus m).modv = true := rfl
@[simp] theorem State.loadModulus_rootv (m : Nat) : (s.loadModulus m).rootv = false := rfl
@[simp] theorem State.loadModulus_mracc (m : Nat) : (s.loadModulus m).mracc = true := rfl
@[simp] theorem State.loadModulus_done (m : Nat) : (s.loadModulus m).done = s.done := rfl
@[simp] theorem State.loadModulus_err (m : Nat) : (s.loadModulus m).err = s.err := rfl
@[simp] theorem State.loadModulus_ovr (m : Nat) : (s.loadModulus m).ovr = s.ovr := rfl
@[simp] theorem State.loadModulus_errcode (m : Nat) : (s.loadModulus m).errcode = s.errcode := rfl
@[simp] theorem State.loadModulus_errcmd (m : Nat) : (s.loadModulus m).errcmd = s.errcmd := rfl
@[simp] theorem State.loadModulus_ie (m : Nat) : (s.loadModulus m).ie = s.ie := rfl
@[simp] theorem State.loadModulus_cmdcnt (m : Nat) : (s.loadModulus m).cmdcnt = s.cmdcnt := rfl
@[simp] theorem State.loadModulus_cur (m : Nat) : (s.loadModulus m).cur = s.cur := rfl
@[simp] theorem State.loadModulus_ovrAtAcceptance (m : Nat) :
    (s.loadModulus m).ovrAtAcceptance = s.ovrAtAcceptance := rfl
@[simp] theorem State.loadModulus_pmem (m : Nat) : (s.loadModulus m).pmem = s.pmem := rfl
@[simp] theorem State.loadModulus_twf (m : Nat) : (s.loadModulus m).twf = s.twf := rfl
@[simp] theorem State.loadModulus_twi (m : Nat) : (s.loadModulus m).twi = s.twi := rfl
@[simp] theorem State.loadModulus_inputs (m : Nat) : (s.loadModulus m).inputs = s.inputs := rfl
@[simp] theorem State.loadModulus_rdata (m : Nat) : (s.loadModulus m).rdata = s.rdata := rfl
@[simp] theorem State.loadModulus_draws (m : Nat) : (s.loadModulus m).draws = s.draws := rfl

/-! ### loadRoot -/

@[simp] theorem State.loadRoot_cfg (g : Word) : (s.loadRoot g).cfg = s.cfg := rfl
@[simp] theorem State.loadRoot_regs (g : Word) : (s.loadRoot g).regs = s.regs := rfl
@[simp] theorem State.loadRoot_eng (g : Word) : (s.loadRoot g).eng = s.eng := rfl
@[simp] theorem State.loadRoot_root (g : Word) : (s.loadRoot g).root = g := rfl
@[simp] theorem State.loadRoot_rootr (g : Word) :
    (s.loadRoot g).rootr = BitVec.ofNat 64 (s.eng.fromOrdinary g.toNat) := rfl
@[simp] theorem State.loadRoot_twcov (g : Word) : (s.loadRoot g).twcov = 2 := rfl
@[simp] theorem State.loadRoot_modv (g : Word) : (s.loadRoot g).modv = s.modv := rfl
@[simp] theorem State.loadRoot_rootv (g : Word) : (s.loadRoot g).rootv = true := rfl
@[simp] theorem State.loadRoot_mracc (g : Word) : (s.loadRoot g).mracc = s.mracc := rfl
@[simp] theorem State.loadRoot_done (g : Word) : (s.loadRoot g).done = s.done := rfl
@[simp] theorem State.loadRoot_err (g : Word) : (s.loadRoot g).err = s.err := rfl
@[simp] theorem State.loadRoot_ovr (g : Word) : (s.loadRoot g).ovr = s.ovr := rfl
@[simp] theorem State.loadRoot_errcode (g : Word) : (s.loadRoot g).errcode = s.errcode := rfl
@[simp] theorem State.loadRoot_errcmd (g : Word) : (s.loadRoot g).errcmd = s.errcmd := rfl
@[simp] theorem State.loadRoot_ie (g : Word) : (s.loadRoot g).ie = s.ie := rfl
@[simp] theorem State.loadRoot_cmdcnt (g : Word) : (s.loadRoot g).cmdcnt = s.cmdcnt := rfl
@[simp] theorem State.loadRoot_cur (g : Word) : (s.loadRoot g).cur = s.cur := rfl
@[simp] theorem State.loadRoot_ovrAtAcceptance (g : Word) : (s.loadRoot g).ovrAtAcceptance = s.ovrAtAcceptance := rfl
@[simp] theorem State.loadRoot_pmem (g : Word) : (s.loadRoot g).pmem = s.pmem := rfl
@[simp] theorem State.loadRoot_twf (g : Word) : (s.loadRoot g).twf = poke s.twf 0 s.eng.one := rfl
@[simp] theorem State.loadRoot_twi (g : Word) : (s.loadRoot g).twi = poke s.twi 0 s.eng.one := rfl
@[simp] theorem State.loadRoot_inputs (g : Word) : (s.loadRoot g).inputs = s.inputs := rfl
@[simp] theorem State.loadRoot_rdata (g : Word) : (s.loadRoot g).rdata = s.rdata := rfl
@[simp] theorem State.loadRoot_draws (g : Word) : (s.loadRoot g).draws = s.draws := rfl

/-! ### growTables -/

@[simp] theorem State.growTables_cfg : s.growTables.cfg = s.cfg := rfl
@[simp] theorem State.growTables_regs : s.growTables.regs = s.regs := rfl
@[simp] theorem State.growTables_eng : s.growTables.eng = s.eng := rfl
@[simp] theorem State.growTables_root : s.growTables.root = s.root := rfl
@[simp] theorem State.growTables_rootr : s.growTables.rootr = s.rootr := rfl
@[simp] theorem State.growTables_twcov : s.growTables.twcov = BitVec.ofNat 64 (2 * s.twcov.toNat) := rfl
@[simp] theorem State.growTables_modv : s.growTables.modv = s.modv := rfl
@[simp] theorem State.growTables_rootv : s.growTables.rootv = s.rootv := rfl
@[simp] theorem State.growTables_mracc : s.growTables.mracc = s.mracc := rfl
@[simp] theorem State.growTables_done : s.growTables.done = s.done := rfl
@[simp] theorem State.growTables_err : s.growTables.err = s.err := rfl
@[simp] theorem State.growTables_ovr : s.growTables.ovr = s.ovr := rfl
@[simp] theorem State.growTables_errcode : s.growTables.errcode = s.errcode := rfl
@[simp] theorem State.growTables_errcmd : s.growTables.errcmd = s.errcmd := rfl
@[simp] theorem State.growTables_ie : s.growTables.ie = s.ie := rfl
@[simp] theorem State.growTables_cmdcnt : s.growTables.cmdcnt = s.cmdcnt := rfl
@[simp] theorem State.growTables_cur : s.growTables.cur = s.cur := rfl
@[simp] theorem State.growTables_ovrAtAcceptance : s.growTables.ovrAtAcceptance = s.ovrAtAcceptance := rfl
@[simp] theorem State.growTables_pmem : s.growTables.pmem = s.pmem := rfl
@[simp] theorem State.growTables_twf :
    s.growTables.twf = s.eng.growTable s.twf (2 * s.twcov.toNat / 4)
      (s.eng.rootForward s.rootr.toNat (2 * s.twcov.toNat)) := rfl
@[simp] theorem State.growTables_twi :
    s.growTables.twi = s.eng.growTable s.twi (2 * s.twcov.toNat / 4)
      (s.eng.rootInverse s.rootr.toNat (2 * s.twcov.toNat)) := rfl
@[simp] theorem State.growTables_inputs : s.growTables.inputs = s.inputs := rfl
@[simp] theorem State.growTables_rdata : s.growTables.rdata = s.rdata := rfl
@[simp] theorem State.growTables_draws : s.growTables.draws = s.draws := rfl

/-! ### fnttAt -/

@[simp] theorem State.fnttAt_cfg (base logn : Nat) : (s.fnttAt base logn).cfg = s.cfg := rfl
@[simp] theorem State.fnttAt_regs (base logn : Nat) : (s.fnttAt base logn).regs = s.regs := rfl
@[simp] theorem State.fnttAt_eng (base logn : Nat) : (s.fnttAt base logn).eng = s.eng := rfl
@[simp] theorem State.fnttAt_root (base logn : Nat) : (s.fnttAt base logn).root = s.root := rfl
@[simp] theorem State.fnttAt_rootr (base logn : Nat) : (s.fnttAt base logn).rootr = s.rootr := rfl
@[simp] theorem State.fnttAt_twcov (base logn : Nat) : (s.fnttAt base logn).twcov = s.twcov := rfl
@[simp] theorem State.fnttAt_modv (base logn : Nat) : (s.fnttAt base logn).modv = s.modv := rfl
@[simp] theorem State.fnttAt_rootv (base logn : Nat) : (s.fnttAt base logn).rootv = s.rootv := rfl
@[simp] theorem State.fnttAt_mracc (base logn : Nat) : (s.fnttAt base logn).mracc = s.mracc := rfl
@[simp] theorem State.fnttAt_done (base logn : Nat) : (s.fnttAt base logn).done = s.done := rfl
@[simp] theorem State.fnttAt_err (base logn : Nat) : (s.fnttAt base logn).err = s.err := rfl
@[simp] theorem State.fnttAt_ovr (base logn : Nat) : (s.fnttAt base logn).ovr = s.ovr := rfl
@[simp] theorem State.fnttAt_errcode (base logn : Nat) : (s.fnttAt base logn).errcode = s.errcode := rfl
@[simp] theorem State.fnttAt_errcmd (base logn : Nat) : (s.fnttAt base logn).errcmd = s.errcmd := rfl
@[simp] theorem State.fnttAt_ie (base logn : Nat) : (s.fnttAt base logn).ie = s.ie := rfl
@[simp] theorem State.fnttAt_cmdcnt (base logn : Nat) : (s.fnttAt base logn).cmdcnt = s.cmdcnt := rfl
@[simp] theorem State.fnttAt_cur (base logn : Nat) : (s.fnttAt base logn).cur = s.cur := rfl
@[simp] theorem State.fnttAt_ovrAtAcceptance (base logn : Nat) :
    (s.fnttAt base logn).ovrAtAcceptance = s.ovrAtAcceptance := rfl
@[simp] theorem State.fnttAt_pmem (base logn : Nat) :
    (s.fnttAt base logn).pmem = storeNats s.pmem base (s.eng.fntt s.twf logn (loadRange s.pmem base (2 ^ logn))) := rfl
@[simp] theorem State.fnttAt_twf (base logn : Nat) : (s.fnttAt base logn).twf = s.twf := rfl
@[simp] theorem State.fnttAt_twi (base logn : Nat) : (s.fnttAt base logn).twi = s.twi := rfl
@[simp] theorem State.fnttAt_inputs (base logn : Nat) : (s.fnttAt base logn).inputs = s.inputs := rfl
@[simp] theorem State.fnttAt_rdata (base logn : Nat) : (s.fnttAt base logn).rdata = s.rdata := rfl
@[simp] theorem State.fnttAt_draws (base logn : Nat) : (s.fnttAt base logn).draws = s.draws := rfl

/-! ### inttAt -/

@[simp] theorem State.inttAt_cfg (base logn : Nat) : (s.inttAt base logn).cfg = s.cfg := rfl
@[simp] theorem State.inttAt_regs (base logn : Nat) : (s.inttAt base logn).regs = s.regs := rfl
@[simp] theorem State.inttAt_eng (base logn : Nat) : (s.inttAt base logn).eng = s.eng := rfl
@[simp] theorem State.inttAt_root (base logn : Nat) : (s.inttAt base logn).root = s.root := rfl
@[simp] theorem State.inttAt_rootr (base logn : Nat) : (s.inttAt base logn).rootr = s.rootr := rfl
@[simp] theorem State.inttAt_twcov (base logn : Nat) : (s.inttAt base logn).twcov = s.twcov := rfl
@[simp] theorem State.inttAt_modv (base logn : Nat) : (s.inttAt base logn).modv = s.modv := rfl
@[simp] theorem State.inttAt_rootv (base logn : Nat) : (s.inttAt base logn).rootv = s.rootv := rfl
@[simp] theorem State.inttAt_mracc (base logn : Nat) : (s.inttAt base logn).mracc = s.mracc := rfl
@[simp] theorem State.inttAt_done (base logn : Nat) : (s.inttAt base logn).done = s.done := rfl
@[simp] theorem State.inttAt_err (base logn : Nat) : (s.inttAt base logn).err = s.err := rfl
@[simp] theorem State.inttAt_ovr (base logn : Nat) : (s.inttAt base logn).ovr = s.ovr := rfl
@[simp] theorem State.inttAt_errcode (base logn : Nat) : (s.inttAt base logn).errcode = s.errcode := rfl
@[simp] theorem State.inttAt_errcmd (base logn : Nat) : (s.inttAt base logn).errcmd = s.errcmd := rfl
@[simp] theorem State.inttAt_ie (base logn : Nat) : (s.inttAt base logn).ie = s.ie := rfl
@[simp] theorem State.inttAt_cmdcnt (base logn : Nat) : (s.inttAt base logn).cmdcnt = s.cmdcnt := rfl
@[simp] theorem State.inttAt_cur (base logn : Nat) : (s.inttAt base logn).cur = s.cur := rfl
@[simp] theorem State.inttAt_ovrAtAcceptance (base logn : Nat) :
    (s.inttAt base logn).ovrAtAcceptance = s.ovrAtAcceptance := rfl
@[simp] theorem State.inttAt_pmem (base logn : Nat) :
    (s.inttAt base logn).pmem = storeNats s.pmem base (s.eng.intt s.twi logn (loadRange s.pmem base (2 ^ logn))) := rfl
@[simp] theorem State.inttAt_twf (base logn : Nat) : (s.inttAt base logn).twf = s.twf := rfl
@[simp] theorem State.inttAt_twi (base logn : Nat) : (s.inttAt base logn).twi = s.twi := rfl
@[simp] theorem State.inttAt_inputs (base logn : Nat) : (s.inttAt base logn).inputs = s.inputs := rfl
@[simp] theorem State.inttAt_rdata (base logn : Nat) : (s.inttAt base logn).rdata = s.rdata := rfl
@[simp] theorem State.inttAt_draws (base logn : Nat) : (s.inttAt base logn).draws = s.draws := rfl

/-! ### dropWrite -/

@[simp] theorem State.dropWrite_cfg : s.dropWrite.cfg = s.cfg := rfl
@[simp] theorem State.dropWrite_regs : s.dropWrite.regs = s.regs := rfl
@[simp] theorem State.dropWrite_eng : s.dropWrite.eng = s.eng := rfl
@[simp] theorem State.dropWrite_root : s.dropWrite.root = s.root := rfl
@[simp] theorem State.dropWrite_rootr : s.dropWrite.rootr = s.rootr := rfl
@[simp] theorem State.dropWrite_twcov : s.dropWrite.twcov = s.twcov := rfl
@[simp] theorem State.dropWrite_modv : s.dropWrite.modv = s.modv := rfl
@[simp] theorem State.dropWrite_rootv : s.dropWrite.rootv = s.rootv := rfl
@[simp] theorem State.dropWrite_mracc : s.dropWrite.mracc = s.mracc := rfl
@[simp] theorem State.dropWrite_done : s.dropWrite.done = s.done := rfl
@[simp] theorem State.dropWrite_err : s.dropWrite.err = s.err := rfl
@[simp] theorem State.dropWrite_ovr : s.dropWrite.ovr = true := rfl
@[simp] theorem State.dropWrite_errcode : s.dropWrite.errcode = s.errcode := rfl
@[simp] theorem State.dropWrite_errcmd : s.dropWrite.errcmd = s.errcmd := rfl
@[simp] theorem State.dropWrite_ie : s.dropWrite.ie = s.ie := rfl
@[simp] theorem State.dropWrite_cmdcnt : s.dropWrite.cmdcnt = s.cmdcnt := rfl
@[simp] theorem State.dropWrite_cur : s.dropWrite.cur = s.cur := rfl
@[simp] theorem State.dropWrite_ovrAtAcceptance : s.dropWrite.ovrAtAcceptance = s.ovrAtAcceptance := rfl
@[simp] theorem State.dropWrite_pmem : s.dropWrite.pmem = s.pmem := rfl
@[simp] theorem State.dropWrite_twf : s.dropWrite.twf = s.twf := rfl
@[simp] theorem State.dropWrite_twi : s.dropWrite.twi = s.twi := rfl
@[simp] theorem State.dropWrite_inputs : s.dropWrite.inputs = s.inputs := rfl
@[simp] theorem State.dropWrite_rdata : s.dropWrite.rdata = s.rdata := rfl
@[simp] theorem State.dropWrite_draws : s.dropWrite.draws = s.draws := rfl

/-! ### setIe -/

@[simp] theorem State.setIe_cfg (b : Bool) : (s.setIe b).cfg = s.cfg := rfl
@[simp] theorem State.setIe_regs (b : Bool) : (s.setIe b).regs = s.regs := rfl
@[simp] theorem State.setIe_eng (b : Bool) : (s.setIe b).eng = s.eng := rfl
@[simp] theorem State.setIe_root (b : Bool) : (s.setIe b).root = s.root := rfl
@[simp] theorem State.setIe_rootr (b : Bool) : (s.setIe b).rootr = s.rootr := rfl
@[simp] theorem State.setIe_twcov (b : Bool) : (s.setIe b).twcov = s.twcov := rfl
@[simp] theorem State.setIe_modv (b : Bool) : (s.setIe b).modv = s.modv := rfl
@[simp] theorem State.setIe_rootv (b : Bool) : (s.setIe b).rootv = s.rootv := rfl
@[simp] theorem State.setIe_mracc (b : Bool) : (s.setIe b).mracc = s.mracc := rfl
@[simp] theorem State.setIe_done (b : Bool) : (s.setIe b).done = s.done := rfl
@[simp] theorem State.setIe_err (b : Bool) : (s.setIe b).err = s.err := rfl
@[simp] theorem State.setIe_ovr (b : Bool) : (s.setIe b).ovr = s.ovr := rfl
@[simp] theorem State.setIe_errcode (b : Bool) : (s.setIe b).errcode = s.errcode := rfl
@[simp] theorem State.setIe_errcmd (b : Bool) : (s.setIe b).errcmd = s.errcmd := rfl
@[simp] theorem State.setIe_ie (b : Bool) : (s.setIe b).ie = b := rfl
@[simp] theorem State.setIe_cmdcnt (b : Bool) : (s.setIe b).cmdcnt = s.cmdcnt := rfl
@[simp] theorem State.setIe_cur (b : Bool) : (s.setIe b).cur = s.cur := rfl
@[simp] theorem State.setIe_ovrAtAcceptance (b : Bool) : (s.setIe b).ovrAtAcceptance = s.ovrAtAcceptance := rfl
@[simp] theorem State.setIe_pmem (b : Bool) : (s.setIe b).pmem = s.pmem := rfl
@[simp] theorem State.setIe_twf (b : Bool) : (s.setIe b).twf = s.twf := rfl
@[simp] theorem State.setIe_twi (b : Bool) : (s.setIe b).twi = s.twi := rfl
@[simp] theorem State.setIe_inputs (b : Bool) : (s.setIe b).inputs = s.inputs := rfl
@[simp] theorem State.setIe_rdata (b : Bool) : (s.setIe b).rdata = s.rdata := rfl
@[simp] theorem State.setIe_draws (b : Bool) : (s.setIe b).draws = s.draws := rfl

/-! ### accept -/

@[simp] theorem State.accept_cfg (v : Word) : (s.accept v).cfg = s.cfg := rfl
@[simp] theorem State.accept_regs (v : Word) : (s.accept v).regs = s.regs := rfl
@[simp] theorem State.accept_eng (v : Word) : (s.accept v).eng = s.eng := rfl
@[simp] theorem State.accept_root (v : Word) : (s.accept v).root = s.root := rfl
@[simp] theorem State.accept_rootr (v : Word) : (s.accept v).rootr = s.rootr := rfl
@[simp] theorem State.accept_twcov (v : Word) : (s.accept v).twcov = s.twcov := rfl
@[simp] theorem State.accept_modv (v : Word) : (s.accept v).modv = s.modv := rfl
@[simp] theorem State.accept_rootv (v : Word) : (s.accept v).rootv = s.rootv := rfl
@[simp] theorem State.accept_mracc (v : Word) : (s.accept v).mracc = s.mracc := rfl
@[simp] theorem State.accept_done (v : Word) : (s.accept v).done = false := rfl
@[simp] theorem State.accept_err (v : Word) : (s.accept v).err = s.err := rfl
@[simp] theorem State.accept_ovr (v : Word) : (s.accept v).ovr = s.ovr := rfl
@[simp] theorem State.accept_errcode (v : Word) : (s.accept v).errcode = s.errcode := rfl
@[simp] theorem State.accept_errcmd (v : Word) : (s.accept v).errcmd = s.errcmd := rfl
@[simp] theorem State.accept_ie (v : Word) : (s.accept v).ie = s.ie := rfl
@[simp] theorem State.accept_cmdcnt (v : Word) : (s.accept v).cmdcnt = s.cmdcnt := rfl
@[simp] theorem State.accept_cur (v : Word) : (s.accept v).cur = some v := rfl
@[simp] theorem State.accept_ovrAtAcceptance (v : Word) : (s.accept v).ovrAtAcceptance = s.ovr := rfl
@[simp] theorem State.accept_pmem (v : Word) : (s.accept v).pmem = s.pmem := rfl
@[simp] theorem State.accept_twf (v : Word) : (s.accept v).twf = s.twf := rfl
@[simp] theorem State.accept_twi (v : Word) : (s.accept v).twi = s.twi := rfl
@[simp] theorem State.accept_inputs (v : Word) : (s.accept v).inputs = s.inputs := rfl
@[simp] theorem State.accept_rdata (v : Word) : (s.accept v).rdata = s.rdata := rfl
@[simp] theorem State.accept_draws (v : Word) : (s.accept v).draws = s.draws := rfl

/-! ### placeCommand -/

@[simp] theorem State.placeCommand_cfg (v : Word) : (s.placeCommand v).cfg = s.cfg := rfl
@[simp] theorem State.placeCommand_regs (v : Word) : (s.placeCommand v).regs = s.regs := rfl
@[simp] theorem State.placeCommand_eng (v : Word) : (s.placeCommand v).eng = s.eng := rfl
@[simp] theorem State.placeCommand_root (v : Word) : (s.placeCommand v).root = s.root := rfl
@[simp] theorem State.placeCommand_rootr (v : Word) : (s.placeCommand v).rootr = s.rootr := rfl
@[simp] theorem State.placeCommand_twcov (v : Word) : (s.placeCommand v).twcov = s.twcov := rfl
@[simp] theorem State.placeCommand_modv (v : Word) : (s.placeCommand v).modv = s.modv := rfl
@[simp] theorem State.placeCommand_rootv (v : Word) : (s.placeCommand v).rootv = s.rootv := rfl
@[simp] theorem State.placeCommand_mracc (v : Word) : (s.placeCommand v).mracc = s.mracc := rfl
@[simp] theorem State.placeCommand_done (v : Word) : (s.placeCommand v).done = false := rfl
@[simp] theorem State.placeCommand_err (v : Word) : (s.placeCommand v).err = s.err := rfl
@[simp] theorem State.placeCommand_ovr (v : Word) : (s.placeCommand v).ovr = s.ovr := rfl
@[simp] theorem State.placeCommand_errcode (v : Word) : (s.placeCommand v).errcode = s.errcode := rfl
@[simp] theorem State.placeCommand_errcmd (v : Word) : (s.placeCommand v).errcmd = s.errcmd := rfl
@[simp] theorem State.placeCommand_ie (v : Word) : (s.placeCommand v).ie = s.ie := rfl
@[simp] theorem State.placeCommand_cmdcnt (v : Word) : (s.placeCommand v).cmdcnt = s.cmdcnt := rfl
@[simp] theorem State.placeCommand_cur (v : Word) : (s.placeCommand v).cur = some v := rfl
@[simp] theorem State.placeCommand_ovrAtAcceptance (v : Word) : (s.placeCommand v).ovrAtAcceptance = s.ovr := rfl
@[simp] theorem State.placeCommand_pmem (v : Word) : (s.placeCommand v).pmem = s.pmem := rfl
@[simp] theorem State.placeCommand_twf (v : Word) : (s.placeCommand v).twf = s.twf := rfl
@[simp] theorem State.placeCommand_twi (v : Word) : (s.placeCommand v).twi = s.twi := rfl
@[simp] theorem State.placeCommand_inputs (v : Word) : (s.placeCommand v).inputs = completionFirst s.inputs := rfl
@[simp] theorem State.placeCommand_rdata (v : Word) : (s.placeCommand v).rdata = s.rdata := rfl
@[simp] theorem State.placeCommand_draws (v : Word) : (s.placeCommand v).draws = s.draws := rfl

/-! ### resetNow -/

@[simp] theorem State.resetNow_cfg : s.resetNow.cfg = s.cfg := rfl
@[simp] theorem State.resetNow_regs : s.resetNow.regs = Vector.replicate 16 0 := rfl
@[simp] theorem State.resetNow_eng : s.resetNow.eng = { m := 0, m2 := 0, mprime := 0, one := 0, rsq := 0 } := rfl
@[simp] theorem State.resetNow_root : s.resetNow.root = 0 := rfl
@[simp] theorem State.resetNow_rootr : s.resetNow.rootr = 0 := rfl
@[simp] theorem State.resetNow_twcov : s.resetNow.twcov = 0 := rfl
@[simp] theorem State.resetNow_modv : s.resetNow.modv = false := rfl
@[simp] theorem State.resetNow_rootv : s.resetNow.rootv = false := rfl
@[simp] theorem State.resetNow_mracc : s.resetNow.mracc = false := rfl
@[simp] theorem State.resetNow_done : s.resetNow.done = false := rfl
@[simp] theorem State.resetNow_err : s.resetNow.err = false := rfl
@[simp] theorem State.resetNow_ovr : s.resetNow.ovr = false := rfl
@[simp] theorem State.resetNow_errcode : s.resetNow.errcode = 0 := rfl
@[simp] theorem State.resetNow_errcmd : s.resetNow.errcmd = 0 := rfl
@[simp] theorem State.resetNow_ie : s.resetNow.ie = false := rfl
@[simp] theorem State.resetNow_cmdcnt : s.resetNow.cmdcnt = 0 := rfl
@[simp] theorem State.resetNow_cur : s.resetNow.cur = none := rfl
@[simp] theorem State.resetNow_ovrAtAcceptance : s.resetNow.ovrAtAcceptance = false := rfl
@[simp] theorem State.resetNow_pmem : s.resetNow.pmem = [] := rfl
@[simp] theorem State.resetNow_twf : s.resetNow.twf = [] := rfl
@[simp] theorem State.resetNow_twi : s.resetNow.twi = [] := rfl
@[simp] theorem State.resetNow_inputs : s.resetNow.inputs = s.inputs := rfl
@[simp] theorem State.resetNow_rdata : s.resetNow.rdata = s.rdata := rfl
@[simp] theorem State.resetNow_draws : s.resetNow.draws = s.draws := rfl

end Sys2Proof.Machine
end

