-- ==== Sys2Proof/Laws/Ops.lean ====
section
/-! SUPPORT. For each shared operation, what it can do, said once: registers, the command's end (`finish`), the checks,
the range operations, the table growth, the element-wise loops. -/

-- One declaration at a time: as one text the package has too many theorems for a thread each within the memory limit.
set_option Elab.async false

namespace Sys2Proof.Machine

/-! ### Registers -/

@[simp] theorem x_setX_same (s : State) (r : Reg) (v : Word) : (s.setX r v).x r = v := by
  simp [State.x, State.setX, Vector.get_eq_getElem]

theorem x_setX_other (s : State) {r r' : Reg} (v : Word) (h : r' ≠ r) : (s.setX r v).x r' = s.x r' := by
  have hn : r.toNat ≠ r'.toNat := fun e => h (BitVec.eq_of_toNat_eq e.symm)
  simp [State.x, State.setX, Vector.get_eq_getElem, hn]

theorem x_setX (s : State) (r r' : Reg) (v : Word) : (s.setX r v).x r' = if r' = r then v else s.x r' := by
  split
  · next h => subst h; simp
  · next h => exact x_setX_other s v h

/-- Writing a register changes no field but the register file. -/
theorem setX_eq (s : State) (r : Reg) (v : Word) : s.setX r v = { s with regs := (s.setX r v).regs } := rfl

@[simp] theorem x_setP (s : State) (a : Nat) (v : Word) (r : Reg) : (s.setP a v).x r = s.x r := rfl
@[simp] theorem x_setPFree (s : State) (a : Nat) (r : Reg) : (s.setPFree a).x r = s.x r := rfl
@[simp] theorem x_freeRange (s : State) (a n : Nat) (r : Reg) : (s.freeRange a n).x r = s.x r := rfl
@[simp] theorem x_takeFault (s : State) (c : CmdFault) (r : Reg) : (s.takeFault c).x r = s.x r := rfl
@[simp] theorem x_clearFault (s : State) (r : Reg) : s.clearFault.x r = s.x r := rfl
@[simp] theorem x_retire (s : State) (r : Reg) : s.retire.x r = s.x r := rfl
@[simp] theorem x_accumulateWitness (s : State) (b : Bool) (r : Reg) : (s.accumulateWitness b).x r = s.x r := rfl
@[simp] theorem x_loadModulus (s : State) (m : Nat) (r : Reg) : (s.loadModulus m).x r = s.x r := rfl
@[simp] theorem x_loadRoot (s : State) (g : Word) (r : Reg) : (s.loadRoot g).x r = s.x r := rfl
@[simp] theorem x_growTables (s : State) (r : Reg) : s.growTables.x r = s.x r := rfl
@[simp] theorem x_dropWrite (s : State) (r : Reg) : s.dropWrite.x r = s.x r := rfl

/-- What a register write of a given or an unspecified value can do. -/
theorem setXValue_cases (s : State) (r : Reg) (v : Option Nat) :
    (∃ n, v = some n ∧ s.setXValue r v = s.setX r (BitVec.ofNat 64 n)) ∨
      (v = none ∧ s.setXValue r v = s.setXFree r) := by
  cases v with
  | some n => exact .inl ⟨n, rfl, rfl⟩
  | none => exact .inr ⟨rfl, rfl⟩

theorem x_setXFree_other (s : State) {r r' : Reg} (h : r' ≠ r) : (s.setXFree r).x r' = s.x r' :=
  x_setX_other _ _ h

/-- Whatever is written, a register write changes only the register file and the count of free values. -/
theorem setXValue_frame (s : State) (r : Reg) (v : Option Nat) :
    (∀ r', r' ≠ r → (s.setXValue r v).x r' = s.x r') ∧
      s.setXValue r v = { s with regs := (s.setXValue r v).regs, draws := (s.setXValue r v).draws } := by
  cases v with
  | some n => exact ⟨fun r' h => x_setX_other s _ h, rfl⟩
  | none => exact ⟨fun r' h => x_setXFree_other s h, rfl⟩

/-! ### The end of a command -/

@[simp] theorem finish_ok (s t : State) : finish s (.ok t) = .next t.retire := rfl
@[simp] theorem finish_error (s : State) (c : CmdFault) : finish s (.error c) = .next (s.takeFault c) := rfl

/-- A command ends in one of two ways: it retires, or it faults and leaves the state as it was but for the record
(40_system R100, 60_exceptions R272). -/
theorem finish_cases {s : State} {e : Effect} {r : Result} (h : finish s e = r) :
    (∃ t, e = .ok t ∧ r = .next t.retire) ∨ (∃ c, e = .error c ∧ r = .next (s.takeFault c)) := by
  cases e with
  | ok t => exact .inl ⟨t, rfl, h.symm⟩
  | error c => exact .inr ⟨c, rfl, h.symm⟩

@[simp] theorem check_true (c : CmdFault) : check c true = .ok () := rfl
@[simp] theorem check_false (c : CmdFault) : check c false = .error c := rfl

/-- A check in front of the rest of a command. -/
theorem check_bind {α : Type} (c : CmdFault) (b : Bool) (k : Unit → Except CmdFault α) :
    (check c b >>= k) = if b then k () else .error c := by cases b <;> rfl

/-- What it takes that a command's checks and the rest of it succeed. -/
theorem bind_eq_ok {ε α β : Type} {m : Except ε α} {k : α → Except ε β} {b : β} :
    (m >>= k) = .ok b ↔ ∃ a, m = .ok a ∧ k a = .ok b := by
  constructor
  · intro h
    cases m with
    | ok a => exact ⟨a, rfl, h⟩
    | error e => cases h
  · rintro ⟨a, rfl, h⟩
    exact h

theorem check_eq_ok {c : CmdFault} {b : Bool} {u : Unit} : check c b = .ok u ↔ b = true := by
  cases b <;> simp [check]

/-- The checks of a transform, in order (60_exceptions R271). -/
theorem needTransform_eq_ok {s : State} {logn : LogLen} {u : Unit} :
    s.needTransform logn = .ok u ↔ s.modv = true ∧ s.rootv = true ∧ logn.toNat ≤ s.cfg.plog := by
  simp only [State.needTransform, State.needEngine, State.needRoot, State.needLength, bind_eq_ok, check_eq_ok,
    decide_eq_true_eq]
  exact ⟨fun ⟨_, h1, _, h2, h3⟩ => ⟨h1, h2, h3⟩, fun ⟨h1, h2, h3⟩ => ⟨(), h1, (), h2, h3⟩⟩

/-- An operand range is inside PMEM when it is empty or ends at or below 2^PLOG (20_memory R63). -/
theorem inRange_iff {s : State} {base len : Nat} :
    s.inRange base len = true ↔ len = 0 ∨ base + len ≤ 2 ^ s.cfg.plog := by
  rw [State.inRange, Bool.or_eq_true, beq_iff_eq]
  exact or_congr Iff.rfl decide_eq_true_iff

theorem needRange_eq_ok {s : State} {base len : Nat} {u : Unit} :
    s.needRange base len = .ok u ↔ len = 0 ∨ base + len ≤ 2 ^ s.cfg.plog := by
  rw [State.needRange, check_eq_ok, inRange_iff]

/-! ### Residue operands -/

theorem res_iff {e : Engine} {v : Nat} : e.res v = true ↔ v < e.m2.toNat := by simp [Engine.res]

/-- A register is a residue operand exactly when its word is below MOD2 (41_montgomery R122). -/
theorem residue_eq_some {s : State} {r : Reg} {v : Nat} :
    s.residue r = some v ↔ v = (s.x r).toNat ∧ (s.x r).toNat < s.eng.m2.toNat := by
  simp only [State.residue, res_iff]
  split
  · next h => exact ⟨fun e => ⟨(Option.some.inj e).symm, h⟩, fun e => by rw [e.1]⟩
  · next h => simp [h]

theorem residue_eq_none {s : State} {r : Reg} : s.residue r = none ↔ s.eng.m2.toNat ≤ (s.x r).toNat := by
  simp only [State.residue, res_iff]
  split
  · next h => simp [h]
  · next h => simp only [true_iff]; omega

/-- A PMEM word is a residue element exactly when it has been written and is below MOD2 (46_poly_elementwise R249). -/
theorem residueAt_eq_some {s : State} {a v : Nat} :
    s.residueAt a = some v ↔ ∃ w, peek s.pmem a = some w ∧ v = w.toNat ∧ w.toNat < s.eng.m2.toNat := by
  simp only [State.residueAt]
  cases h : peek s.pmem a with
  | none => simp
  | some w =>
    simp only [res_iff]
    split
    · next hw => simp [hw, eq_comm]
    · next hw => simp [hw]

/-- A buffer is valid exactly when each of its words is a residue element (45_ntt R217). -/
theorem bufferValid_iff {s : State} {base n : Nat} :
    s.bufferValid base n = true ↔ ∀ j < n, ∃ w, peek s.pmem (base + j) = some w ∧ w.toNat < s.eng.m2.toNat := by
  simp only [State.bufferValid, List.all_eq_true, List.mem_range]
  refine forall₂_congr fun j _ => ?_
  rw [Option.isSome_iff_exists]
  constructor
  · rintro ⟨v, hv⟩
    obtain ⟨w, h1, _, h3⟩ := residueAt_eq_some.1 hv
    exact ⟨w, h1, h3⟩
  · rintro ⟨w, h1, h2⟩
    exact ⟨w.toNat, residueAt_eq_some.2 ⟨w, h1, rfl, h2⟩⟩

/-! ### Buffers keep their length -/

@[simp] theorem length_butterflyForward (e : Engine) (w len : Nat) (p : List Nat) (j : Nat) :
    (e.butterflyForward w len p j).length = p.length := by simp [Engine.butterflyForward]

@[simp] theorem length_butterflyInverse (e : Engine) (w len : Nat) (p : List Nat) (j : Nat) :
    (e.butterflyInverse w len p j).length = p.length := by simp [Engine.butterflyInverse]

/-- A loop whose every step keeps the length keeps it. -/
theorem length_foldl {α : Type} {f : List Nat → α → List Nat} (hf : ∀ p a, (f p a).length = p.length) (as : List α) :
    ∀ p, (as.foldl f p).length = p.length := by
  induction as with
  | nil => intro p; rfl
  | cons a as ih => intro p; rw [List.foldl_cons, ih, hf]

theorem length_stage {b : Nat → Nat → List Nat → Nat → List Nat} (hb : ∀ w len p j, (b w len p j).length = p.length)
    (table : WordMem) (n len : Nat) (p : List Nat) : (stage b table n len p).length = p.length :=
  length_foldl (fun p _ => length_foldl (fun p _ => hb _ _ p _) _ p) _ p

@[simp] theorem length_fntt (e : Engine) (table : WordMem) (logn : Nat) (p : List Nat) :
    (e.fntt table logn p).length = p.length :=
  length_foldl (fun p _ => length_stage (length_butterflyForward e) _ _ _ p) _ p

@[simp] theorem length_inttStages (e : Engine) (table : WordMem) (logn : Nat) (p : List Nat) :
    (e.inttStages table logn p).length = p.length :=
  length_foldl (fun p _ => length_stage (length_butterflyInverse e) _ _ _ p) _ p

@[simp] theorem length_intt (e : Engine) (table : WordMem) (logn : Nat) (p : List Nat) :
    (e.intt table logn p).length = p.length := by
  unfold Engine.intt
  split <;> simp

/-! ### Loops over the state -/

/-- A loop keeps whatever every step keeps. -/
theorem foldl_keeps {α β : Type} {P : β → Prop} {f : β → α → β} (as : List α) (hf : ∀ b, ∀ a ∈ as, P b → P (f b a)) :
    ∀ b, P b → P (as.foldl f b) := by
  induction as with
  | nil => intro b h; exact h
  | cons a as ih =>
    intro b h
    exact ih (fun b a ha => hf b a (List.mem_cons_of_mem _ ha)) _ (hf b a List.mem_cons_self h)

/-- t is s but for PMEM and the count of free values. -/
def PmemOnly (s t : State) : Prop := t = { s with pmem := t.pmem, draws := t.draws }

theorem PmemOnly.rfl' (s : State) : PmemOnly s s := rfl

theorem PmemOnly.trans {s t u : State} (h1 : PmemOnly s t) (h2 : PmemOnly t u) : PmemOnly s u := by
  unfold PmemOnly at *
  rw [h2, h1]

theorem State.setP_pmemOnly (s : State) (a : Nat) (v : Word) : PmemOnly s (s.setP a v) := rfl

theorem setPValue_pmemOnly (s : State) (a : Nat) (v : Option Nat) : PmemOnly s (s.setPValue a v) := by
  cases v <;> rfl

/-- What a PMEM write of a given or an unspecified value leaves at each address. -/
theorem peek_setPValue (s : State) (a b : Nat) (v : Option Nat) :
    peek (s.setPValue a v).pmem b =
      if b = a then some (match v with | some n => BitVec.ofNat 64 n | none => Config.freeWord s.draws)
      else peek s.pmem b := by
  cases v <;> exact peek_poke _ _ _ _

/-- What one step of the vector form can do: it writes element i of A, and spoils its address exactly when the value is
unspecified (46_poly_elementwise R249, 93_implementation_defined U7). -/
theorem vectorStep_eq (op : Nat → Nat → Nat) (a b : Nat) (p : State × List Nat) (i : Nat) :
    vectorStep op a b p i = (p.1.setPValue (a + i) (vectorValue op a b p.1 p.2 i),
      if (vectorValue op a b p.1 p.2 i).isNone then (a + i) :: p.2 else p.2) := by
  unfold vectorStep
  cases vectorValue op a b p.1 p.2 i <;> rfl

/-- An element of the vector form has a value exactly when B's word is not spoiled and both words are residues. -/
theorem vectorValue_eq_some {op : Nat → Nat → Nat} {a b : Nat} {s : State} {spoiled : List Nat} {i v : Nat} :
    vectorValue op a b s spoiled i = some v ↔
      b + i ∉ spoiled ∧ ∃ u w, s.residueAt (a + i) = some u ∧ s.residueAt (b + i) = some w ∧ v = op u w := by
  unfold vectorValue
  split
  · next h => simp [h]
  · next h =>
    simp only [h, not_false_eq_true, true_and, Option.bind_eq_some_iff, Option.map_eq_some_iff]
    exact ⟨fun ⟨u, hu, w, hw, hv⟩ => ⟨u, w, hu, hw, hv.symm⟩, fun ⟨u, w, hu, hw, hv⟩ => ⟨u, hu, w, hw, hv.symm⟩⟩

theorem vectorForm_pmemOnly (op : Nat → Nat → Nat) (a b len : Nat) (s : State) :
    PmemOnly s (vectorForm op a b len s) := by
  refine foldl_keeps (P := fun p : State × List Nat => PmemOnly s p.1) _ (fun p i _ h => ?_) (s, []) (PmemOnly.rfl' s)
  rw [vectorStep_eq]
  exact h.trans (setPValue_pmemOnly _ _ _)

/-- The vector form leaves every address outside the destination alone (46_poly_elementwise R249). -/
theorem vectorForm_outside (op : Nat → Nat → Nat) (a b len : Nat) (s : State) (c : Nat) (h : c < a ∨ a + len ≤ c) :
    peek (vectorForm op a b len s).pmem c = peek s.pmem c := by
  refine foldl_keeps (P := fun p : State × List Nat => peek p.1.pmem c = peek s.pmem c) _ (fun p i hi hp => ?_) (s, []) rfl
  have := List.mem_range.1 hi
  rw [vectorStep_eq, peek_setPValue, if_neg (by omega)]
  exact hp

theorem scalarForm_pmemOnly (op : Nat → Nat → Nat) (a len : Nat) (scalar : Option Nat) (s : State) :
    PmemOnly s (scalarForm op a len scalar s) := by
  cases scalar with
  | none => rfl
  | some t => exact foldl_keeps _ (fun _ _ _ h => h.trans (setPValue_pmemOnly _ _ _)) s (PmemOnly.rfl' s)

/-- The scalar form leaves every address outside the destination alone (46_poly_elementwise R249). -/
theorem scalarForm_outside (op : Nat → Nat → Nat) (a len : Nat) (scalar : Option Nat) (s : State) (c : Nat)
    (h : c < a ∨ a + len ≤ c) : peek (scalarForm op a len scalar s).pmem c = peek s.pmem c := by
  cases scalar with
  | none => exact peek_storeRange_outside _ _ _ _ (by simpa using h)
  | some t =>
    refine foldl_keeps (P := fun u => peek u.pmem c = peek s.pmem c) _ (fun u i hi hu => ?_) s rfl
    have := List.mem_range.1 hi
    rw [scalarStep, peek_setPValue, if_neg (by omega)]
    exact hu

theorem pointwiseAt_pmemOnly (s : State) (a b n : Nat) : PmemOnly s (s.pointwiseAt a b n) :=
  foldl_keeps (P := fun t => PmemOnly s t) _ (fun t _ _ h => h.trans (t.setP_pmemOnly _ _)) s (PmemOnly.rfl' s)

theorem pointwiseAt_outside (s : State) (a b n c : Nat) (h : c < a ∨ a + n ≤ c) :
    peek (s.pointwiseAt a b n).pmem c = peek s.pmem c := by
  refine foldl_keeps (P := fun t => peek t.pmem c = peek s.pmem c) _ (fun t i hi ht => ?_) s rfl
  have := List.mem_range.1 hi
  rw [State.setP_pmem, peek_poke_other _ _ (by omega)]
  exact ht

/-! ### The twiddle tables -/

/-- t is s but for the twiddle tables and their coverage. -/
def TablesOnly (s t : State) : Prop := t = { s with twf := t.twf, twi := t.twi, twcov := t.twcov }

theorem TablesOnly.trans {s t u : State} (h1 : TablesOnly s t) (h2 : TablesOnly t u) : TablesOnly s u := by
  unfold TablesOnly at *
  rw [h2, h1]

/-- Precompute changes only the tables and the coverage (45_ntt R212). -/
theorem precomputeLoop_tablesOnly (fuel n : Nat) : ∀ s, TablesOnly s (State.precomputeLoop fuel n s) := by
  induction fuel with
  | zero => intro s; rfl
  | succ fuel ih =>
    intro s
    rw [State.precomputeLoop]
    split
    · exact TablesOnly.trans (show TablesOnly s s.growTables from rfl) (ih _)
    · rfl

theorem precompute_tablesOnly (s : State) (logn : LogLen) : TablesOnly s (s.precompute logn) :=
  precomputeLoop_tablesOnly _ _ s

/-- One growth writes only the new half: entries below h stay (45_ntt R212). -/
theorem growTable_below (e : Engine) (table : WordMem) (h root k : Nat) (hk : k < h) :
    peek (e.growTable table h root) k = peek table k := by
  refine foldl_keeps (P := fun t => peek t k = peek table k) _ (fun t i _ ht => ?_) table rfl
  rw [peek_poke_other _ _ (by omega)]
  exact ht

theorem growTable_wf (e : Engine) {table : WordMem} (hw : table.wf) (h root : Nat) : (e.growTable table h root).wf :=
  foldl_keeps (P := fun t => t.wf) _ (fun _ _ _ ht => poke_wf ht _ _) table hw

/-- The first n entries of a growth, n at most h. -/
theorem growTable_prefix (e : Engine) (table : WordMem) (h root : Nat) :
    ∀ n, n ≤ h → ∀ k, peek ((List.range n).foldl
        (fun t i => poke t (h + i) (BitVec.ofNat 64 (e.mul (wordAt t i) root))) table) k =
      if h ≤ k ∧ k < h + n then some (BitVec.ofNat 64 (e.mul (wordAt table (k - h)) root)) else peek table k := by
  intro n
  induction n with
  | zero => intro _ k; rw [if_neg (by omega)]; rfl
  | succ n ih =>
    intro hn k
    have before := ih (by omega)
    have source : wordAt ((List.range n).foldl
        (fun t i => poke t (h + i) (BitVec.ofNat 64 (e.mul (wordAt t i) root))) table) n = wordAt table n := by
      rw [wordAt, wordAt, before n, if_neg (by omega)]
    rw [List.range_succ, List.foldl_append, List.foldl_cons, List.foldl_nil, peek_poke, source, before k]
    by_cases hk : k = h + n
    · subst hk
      rw [if_pos rfl, if_pos ⟨by omega, by omega⟩, Nat.add_sub_cancel_left]
    · rw [if_neg hk]
      exact if_congr ⟨fun hc => ⟨hc.1, by omega⟩, fun hc => ⟨hc.1, by omega⟩⟩ rfl rfl

/-- One growth writes `Mul(T[k], root)` at h + k for every k below h (45_ntt R212). -/
theorem growTable_new (e : Engine) (table : WordMem) (h root k : Nat) (hk : k < h) :
    peek (e.growTable table h root) (h + k) = some (BitVec.ofNat 64 (e.mul (wordAt table k) root)) := by
  rw [Engine.growTable, growTable_prefix e table h root h (le_refl h), if_pos ⟨by omega, by omega⟩,
    Nat.add_sub_cancel_left]

/-- One growth writes nothing beyond the new half (45_ntt R212). -/
theorem growTable_beyond (e : Engine) (table : WordMem) (h root k : Nat) (hk : 2 * h ≤ k) :
    peek (e.growTable table h root) k = peek table k := by
  rw [Engine.growTable, growTable_prefix e table h root h (le_refl h), if_neg (by omega)]

/-- Precompute does nothing when the tables cover the length already (45_ntt R212). -/
theorem precompute_covered {s : State} {logn : LogLen} (h : 2 ^ logn.toNat ≤ s.twcov.toNat) : s.precompute logn = s := by
  have hn : ¬ s.twcov.toNat < transformLength logn := by
    unfold transformLength
    omega
  unfold State.precompute
  cases logn.toNat with
  | zero => rfl
  | succ n => rw [State.precomputeLoop, if_neg hn]

/-! ### The transforms -/

theorem forwardTransform_pmemOnly (s : State) (base : Nat) (logn : LogLen) :
    PmemOnly s (s.forwardTransform base logn) := by
  unfold State.forwardTransform
  split <;> rfl

theorem inverseTransform_pmemOnly (s : State) (base : Nat) (logn : LogLen) :
    PmemOnly s (s.inverseTransform base logn) := by
  unfold State.inverseTransform
  split <;> rfl

theorem freeRange_outside (s : State) (a n c : Nat) (h : c < a ∨ a + n ≤ c) :
    peek (s.freeRange a n).pmem c = peek s.pmem c :=
  peek_storeRange_outside _ _ _ _ (by simpa using h)

theorem fnttAt_outside (s : State) (base logn c : Nat) (h : c < base ∨ base + 2 ^ logn ≤ c) :
    peek (s.fnttAt base logn).pmem c = peek s.pmem c :=
  peek_storeNats_outside _ _ _ _ (by simpa using h)

theorem inttAt_outside (s : State) (base logn c : Nat) (h : c < base ∨ base + 2 ^ logn ≤ c) :
    peek (s.inttAt base logn).pmem c = peek s.pmem c :=
  peek_storeNats_outside _ _ _ _ (by simpa using h)

theorem forwardTransform_outside (s : State) (base : Nat) (logn : LogLen) (c : Nat)
    (h : c < base ∨ base + 2 ^ logn.toNat ≤ c) : peek (s.forwardTransform base logn).pmem c = peek s.pmem c := by
  unfold State.forwardTransform
  split
  · exact fnttAt_outside s base logn.toNat c h
  · exact freeRange_outside s base _ c h

theorem inverseTransform_outside (s : State) (base : Nat) (logn : LogLen) (c : Nat)
    (h : c < base ∨ base + 2 ^ logn.toNat ≤ c) : peek (s.inverseTransform base logn).pmem c = peek s.pmem c := by
  unfold State.inverseTransform
  split
  · exact inttAt_outside s base logn.toNat c h
  · exact freeRange_outside s base _ c h

theorem convolve_pmemOnly (s : State) (a b : Nat) (logn : LogLen) : PmemOnly s (s.convolve a b logn) := by
  unfold State.convolve
  split
  · exact (PmemOnly.trans (t := (s.fnttAt a logn.toNat).fnttAt b logn.toNat) rfl
      (pointwiseAt_pmemOnly _ _ _ _)).trans rfl
  · rfl

theorem convolve_outside (s : State) (a b : Nat) (logn : LogLen) (c : Nat) (ha : c < a ∨ a + 2 ^ logn.toNat ≤ c)
    (hb : c < b ∨ b + 2 ^ logn.toNat ≤ c) : peek (s.convolve a b logn).pmem c = peek s.pmem c := by
  unfold State.convolve transformLength
  split
  · rw [inttAt_outside _ _ _ _ ha, pointwiseAt_outside _ _ _ _ _ ha, fnttAt_outside _ _ _ _ hb,
      fnttAt_outside _ _ _ _ ha]
  · rw [freeRange_outside _ _ _ _ hb, freeRange_outside _ _ _ _ ha]

end Sys2Proof.Machine
end

