-- ==== Sys2Proof/Laws/PerInstr.lean ====
section
/-! SUPPORT. Per-instruction laws: the word the encoder writes is selected by the instruction's own row of the opcode
map (30_encoding R86). -/

-- One declaration at a time: as one text the package has too many theorems for a thread each within the memory limit.
set_option Elab.async false

namespace Sys2Proof.Laws

/-- The row of 30_encoding R86 a command stands in. -/
def rowOf : Instr → OpcodeRow
  | .nop => ⟨0x00000000, 0xFFFFFFFF⟩
  | .li _ _ => ⟨0x01000000, 0xFF0F0000⟩
  | .lis _ _ => ⟨0x02000000, 0xFF0F0000⟩
  | .mov _ _ => ⟨0x03000000, 0xFF00FFFF⟩
  | .rdc _ _ => ⟨0x04000000, 0xFF0FFF00⟩
  | .setmod _ => ⟨0x10000000, 0xFFF0FFFF⟩
  | .setroot _ => ⟨0x11000000, 0xFFF0FFFF⟩
  | .mfrom _ _ => ⟨0x20000000, 0xFF00FFFF⟩
  | .mto _ _ => ⟨0x21000000, 0xFF00FFFF⟩
  | .madd _ _ _ => ⟨0x22000000, 0xFF000FFF⟩
  | .msub _ _ _ => ⟨0x23000000, 0xFF000FFF⟩
  | .mmul _ _ _ => ⟨0x24000000, 0xFF000FFF⟩
  | .mneg _ _ => ⟨0x25000000, 0xFF00FFFF⟩
  | .mredc _ _ _ => ⟨0x26000000, 0xFF000FFF⟩
  | .meq _ _ _ => ⟨0x28000000, 0xFF000FFF⟩
  | .mcmp _ _ _ => ⟨0x29000000, 0xFF000FFF⟩
  | .mpowm _ _ _ _ => ⟨0x30000000, 0xFF0000FF⟩
  | .mpow _ _ _ => ⟨0x31000000, 0xFF000FFF⟩
  | .minv _ _ => ⟨0x32000000, 0xFF00FFFF⟩
  | .mdiv _ _ _ => ⟨0x33000000, 0xFF000FFF⟩
  | .pld _ _ => ⟨0x40000000, 0xFF00FFFF⟩
  | .pst _ _ => ⟨0x41000000, 0xFFF00FFF⟩
  | .precomp _ => ⟨0x42000000, 0xFFFFFFC0⟩
  | .fntt _ _ => ⟨0x43000000, 0xFFF0FFC0⟩
  | .intt _ _ => ⟨0x44000000, 0xFFF0FFC0⟩
  | .pmul _ _ _ => ⟨0x45000000, 0xFFF00FC0⟩
  | .phad _ _ _ => ⟨0x46000000, 0xFFF000FF⟩
  | .pvadd _ _ _ => ⟨0x48000000, 0xFFF000FF⟩
  | .pvsub _ _ _ => ⟨0x49000000, 0xFFF000FF⟩
  | .psadd _ _ _ => ⟨0x4A000000, 0xFFF000FF⟩
  | .pssub _ _ _ => ⟨0x4B000000, 0xFFF000FF⟩
  | .psmul _ _ _ => ⟨0x4C000000, 0xFFF000FF⟩
  | .psdiv _ _ _ => ⟨0x4D000000, 0xFFF000FF⟩
  | .isprime _ _ => ⟨0x50000000, 0xFF00FFFF⟩
  | .mrwit _ _ => ⟨0x51000000, 0xFF00FFFF⟩

/-- The command's row is one of the opcode map's and selects the word the encoder writes. -/
def RowSelects.Statement (i : Instr) : Prop := rowOf i ∈ opcodeRows ∧ (rowOf i).selects (encode i) = true

/-! ### The four formats under a mask given field by field -/

theorem encodeR_and (op : BitVec 8) (rd ra rb rc m1 m2 m3 m4 : Reg) :
    encodeR op rd ra rb rc &&& (0xFF#8 ++ m1 ++ m2 ++ m3 ++ m4 ++ 0xFF#8 : BitVec 32) = encodeR op (rd &&& m1) (ra &&& m2) (rb &&& m3) (rc &&& m4) := by
  apply BitVec.eq_of_getLsbD_eq; intro i hi
  simp only [encodeR, BitVec.getLsbD_and, BitVec.getLsbD_append]
  interval_cases i <;> simp

theorem encodeI_and (op : BitVec 8) (rd : Reg) (imm16 : BitVec 16) :
    encodeI op rd imm16 &&& (0xFF#8 ++ 0#4 ++ 0xF#4 ++ 0#16 : BitVec 32) = encodeI op 0 0 := by
  apply BitVec.eq_of_getLsbD_eq; intro i hi
  simp only [encodeI, BitVec.getLsbD_and, BitVec.getLsbD_append]
  interval_cases i <;> simp

theorem encodeC_and (op : BitVec 8) (rd : Reg) (creg : CregNum) :
    encodeC op rd creg &&& (0xFF#8 ++ 0#4 ++ 0xFFF#12 ++ 0#8 : BitVec 32) = encodeC op 0 0 := by
  apply BitVec.eq_of_getLsbD_eq; intro i hi
  simp only [encodeC, BitVec.getLsbD_and, BitVec.getLsbD_append]
  interval_cases i <;> simp

theorem encodeN_and (op : BitVec 8) (ra rb m2 m3 : Reg) (logn : LogLen) :
    encodeN op ra rb logn &&& (0xFF#8 ++ 0xF#4 ++ m2 ++ m3 ++ 0x3F#6 ++ 0#6 : BitVec 32) = encodeN op (ra &&& m2) (rb &&& m3) 0 := by
  apply BitVec.eq_of_getLsbD_eq; intro i hi
  simp only [encodeN, BitVec.getLsbD_and, BitVec.getLsbD_append]
  interval_cases i <;> simp

/-- What `selects` says of a row's columns. -/
theorem selects_of_and {r : OpcodeRow} {w : BitVec 32} (h : w &&& r.mask = r.matchBits) : r.selects w = true := by
  simp [OpcodeRow.selects, h]

/-! ### The rows -/

theorem RowSelects.nop : RowSelects.Statement (.nop) :=
  ⟨by simp [rowOf, opcodeRows],
    selects_of_and ((encodeR_and 0x00 0#4 0#4 0#4 0#4 0xF#4 0xF#4 0xF#4 0xF#4).trans (by simp; rfl))⟩

theorem RowSelects.li (rd : Reg) (imm16 : BitVec 16) : RowSelects.Statement (.li rd imm16) :=
  ⟨by simp [rowOf, opcodeRows],
    selects_of_and ((encodeI_and 0x01 rd imm16).trans (by simp; rfl))⟩

theorem RowSelects.lis (rd : Reg) (imm16 : BitVec 16) : RowSelects.Statement (.lis rd imm16) :=
  ⟨by simp [rowOf, opcodeRows],
    selects_of_and ((encodeI_and 0x02 rd imm16).trans (by simp; rfl))⟩

theorem RowSelects.mov (rd : Reg) (ra : Reg) : RowSelects.Statement (.mov rd ra) :=
  ⟨by simp [rowOf, opcodeRows],
    selects_of_and ((encodeR_and 0x03 rd ra 0#4 0#4 0#4 0#4 0xF#4 0xF#4).trans (by simp; rfl))⟩

theorem RowSelects.rdc (rd : Reg) (creg : CregNum) : RowSelects.Statement (.rdc rd creg) :=
  ⟨by simp [rowOf, opcodeRows],
    selects_of_and ((encodeC_and 0x04 rd creg).trans (by simp; rfl))⟩

theorem RowSelects.setmod (ra : Reg) : RowSelects.Statement (.setmod ra) :=
  ⟨by simp [rowOf, opcodeRows],
    selects_of_and ((encodeR_and 0x10 0#4 ra 0#4 0#4 0xF#4 0#4 0xF#4 0xF#4).trans (by simp; rfl))⟩

theorem RowSelects.setroot (ra : Reg) : RowSelects.Statement (.setroot ra) :=
  ⟨by simp [rowOf, opcodeRows],
    selects_of_and ((encodeR_and 0x11 0#4 ra 0#4 0#4 0xF#4 0#4 0xF#4 0xF#4).trans (by simp; rfl))⟩

theorem RowSelects.mfrom (rd : Reg) (ra : Reg) : RowSelects.Statement (.mfrom rd ra) :=
  ⟨by simp [rowOf, opcodeRows],
    selects_of_and ((encodeR_and 0x20 rd ra 0#4 0#4 0#4 0#4 0xF#4 0xF#4).trans (by simp; rfl))⟩

theorem RowSelects.mto (rd : Reg) (ra : Reg) : RowSelects.Statement (.mto rd ra) :=
  ⟨by simp [rowOf, opcodeRows],
    selects_of_and ((encodeR_and 0x21 rd ra 0#4 0#4 0#4 0#4 0xF#4 0xF#4).trans (by simp; rfl))⟩

theorem RowSelects.madd (rd : Reg) (ra : Reg) (rb : Reg) : RowSelects.Statement (.madd rd ra rb) :=
  ⟨by simp [rowOf, opcodeRows],
    selects_of_and ((encodeR_and 0x22 rd ra rb 0#4 0#4 0#4 0#4 0xF#4).trans (by simp; rfl))⟩

theorem RowSelects.msub (rd : Reg) (ra : Reg) (rb : Reg) : RowSelects.Statement (.msub rd ra rb) :=
  ⟨by simp [rowOf, opcodeRows],
    selects_of_and ((encodeR_and 0x23 rd ra rb 0#4 0#4 0#4 0#4 0xF#4).trans (by simp; rfl))⟩

theorem RowSelects.mmul (rd : Reg) (ra : Reg) (rb : Reg) : RowSelects.Statement (.mmul rd ra rb) :=
  ⟨by simp [rowOf, opcodeRows],
    selects_of_and ((encodeR_and 0x24 rd ra rb 0#4 0#4 0#4 0#4 0xF#4).trans (by simp; rfl))⟩

theorem RowSelects.mneg (rd : Reg) (ra : Reg) : RowSelects.Statement (.mneg rd ra) :=
  ⟨by simp [rowOf, opcodeRows],
    selects_of_and ((encodeR_and 0x25 rd ra 0#4 0#4 0#4 0#4 0xF#4 0xF#4).trans (by simp; rfl))⟩

theorem RowSelects.mredc (rd : Reg) (ra : Reg) (rb : Reg) : RowSelects.Statement (.mredc rd ra rb) :=
  ⟨by simp [rowOf, opcodeRows],
    selects_of_and ((encodeR_and 0x26 rd ra rb 0#4 0#4 0#4 0#4 0xF#4).trans (by simp; rfl))⟩

theorem RowSelects.meq (rd : Reg) (ra : Reg) (rb : Reg) : RowSelects.Statement (.meq rd ra rb) :=
  ⟨by simp [rowOf, opcodeRows],
    selects_of_and ((encodeR_and 0x28 rd ra rb 0#4 0#4 0#4 0#4 0xF#4).trans (by simp; rfl))⟩

theorem RowSelects.mcmp (rd : Reg) (ra : Reg) (rb : Reg) : RowSelects.Statement (.mcmp rd ra rb) :=
  ⟨by simp [rowOf, opcodeRows],
    selects_of_and ((encodeR_and 0x29 rd ra rb 0#4 0#4 0#4 0#4 0xF#4).trans (by simp; rfl))⟩

theorem RowSelects.mpowm (rd : Reg) (ra : Reg) (rb : Reg) (rc : Reg) : RowSelects.Statement (.mpowm rd ra rb rc) :=
  ⟨by simp [rowOf, opcodeRows],
    selects_of_and ((encodeR_and 0x30 rd ra rb rc 0#4 0#4 0#4 0#4).trans (by simp; rfl))⟩

theorem RowSelects.mpow (rd : Reg) (ra : Reg) (rb : Reg) : RowSelects.Statement (.mpow rd ra rb) :=
  ⟨by simp [rowOf, opcodeRows],
    selects_of_and ((encodeR_and 0x31 rd ra rb 0#4 0#4 0#4 0#4 0xF#4).trans (by simp; rfl))⟩

theorem RowSelects.minv (rd : Reg) (ra : Reg) : RowSelects.Statement (.minv rd ra) :=
  ⟨by simp [rowOf, opcodeRows],
    selects_of_and ((encodeR_and 0x32 rd ra 0#4 0#4 0#4 0#4 0xF#4 0xF#4).trans (by simp; rfl))⟩

theorem RowSelects.mdiv (rd : Reg) (ra : Reg) (rb : Reg) : RowSelects.Statement (.mdiv rd ra rb) :=
  ⟨by simp [rowOf, opcodeRows],
    selects_of_and ((encodeR_and 0x33 rd ra rb 0#4 0#4 0#4 0#4 0xF#4).trans (by simp; rfl))⟩

theorem RowSelects.pld (rd : Reg) (ra : Reg) : RowSelects.Statement (.pld rd ra) :=
  ⟨by simp [rowOf, opcodeRows],
    selects_of_and ((encodeR_and 0x40 rd ra 0#4 0#4 0#4 0#4 0xF#4 0xF#4).trans (by simp; rfl))⟩

theorem RowSelects.pst (ra : Reg) (rb : Reg) : RowSelects.Statement (.pst ra rb) :=
  ⟨by simp [rowOf, opcodeRows],
    selects_of_and ((encodeR_and 0x41 0#4 ra rb 0#4 0xF#4 0#4 0#4 0xF#4).trans (by simp; rfl))⟩

theorem RowSelects.precomp (logn : LogLen) : RowSelects.Statement (.precomp logn) :=
  ⟨by simp [rowOf, opcodeRows],
    selects_of_and ((encodeN_and 0x42 0#4 0#4 0xF#4 0xF#4 logn).trans (by simp; rfl))⟩

theorem RowSelects.fntt (ra : Reg) (logn : LogLen) : RowSelects.Statement (.fntt ra logn) :=
  ⟨by simp [rowOf, opcodeRows],
    selects_of_and ((encodeN_and 0x43 ra 0#4 0#4 0xF#4 logn).trans (by simp; rfl))⟩

theorem RowSelects.intt (ra : Reg) (logn : LogLen) : RowSelects.Statement (.intt ra logn) :=
  ⟨by simp [rowOf, opcodeRows],
    selects_of_and ((encodeN_and 0x44 ra 0#4 0#4 0xF#4 logn).trans (by simp; rfl))⟩

theorem RowSelects.pmul (ra : Reg) (rb : Reg) (logn : LogLen) : RowSelects.Statement (.pmul ra rb logn) :=
  ⟨by simp [rowOf, opcodeRows],
    selects_of_and ((encodeN_and 0x45 ra rb 0#4 0#4 logn).trans (by simp; rfl))⟩

theorem RowSelects.phad (ra : Reg) (rb : Reg) (rc : Reg) : RowSelects.Statement (.phad ra rb rc) :=
  ⟨by simp [rowOf, opcodeRows],
    selects_of_and ((encodeR_and 0x46 0#4 ra rb rc 0xF#4 0#4 0#4 0#4).trans (by simp; rfl))⟩

theorem RowSelects.pvadd (ra : Reg) (rb : Reg) (rc : Reg) : RowSelects.Statement (.pvadd ra rb rc) :=
  ⟨by simp [rowOf, opcodeRows],
    selects_of_and ((encodeR_and 0x48 0#4 ra rb rc 0xF#4 0#4 0#4 0#4).trans (by simp; rfl))⟩

theorem RowSelects.pvsub (ra : Reg) (rb : Reg) (rc : Reg) : RowSelects.Statement (.pvsub ra rb rc) :=
  ⟨by simp [rowOf, opcodeRows],
    selects_of_and ((encodeR_and 0x49 0#4 ra rb rc 0xF#4 0#4 0#4 0#4).trans (by simp; rfl))⟩

theorem RowSelects.psadd (ra : Reg) (rb : Reg) (rc : Reg) : RowSelects.Statement (.psadd ra rb rc) :=
  ⟨by simp [rowOf, opcodeRows],
    selects_of_and ((encodeR_and 0x4A 0#4 ra rb rc 0xF#4 0#4 0#4 0#4).trans (by simp; rfl))⟩

theorem RowSelects.pssub (ra : Reg) (rb : Reg) (rc : Reg) : RowSelects.Statement (.pssub ra rb rc) :=
  ⟨by simp [rowOf, opcodeRows],
    selects_of_and ((encodeR_and 0x4B 0#4 ra rb rc 0xF#4 0#4 0#4 0#4).trans (by simp; rfl))⟩

theorem RowSelects.psmul (ra : Reg) (rb : Reg) (rc : Reg) : RowSelects.Statement (.psmul ra rb rc) :=
  ⟨by simp [rowOf, opcodeRows],
    selects_of_and ((encodeR_and 0x4C 0#4 ra rb rc 0xF#4 0#4 0#4 0#4).trans (by simp; rfl))⟩

theorem RowSelects.psdiv (ra : Reg) (rb : Reg) (rc : Reg) : RowSelects.Statement (.psdiv ra rb rc) :=
  ⟨by simp [rowOf, opcodeRows],
    selects_of_and ((encodeR_and 0x4D 0#4 ra rb rc 0xF#4 0#4 0#4 0#4).trans (by simp; rfl))⟩

theorem RowSelects.isprime (rd : Reg) (ra : Reg) : RowSelects.Statement (.isprime rd ra) :=
  ⟨by simp [rowOf, opcodeRows],
    selects_of_and ((encodeR_and 0x50 rd ra 0#4 0#4 0#4 0#4 0xF#4 0xF#4).trans (by simp; rfl))⟩

theorem RowSelects.mrwit (rd : Reg) (ra : Reg) : RowSelects.Statement (.mrwit rd ra) :=
  ⟨by simp [rowOf, opcodeRows],
    selects_of_and ((encodeR_and 0x51 rd ra 0#4 0#4 0#4 0#4 0xF#4 0xF#4).trans (by simp; rfl))⟩

end Sys2Proof.Laws
end

