-- ==== Sys2Proof/Laws/Step.lean ====
section
/-! SUPPORT. What a step can do, said once: the input stream, the completion of a command, the host window. Later
proofs cite these and unfold neither `step` nor `exec`. -/

-- One declaration at a time: as one text the package has too many theorems for a thread each within the memory limit.
set_option Elab.async false

namespace Sys2Proof.Machine

/-! ### Commands -/

/-- Every meaning is the end of some effect on the state at acceptance: it retires or it records a fault, and there is
no third way (40_system R100). -/
theorem exec_eq_finish (i : Instr) (s : State) : ∃ e, exec i s = finish s e := by
  cases i <;> simp only [exec,
    execNop, execLi, execLis, execMov, execRdc, execSetmod, execSetroot, execMfrom, execMto, execMadd,
    execMsub, execMmul, execMneg, execMredc, execMeq, execMcmp, execMpowm, execMpow, execMinv, execMdiv,
    execPld, execPst, execPrecomp, execFntt, execIntt, execPmul, execPhad, execPvadd, execPvsub, execPsadd,
    execPssub, execPsmul, execPsdiv, execIsprime, execMrwit] <;>
    exact ⟨_, rfl⟩

/-- A meaning that answers a next state has retired one or recorded a fault. -/
theorem exec_next_cases {i : Instr} {s t : State} (h : exec i s = .next t) :
    (∃ u, exec i s = finish s (.ok u) ∧ t = u.retire) ∨ ∃ c, exec i s = finish s (.error c) ∧ t = s.takeFault c := by
  obtain ⟨e, he⟩ := exec_eq_finish i s
  rcases finish_cases (he.symm.trans h) with ⟨u, rfl, hu⟩ | ⟨c, rfl, hc⟩
  · exact .inl ⟨u, he, by simpa using hu⟩
  · exact .inr ⟨c, he, by simpa using hc⟩

theorem completion_idle {s : State} (h : s.cur = none) : completion s = .next s := by
  rw [completion, h]

theorem completion_of_decode {s : State} {v : Word} {i : Instr} (h : s.cur = some v) (hd : decodeCmd v = .ok i) :
    completion s = exec i s := by
  rw [completion, h]
  simp only [completeCommand, hd]

theorem completion_of_illegal {s : State} {v : Word} {d : DecodeError} (h : s.cur = some v)
    (hd : decodeCmd v = .error d) : completion s = .next (s.takeFault .illcmd) := by
  rw [completion, h]
  simp only [completeCommand, hd]

/-- What a completion instant can do (40_system R100, 60_exceptions R283). -/
theorem completion_cases {s : State} {r : Result} (h : completion s = r) :
    (s.cur = none ∧ r = .next s) ∨ (∃ v i, s.cur = some v ∧ decodeCmd v = .ok i ∧ r = exec i s) ∨
      ∃ v d, s.cur = some v ∧ decodeCmd v = .error d ∧ r = .next (s.takeFault .illcmd) := by
  cases hc : s.cur with
  | none => exact .inl ⟨rfl, h ▸ completion_idle hc⟩
  | some v =>
    cases hd : decodeCmd v with
    | ok i => exact .inr (.inl ⟨v, i, rfl, hd, h ▸ completion_of_decode hc hd⟩)
    | error d => exact .inr (.inr ⟨v, d, rfl, hd, h ▸ completion_of_illegal hc hd⟩)

/-! ### The input stream -/

theorem step_exhausted {s : State} (h : s.inputs = []) : step s = completion s := by
  rw [step, h]

theorem step_input {s : State} {input : Input} {rest : List Input} (h : s.inputs = input :: rest) :
    step s = handleInput input { s with inputs := rest } := by
  rw [step, h]

/-- The step on a state with one more entry ahead of its stream. -/
theorem step_offered (s : State) (input : Input) :
    step { s with inputs := input :: s.inputs } = handleInput input s := rfl

/-- What a step can do. -/
theorem step_cases {s : State} {r : Result} (h : step s = r) :
    (s.inputs = [] ∧ completion s = r) ∨
      ∃ input rest, s.inputs = input :: rest ∧ handleInput input { s with inputs := rest } = r := by
  cases hi : s.inputs with
  | nil => exact .inl ⟨rfl, step_exhausted hi ▸ h⟩
  | cons input rest => exact .inr ⟨input, rest, rfl, step_input hi ▸ h⟩

/-! ### The map of the host window (20_memory R64) -/

theorem accessOk_iff {offset width : Nat} : accessOk offset width = true ↔ width = 8 ∧ offset % 8 = 0 := by
  simp [accessOk]

theorem arrayIndex_at {base count k : Nat} (h : k < count) : arrayIndex base count (base + 8 * k) = some k := by
  rw [arrayIndex, if_pos ⟨by omega, by omega⟩]
  congr 1
  omega

theorem arrayIndex_outside {base count offset : Nat} (h : offset < base ∨ base + 8 * count ≤ offset) :
    arrayIndex base count offset = none := by
  rw [arrayIndex, if_neg]
  omega

/-- The array windows do not meet while PLOG ≤ 21 (00_scope R6, 20_memory R64). -/
theorem windowSizes {plog : Nat} (h : plog ≤ 21) : 8 * 2 ^ plog ≤ 0x01000000 ∧ 8 * 2 ^ (plog - 1) ≤ 0x01000000 := by
  have h1 : 2 ^ plog ≤ 2 ^ 21 := Nat.pow_le_pow_right (by decide) h
  have h2 : 2 ^ (plog - 1) ≤ 2 ^ 21 := Nat.pow_le_pow_right (by decide) (by omega)
  omega

theorem windowObject_register {plog offset : Nat} (h : offset < 0x100) :
    windowObject plog offset = registerAt offset := by
  simp only [windowObject]
  rw [arrayIndex_outside (.inl h), arrayIndex_outside (.inl (by omega)), arrayIndex_outside (.inl (by omega)),
    arrayIndex_outside (.inl (by omega))]

theorem windowObject_x (plog : Nat) (r : Reg) : windowObject plog (0x0100 + 8 * r.toNat) = .x r := by
  simp only [windowObject]
  rw [arrayIndex_at (by have := r.isLt; omega)]
  simp

theorem windowObject_pmem {plog a : Nat} (ha : a < 2 ^ plog) : windowObject plog (0x01000000 + 8 * a) = .pmem a := by
  simp only [windowObject]
  rw [arrayIndex_outside (.inr (by omega)), arrayIndex_at ha]

theorem windowObject_twf {plog k : Nat} (hp : plog ≤ 21) (hk : k < 2 ^ (plog - 1)) :
    windowObject plog (0x02000000 + 8 * k) = .twf k := by
  have := windowSizes hp
  simp only [windowObject]
  rw [arrayIndex_outside (.inr (by omega)), arrayIndex_outside (.inr (by omega)), arrayIndex_at hk]

theorem windowObject_twi {plog k : Nat} (hp : plog ≤ 21) (hk : k < 2 ^ (plog - 1)) :
    windowObject plog (0x03000000 + 8 * k) = .twi k := by
  have := windowSizes hp
  simp only [windowObject]
  rw [arrayIndex_outside (.inr (by omega)), arrayIndex_outside (.inr (by omega)),
    arrayIndex_outside (.inr (by omega)), arrayIndex_at hk]

/-- A PLOG the parameters' constraint admits (00_scope R6). -/
theorem plog_of_ok {p : Params} (h : p.ok = true) : 1 ≤ p.plog ∧ p.plog ≤ 21 := by
  simp only [Params.ok, Bool.and_eq_true, decide_eq_true_eq] at h
  exact h.1

/-! ### Host accesses -/

theorem hostWrite_aligned {offset : Nat} (h : offset % 8 = 0) (v : Word) (s : State) :
    hostWrite offset 8 v s = .next (s.hostWriteObject (windowObject s.cfg.plog offset) v) := by
  rw [hostWrite, if_pos (accessOk_iff.2 ⟨rfl, h⟩)]

theorem hostRead_aligned {offset : Nat} (h : offset % 8 = 0) (s : State) :
    hostRead offset 8 s = .next (s.hostReadObject (windowObject s.cfg.plog offset)) := by
  rw [hostRead, if_pos (accessOk_iff.2 ⟨rfl, h⟩)]

/-- What a host write can do (20_memory R64, R65). -/
theorem hostWrite_cases {offset width : Nat} {v : Word} {s : State} {r : Result} (h : hostWrite offset width v s = r) :
    (accessOk offset width = true ∧ r = .next (s.hostWriteObject (windowObject s.cfg.plog offset) v)) ∨
      (accessOk offset width = false ∧ r = .refused .hostAccessForm) := by
  rw [hostWrite] at h
  split at h
  · next hk => exact .inl ⟨hk, h.symm⟩
  · next hk => exact .inr ⟨by simpa using hk, h.symm⟩

/-- What a host read can do (20_memory R64, R65). -/
theorem hostRead_cases {offset width : Nat} {s : State} {r : Result} (h : hostRead offset width s = r) :
    (accessOk offset width = true ∧ r = .next (s.hostReadObject (windowObject s.cfg.plog offset))) ∨
      (accessOk offset width = false ∧ r = .refused .hostAccessForm) := by
  rw [hostRead] at h
  split at h
  · next hk => exact .inl ⟨hk, h.symm⟩
  · next hk => exact .inr ⟨by simpa using hk, h.symm⟩

/-- What a host write of an object can do to the state (10_state R34, 20_memory R64, R68, R69). -/
theorem hostWriteObject_cases (s : State) (obj : WindowObject) (v : Word) :
    s.hostWriteObject obj v = s ∨ s.hostWriteObject obj v = s.dropWrite ∨
      (obj = .cmd ∧ s.busy = false ∧ s.err = false ∧
        s.hostWriteObject obj v = s.accept v) ∨
      (obj = .ctrl ∧ s.hostWriteObject obj v = s.writeCtrl v) ∨
      (∃ r, obj = .x r ∧ s.busy = false ∧ s.hostWriteObject obj v = s.setX r v) ∨
      ∃ a, obj = .pmem a ∧ s.busy = false ∧ s.hostWriteObject obj v = s.setP a v := by
  cases obj with
  | cmd =>
    simp only [State.hostWriteObject, State.hostCmd]
    cases hb : s.busy <;> cases he : s.err <;> simp
  | ctrl => exact .inr (.inr (.inr (.inl ⟨rfl, rfl⟩)))
  | x r =>
    simp only [State.hostWriteObject]
    cases hb : s.busy <;> simp
  | pmem a =>
    simp only [State.hostWriteObject]
    cases hb : s.busy <;> simp
  | creg n => exact .inl rfl
  | twf k => exact .inl rfl
  | twi k => exact .inl rfl
  | unmapped => exact .inl rfl

/-- A host read changes only the model's record of it (20_memory R67; log 9). -/
theorem hostReadObject_eq (s : State) (obj : WindowObject) :
    s.hostReadObject obj =
      { s with rdata := (s.hostReadObject obj).rdata, draws := (s.hostReadObject obj).draws } := by
  simp only [State.hostReadObject]
  split <;> rfl

theorem writeCtrl_reset {s : State} {v : Word} (h : v.getLsbD 4 = true) : s.writeCtrl v = s.resetNow := by
  rw [State.writeCtrl, if_pos h]

/-- A CTRL write without SRST, field by field (10_state R34). -/
theorem writeCtrl_eq {s : State} {v : Word} (h : v.getLsbD 4 = false) :
    s.writeCtrl v = { s with
      ie := v.getLsbD 0
      err := if v.getLsbD 1 then false else s.err
      errcode := if v.getLsbD 1 then 0 else s.errcode
      errcmd := if v.getLsbD 1 then 0 else s.errcmd
      done := if v.getLsbD 2 then false else s.done
      ovr := if v.getLsbD 3 then false else s.ovr } := by
  rw [State.writeCtrl, if_neg (by rw [h]; exact Bool.false_ne_true)]
  cases v.getLsbD 1 <;> cases v.getLsbD 2 <;> cases v.getLsbD 3 <;> rfl

end Sys2Proof.Machine
end

