-- ==== Sys2Proof/Tests/Slice0.lean ====
section
/-! SUPPORT. The model's own tests, and for every statement with hypotheses a state and operands that meet them. Words
and expected values are the spec's own (30_encoding, 95_test_vectors, the rules' examples), never this model's. -/

-- One declaration at a time: as one text the package has too many theorems for a thread each within the memory limit.
set_option Elab.async false

namespace Sys2Proof.Tests

open Sys2Proof.Machine

/-! ### WellFormed (30_encoding R87 point 4) -/

theorem test_wellFormed_refuses_reserved_creg : (Instr.rdc 0 11).wellFormed = false := by decide

theorem test_wellFormed_accepts_last_creg : (Instr.rdc 0 10).wellFormed = true := by decide

/-! ### Decoding: the words of 40_system to 46_poly_elementwise, as the spec prints them; written out in binary where a
rule prints none or as a second reading of the fields -/

theorem test_decode_system :
    decode 0x00000000 = .ok .nop ∧ decode 0x01103B80 = .ok (.li 1 0x3B80) ∧ decode 0x02100001 = .ok (.lis 1 1) ∧
      decode 0x0210ABCD = .ok (.lis 1 0xABCD) ∧ decode 0x03210000 = .ok (.mov 2 1) ∧
      decode 0x04300003 = .ok (.rdc 3 3) ∧ decode 0x0440000A = .ok (.rdc 4 10) := by decide +kernel

theorem test_decode_setup :
    decode 0x10010000 = .ok (.setmod 1) ∧ decode 0x11050000 = .ok (.setroot 5) := by decide +kernel

theorem test_decode_ring :
    decode 0x20210000 = .ok (.mfrom 2 1) ∧ decode 0x21320000 = .ok (.mto 3 2) ∧
      decode 0x22423000 = .ok (.madd 4 2 3) ∧ decode 0x23523000 = .ok (.msub 5 2 3) ∧
      decode 0x24623000 = .ok (.mmul 6 2 3) ∧ decode 0x25720000 = .ok (.mneg 7 2) ∧
      decode 0x26456000 = .ok (.mredc 4 5 6) := by decide +kernel

theorem test_decode_compare :
    decode 0x28413000 = .ok (.meq 4 1 3) ∧ decode 0x29431000 = .ok (.mcmp 4 3 1) := by decide +kernel

theorem test_decode_power :
    decode 0x30412300 = .ok (.mpowm 4 1 2 3) ∧ decode 0x31ABA000 = .ok (.mpow 10 11 10) ∧
      decode 0x32820000 = .ok (.minv 8 2) ∧ decode 0x33932000 = .ok (.mdiv 9 3 2) := by decide +kernel

theorem test_decode_memory :
    decode 0x40360000 = .ok (.pld 3 6) ∧ decode 0x41065000 = .ok (.pst 6 5) := by decide +kernel

theorem test_decode_transforms :
    decode 0x42000003 = .ok (.precomp 3) ∧ decode 0x4306000D = .ok (.fntt 6 13) ∧
      decode 0x44060003 = .ok (.intt 6 3) ∧ decode 0x45067003 = .ok (.pmul 6 7 3) := by decide +kernel

theorem test_decode_elementwise :
    decode 0x46067900 = .ok (.phad 6 7 9) ∧ decode 0x48067900 = .ok (.pvadd 6 7 9) ∧
      decode 0x49067900 = .ok (.pvsub 6 7 9) ∧ decode 0x4A065900 = .ok (.psadd 6 5 9) ∧
      decode 0x4B065900 = .ok (.pssub 6 5 9) ∧ decode 0x4C065900 = .ok (.psmul 6 5 9) ∧
      decode 0x4D065900 = .ok (.psdiv 6 5 9) := by decide +kernel

theorem test_decode_primality :
    decode 0x50350000 = .ok (.isprime 3 5) ∧ decode 0x51320000 = .ok (.mrwit 3 2) := by decide +kernel

/-- One word of each format, bit by bit: OP, then the fields of 30_encoding R81 to R84. -/
theorem test_decode_bit_by_bit :
    decode 0b00110000_1111_1010_0101_1100_00000000 = .ok (.mpowm 15 10 5 12) ∧
      decode 0b00000001_1001_0000_1000000000000001 = .ok (.li 9 0x8001) ∧
      decode 0b00000100_1110_000000000000_00001001 = .ok (.rdc 14 9) ∧
      decode 0b01000101_0000_1101_0010_000000_111111 = .ok (.pmul 13 2 63) := by decide +kernel

/-- Vector V90: every illegal word is refused, by name. -/
theorem test_decode_illegal :
    decode 0x00000001 = .error (.mustBeZero 0x00) ∧ decode 0x011F0000 = .error (.mustBeZero 0x01) ∧
      decode 0x0430000B = .error (.reservedCreg 11) ∧ decodeCmd 0x100000000 = .error .highBits ∧
      decode 0x43060040 = .error (.mustBeZero 0x43) ∧ decode 0x42100003 = .error (.mustBeZero 0x42) ∧
      decode 0x03120100 = .error (.mustBeZero 0x03) ∧ decode 0x10110000 = .error (.mustBeZero 0x10) ∧
      decode 0x05000000 = .error (.unassignedOpcode 0x05) ∧ decode 0x27000000 = .error (.unassignedOpcode 0x27) ∧
      decode 0x47067900 = .error (.unassignedOpcode 0x47) ∧ decode 0xFF000000 = .error (.unassignedOpcode 0xFF) := by
  decide +kernel

/-! ### Small states -/

/-- Reset, the modulus m loaded as SETMOD leaves it, some registers and some PMEM words. -/
def engineState (m : Nat) (regs : List (Reg × Word)) (words : WordMem) : State :=
  regs.foldl (fun s p => s.setX p.1 p.2)
    { State.reset with eng := construct m, modv := true, mracc := true, pmem := words }

/-- The same with the root g loaded as SETROOT leaves it. -/
def rootState (m : Nat) (g : Word) (regs : List (Reg × Word)) (words : WordMem) : State :=
  (engineState m regs words).loadRoot g

/-- The next state of a command. -/
def after (i : Instr) (s : State) : Option State :=
  match exec i s with
  | .next t => some t
  | .fault _ => none
  | .refused _ => none

/-- A register after a command. -/
def xAfter (i : Instr) (s : State) (r : Reg) : Option Word := (after i s).map fun t => t.x r

/-- PMEM words after a command. -/
def pAfter (i : Instr) (s : State) (addresses : List Nat) : Option (List (Option Word)) :=
  (after i s).map fun t => addresses.map (peek t.pmem)

/-- STATUS after a command. -/
def statusAfter (i : Instr) (s : State) : Option Word := (after i s).map statusWord

/-- The prime of the spec's examples. -/
abbrev p : Nat := 998244353

/-! ### System commands (vectors V2 to V8) -/

theorem test_nop : (after .nop State.reset).map (fun t => (t.cmdcnt, statusWord t)) = some (1, 0x02) := by
  decide +kernel

theorem test_li : xAfter (.li 1 0x3B80) (State.reset.setX 1 (-1)) 1 = some 0x3B80 := by decide +kernel

theorem test_lis : xAfter (.lis 1 1) (State.reset.setX 1 0x3B80) 1 = some 998244353 := by decide +kernel

theorem test_lis_drops_top :
    xAfter (.lis 1 0xABCD) (State.reset.setX 1 0xFFFF000000000001) 1 = some 0x1ABCD := by decide +kernel

theorem test_mov : xAfter (.mov 2 1) (State.reset.setX 1 998244353) 2 = some 998244353 := by decide +kernel

theorem test_rdc_status : xAfter (.rdc 4 8) ((engineState p [] []).accept 0x04400008) 4 = some 0x51 := by
  decide +kernel

theorem test_rdc_config : xAfter (.rdc 4 10) State.reset 4 = some 0x10C40 := by decide +kernel

/-! ### Montgomery multiplier (vectors V1, V10 to V32) -/

theorem test_setmod_constants :
    (after (.setmod 1) (State.reset.setX 1 998244353)).map (fun t => t.eng) =
      some ⟨998244353, 1996488706, 17450252288407896063, 932051910, 299560064⟩ := by decide +kernel

theorem test_setmod_badmod :
    statusAfter (.setmod 1) ((State.reset.setX 1 0x4000000000000001).accept 0x10010000) =
      some 0x1001000000000606 := by decide +kernel

theorem test_mfrom : xAfter (.mfrom 2 2) (engineState p [(2, 5)] []) 2 = some 667282138 := by decide +kernel

theorem test_mfrom_max : xAfter (.mfrom 2 1) (engineState p [(1, 0xFFFFFFFFFFFFFFFF)] []) 2 = some 365752507 := by
  decide +kernel

theorem test_mto : xAfter (.mto 4 4) (engineState p [(4, 1202179390)] []) 4 = some 12 := by decide +kernel

theorem test_mto_modulus : xAfter (.mto 4 3) (engineState p [(3, 998244353)] []) 4 = some 0 := by decide +kernel

/-- Vector V29: an operand that is no residue word is no fault. -/
theorem test_madd_unspecified :
    (after (.madd 4 2 3) (engineState p [(2, 1996488706), (3, 5)] [])).map (fun t => (t.cmdcnt, t.err, t.x 3)) =
      some (1, false, 5) := by decide +kernel

theorem test_madd_largest :
    xAfter (.madd 4 2 3) (engineState p [(2, 1996488705), (3, 1996488705)] []) 4 = some 1996488704 := by decide +kernel

theorem test_msub_borrow :
    xAfter (.msub 5 2 3) (engineState p [(2, 534897252), (3, 667282138)] []) 5 = some 1864103820 := by decide +kernel

theorem test_msub : xAfter (.msub 5 2 3) (engineState p [(2, 667282138), (3, 534897252)] []) 5 = some 132384886 := by
  decide +kernel

theorem test_mmul : xAfter (.mmul 6 2 3) (engineState p [(2, 667282138), (3, 534897252)] []) 6 = some 677997554 := by
  decide +kernel

theorem test_mmul_largest :
    xAfter (.mmul 6 2 3) (engineState p [(2, 1996488705), (3, 1996488705)] []) 6 = some 944319265 := by decide +kernel

theorem test_mneg : xAfter (.mneg 7 2) (engineState p [(2, 667282138)] []) 7 = some 1329206568 := by decide +kernel

theorem test_mneg_zero : xAfter (.mneg 7 2) (engineState p [(7, 1)] []) 7 = some 0 := by decide +kernel

theorem test_mredc_top :
    xAfter (.mredc 4 5 6) (engineState p [(5, 998244352), (6, 0xFFFFFFFFFFFFFFFF)] []) 4 = some 1052169441 := by
  decide +kernel

theorem test_mredc_above_range :
    xAfter (.mredc 4 5 6) (engineState p [(5, 0xC000000000000000)] []) 4 = some 13835058055282163712 := by
  decide +kernel

/-! ### Comparison (vectors V45 to V49) -/

theorem test_meq_lazy : xAfter (.meq 4 1 2) (engineState p [(1, 667282138), (2, 1665526491)] []) 4 = some 1 := by
  decide +kernel

theorem test_meq_differs : xAfter (.meq 4 1 3) (engineState p [(1, 667282138), (3, 534897252)] []) 4 = some 0 := by
  decide +kernel

theorem test_mcmp_less :
    xAfter (.mcmp 4 1 3) (engineState p [(1, 667282138), (3, 534897252)] []) 4 = some 0xFFFFFFFFFFFFFFFF := by
  decide +kernel

theorem test_mcmp_greater : xAfter (.mcmp 4 3 1) (engineState p [(1, 667282138), (3, 534897252)] []) 4 = some 1 := by
  decide +kernel

/-! ### Exponentiation (vectors V33 to V39) -/

theorem test_mpowm :
    xAfter (.mpowm 4 1 2 3) (engineState p [(1, 799667024), (2, 4), (3, 667282138)] []) 4 = some 144658116 := by
  decide +kernel

theorem test_mpowm_exponent_zero :
    xAfter (.mpowm 4 1 2 3) (engineState p [(1, 799667024), (3, 12345)] []) 4 = some 12345 := by decide +kernel

theorem test_mpow_largest_exponent :
    xAfter (.mpow 4 1 2) (engineState p [(1, 799667024), (2, 0xFFFFFFFFFFFFFFFF)] []) 4 = some 816250493 := by
  decide +kernel

theorem test_mpow_one_is_not_raw :
    xAfter (.mpow 4 1 2) (engineState p [(1, 1996488705), (2, 1)] []) 4 = some 998244352 := by decide +kernel

theorem test_minv : xAfter (.minv 8 2) (engineState p [(2, 667282138)] []) 8 = some 186410382 := by decide +kernel

/-- 2^64 mod 15 = 1, so a class is its own word (42_exponentiation R156: 2^13 mod 15 = 2). -/
theorem test_minv_composite : xAfter (.minv 8 2) (engineState 15 [(2, 2)] []) 8 = some 2 := by decide +kernel

theorem test_mdiv : xAfter (.mdiv 9 3 2) (engineState p [(2, 667282138), (3, 534897252)] []) 9 = some 306628321 := by
  decide +kernel

theorem test_mdiv_by_zero : xAfter (.mdiv 9 3 2) (engineState p [(3, 534897252)] []) 9 = some 0 := by decide +kernel

/-! ### Miller-Rabin (vectors V40 to V51) -/

theorem test_isprime_strong_pseudoprime : xAfter (.isprime 3 5) (State.reset.setX 5 2047) 3 = some 0 := by
  decide +kernel

theorem test_isprime_badmod :
    statusAfter (.isprime 3 5) ((State.reset.setX 5 18446744073709551557).accept 0x50350000) =
      some 0x5035000000000606 := by decide +kernel

theorem test_mrwit_fails :
    (after (.mrwit 3 2) (engineState 561 [(2, 2)] [])).map (fun t => (t.x 3, t.mracc)) = some (0, false) := by
  decide +kernel

theorem test_mrwit_passes :
    (after (.mrwit 3 2) (engineState 2047 [(2, 2)] [])).map (fun t => (t.x 3, t.mracc)) = some (1, true) := by
  decide +kernel

/-! ### Transforms (vectors V60 to V66) -/

theorem test_setroot :
    (after (.setroot 2) (engineState p [(2, 3)] [])).map
      (fun t => (t.root, t.rootr, t.twcov, peek t.twf 0, peek t.twi 0)) =
      some (3, 799667024, 2, some 932051910, some 932051910) := by decide +kernel

theorem test_precomp :
    (after (.precomp 4) (rootState 17 3 [] [])).map (fun t => (t.twcov, t.twf, t.twi)) =
      some (16, [(0, 1), (1, 4), (2, 2), (3, 8), (4, 6), (5, 7), (6, 12), (7, 14)],
        [(0, 1), (1, 13), (2, 9), (3, 15), (4, 3), (5, 5), (6, 10), (7, 11)]) := by decide +kernel

theorem test_precomp_one_changes_nothing :
    (after (.precomp 1) (rootState 17 3 [] [])).map (fun t => (t.twcov, t.twf)) = some (2, [(0, 1)]) := by
  decide +kernel

theorem test_fntt :
    pAfter (.fntt 6 2) (rootState 17 3 [(6, 0x10)] [(0x10, 1), (0x11, 2), (0x12, 3), (0x13, 4)])
      [0x10, 0x11, 0x12, 0x13] = some [some 10, some 32, some 7, some 23] := by decide +kernel

/-- Vector V67: a buffer with a never-written word is no fault, and the tables still grow. -/
theorem test_fntt_unspecified :
    (after (.fntt 6 3) (rootState p 3 [(6, 0x10)] [(0x10, 1)])).map (fun t => (t.cmdcnt, t.err, t.twcov)) =
      some (1, false, 8) := by decide +kernel

theorem test_intt :
    pAfter (.intt 6 2) (rootState 17 3 [(6, 0x10)] [(0x10, 10), (0x11, 32), (0x12, 7), (0x13, 23)])
      [0x10, 0x11, 0x12, 0x13] = some [some 1, some 2, some 3, some 4] := by decide +kernel

theorem test_intt_range :
    statusAfter (.intt 6 0) ((rootState 17 3 [(6, 0x1000)] []).accept 0x44060000) = some 0x4406000000000576 := by
  decide +kernel

theorem test_pmul_wraps :
    pAfter (.pmul 6 7 2) (rootState p 3 [(6, 0x10), (7, 0x20)]
        [(0x10, 932051910), (0x11, 865859467), (0x12, 799667024), (0x13, 733474581),
          (0x20, 932051910), (0x21, 932051910), (0x22, 0), (0x23, 0)])
      [0x10, 0x11, 0x12, 0x13, 0x20, 0x21, 0x22, 0x23] =
      some [some 667282138, some 799667024, some 667282138, some 534897252, some 1864103820, some 0,
        some 1473668440, some 390435380] := by decide +kernel

theorem test_pmul_length_one :
    (after (.pmul 6 7 0) (rootState p 3 [(6, 0x10), (7, 0x20)] [(0x10, 932051910), (0x20, 733474581)])).map
      (fun t => (peek t.pmem 0x10, t.twcov)) = some (some 733474581, 2) := by decide +kernel

/-! ### Polynomial memory (vectors V70 to V82) -/

theorem test_pst :
    pAfter (.pst 6 3) ((State.reset.setX 6 0xFFF).setX 3 777) [0xFFF] = some [some 777] := by decide +kernel

theorem test_pld : xAfter (.pld 3 6) (engineState p [(6, 0x10)] [(0x10, 932051910)]) 3 = some 932051910 := by
  decide +kernel

theorem test_pld_range :
    statusAfter (.pld 3 6) ((State.reset.setX 6 0x1000).accept 0x40360000) = some 0x4036000000000506 := by
  decide +kernel

/-- The start of 95_test_vectors section 2.7. -/
def elementState : State :=
  engineState p [(6, 0x10), (7, 0x20), (9, 3), (5, 667282138)]
    [(0x10, 932051910), (0x11, 865859467), (0x12, 799667024), (0x20, 733474581), (0x21, 667282138), (0x22, 601089695)]

theorem test_phad :
    pAfter (.phad 6 7 9) elementState [0x10, 0x11, 0x12] = some [some 733474581, some 336319923, some 805024732] := by
  decide +kernel

theorem test_pvadd :
    pAfter (.pvadd 6 7 9) elementState [0x10, 0x11, 0x12] =
      some [some 1665526491, some 1533141605, some 1400756719] := by decide +kernel

theorem test_pvadd_overlap :
    pAfter (.pvadd 6 7 9) (engineState p [(6, 0x31), (7, 0x30), (9, 3)]
        [(0x30, 932051910), (0x31, 865859467), (0x32, 799667024), (0x33, 733474581)]) [0x30, 0x31, 0x32, 0x33] =
      some [some 932051910, some 1797911377, some 601089695, some 1334564276] := by decide +kernel

/-- A word never written (at 0x30) spoils the element that reads it, and that one spoils its reader in turn
(93_implementation_defined U7). -/
theorem test_phad_spoiled :
    vectorForm (fun _ _ => 5) 0x31 0x30 3
        (engineState p [] [(0x31, 1), (0x32, 2), (0x33, 3)]) =
      (((engineState p [] [(0x31, 1), (0x32, 2), (0x33, 3)]).setPFree 0x31).setPFree 0x32).setPFree 0x33 := by
  rfl

theorem test_pvsub :
    pAfter (.pvsub 6 7 9) elementState [0x10, 0x11, 0x12] = some [some 198577329, some 198577329, some 198577329] := by
  decide +kernel

theorem test_psadd :
    pAfter (.psadd 6 5 9) elementState [0x10, 0x11, 0x12] =
      some [some 1599334048, some 1533141605, some 1466949162] := by decide +kernel

theorem test_pssub :
    pAfter (.pssub 6 5 9) elementState [0x10, 0x11, 0x12] = some [some 264769772, some 198577329, some 132384886] := by
  decide +kernel

theorem test_psmul :
    pAfter (.psmul 6 5 9) elementState [0x10, 0x11, 0x12] = some [some 667282138, some 336319923, some 5357708] := by
  decide +kernel

/-- Vector V80: an empty operand is never out of range. -/
theorem test_psmul_empty :
    (after (.psmul 6 5 9) ((elementState.setX 9 0).setX 6 0xFFFFFFFFFFFFFFFF)).map (fun t => (t.cmdcnt, t.err)) =
      some (1, false) := by decide +kernel

theorem test_psdiv :
    pAfter (.psdiv 6 5 9) elementState [0x10, 0x11, 0x12] = some [some 186410382, some 372820764, some 559231146] := by
  decide +kernel

/-! ### The command cycle and the host window (vectors V92 to V94, program P4) -/

/-- The next state of a step. -/
def stepNext (s : State) : Option State :=
  match step s with
  | .next t => some t
  | .fault _ => none
  | .refused _ => none

theorem test_fetch_word_runs :
    (stepNext (State.reset.withFetchWord 32 0x01103B80)).map (fun t => (t.x 1, statusWord t)) =
      some (0x3B80, 0x02) := by decide +kernel

theorem test_fault_record :
    (stepNext (State.reset.withFetchWord 32 0x20320000)).map (fun t => (statusWord t, t.cmdcnt)) =
      some (0x2032000000000206, 0) := by decide +kernel

/-- After an MFROM without an engine (vector V92). -/
def faultedState : State :=
  { State.reset with done := true, err := true, errcode := 2, errcmd := 0x20320000 }

theorem test_command_dropped_while_faulted :
    (stepNext { faultedState with inputs := [.hostWrite 0 8 0] }).map statusWord = some 0x203200000000020E := by
  decide +kernel

theorem test_ctrl_clears :
    (stepNext { faultedState with ovr := true, inputs := [.hostWrite 0x10 8 0x0A] }).map statusWord = some 0x02 := by
  decide +kernel

theorem test_srst_beats_ie :
    (stepNext { State.reset with inputs := [.hostWrite 0x10 8 0x11] }).map (fun t => t.ie) = some false := by
  decide +kernel

theorem test_irq :
    (after .nop { State.reset with ie := true }).map irq = some true ∧
      (stepNext { State.reset with ie := true, done := true, inputs := [.hostWrite 0x10 8 0x05] }).map irq =
        some false := by decide +kernel

/-- 10_state R33: OVR as it was at acceptance, though a write was dropped while the command executed. -/
theorem test_rdc_status_reads_ovr_of_acceptance :
    xAfter (.rdc 3 8) (State.reset.accept 0x04300008).dropWrite 3 = some 0x01 := by decide +kernel

/-! ### States that meet the hypotheses of the statements

`demo` is m = 17, g = 3, coverage 2, residue words in three PMEM buffers (0, 4 and the last four words), idle. -/

def demo : State :=
  rootState 17 3 [(6, 0), (7, 4), (8, 0xFFC), (9, 4), (5, 2), (10, 17)]
    [(0, 1), (1, 2), (2, 3), (3, 4), (4, 5), (5, 6), (6, 7), (7, 33), (0xFFC, 33), (0xFFD, 0), (0xFFE, 16), (0xFFF, 17)]

theorem demo_lawful : demo.eng.Lawful := ⟨17, by decide, by decide +kernel⟩

theorem demo_twiddles : demo.TwiddlesLawful := by
  refine ⟨by decide +kernel, 1, by decide, by decide, by decide, ⟨by decide +kernel, ?_⟩, ⟨by decide +kernel, ?_⟩⟩ <;>
    (intro j k h; omega)

theorem demo_inv : demo.Inv where
  params := by decide +kernel
  pmem_wf := by decide +kernel
  pmem_inside := by decide +kernel
  twf_wf := by decide +kernel
  twf_inside := by decide +kernel
  twi_wf := by decide +kernel
  twi_inside := by decide +kernel
  engine_lawful := fun _ => demo_lawful
  engine_absent := by decide +kernel
  root_needs_engine := by decide +kernel
  mracc_needs_engine := by decide +kernel
  root_absent := by decide +kernel
  root_lawful := fun _ => demo_twiddles
  no_fault_record := by decide +kernel
  fault_code := by decide +kernel
  busy_clean := by decide +kernel

theorem demo_x : (demo.x 6).toNat = 0 ∧ (demo.x 7).toNat = 4 ∧ (demo.x 8).toNat = 0xFFC ∧ (demo.x 9).toNat = 4 ∧
    (demo.x 5).toNat = 2 ∧ (demo.x 10).toNat = 17 := by decide +kernel

/-- The four words of each of demo's buffers are residue words. -/
theorem demo_buffer {base : Nat} (h : base = 0 ∨ base = 4 ∨ base = 0xFFC) : ResidueBuffer demo base 4 := by
  have words : ∀ j < 4, ((peek demo.pmem (base + j)).any fun w => decide (w.toNat < demo.eng.m2.toNat)) = true := by
    rcases h with rfl | rfl | rfl <;> decide +kernel
  intro j hj
  have hw := words j hj
  cases hp : peek demo.pmem (base + j) with
  | none => simp [hp] at hw
  | some w => exact ⟨w.toNat, w, rfl, rfl, by simpa [hp] using hw⟩

def systemSamples : List Instr := [.nop, .li 1 2, .lis 1 2, .mov 1 2, .rdc 1 10, .setmod 10, .setroot 10]

def ringSamples : List Instr :=
  [.mfrom 1 5, .mto 1 5, .madd 1 5 5, .msub 1 5 5, .mmul 1 5 5, .mneg 1 5, .mredc 1 5 5, .meq 1 5 5, .mcmp 1 5 5]

def powerSamples : List Instr := [.mpowm 1 5 5 5, .mpow 1 5 5, .minv 1 5, .mdiv 1 5 5, .isprime 1 10, .mrwit 1 5]

def memorySamples : List Instr := [.pld 1 6, .pst 6 5, .precomp 12, .fntt 8 2, .intt 6 2, .pmul 6 7 2]

def elementSamples : List Instr :=
  [.phad 6 7 9, .pvadd 8 7 9, .pvsub 6 7 9, .psadd 6 5 9, .pssub 6 5 9, .psmul 8 5 9, .psdiv 6 5 9]

/-- One command of each row, its operands demo's. -/
def samples : List Instr := systemSamples ++ ringSamples ++ powerSamples ++ memorySamples ++ elementSamples

theorem samples_cover : samples.length = 35 := by decide

/-- The checks of `Runs` as a computation, sufficient for it. -/
def passes (i : Instr) (s : State) : Bool :=
  i.wellFormed && (!usesEngine i || s.modv) && (!(lognOf i).isSome || s.rootv) &&
    ((lognOf i).all fun logn => decide (logn.toNat ≤ s.cfg.plog)) &&
    ((pmemOperands i s).all fun range => decide (range.2 = 0 ∨ range.1 + range.2 ≤ 2 ^ s.cfg.plog)) &&
    match i with
    | .setmod ra => decide ((s.x ra).toNat % 2 = 1 ∧ (s.x ra).toNat < 2 ^ 62)
    | .isprime _ ra => decide ((s.x ra).toNat < 2 ^ 62)
    | _ => true

theorem runs_of_passes {i : Instr} {s : State} (h : passes i s = true) : Runs i s := by
  simp only [passes, Bool.and_eq_true, Bool.or_eq_true, Bool.not_eq_true', List.all_eq_true, decide_eq_true_eq] at h
  obtain ⟨⟨⟨⟨⟨h1, h2⟩, h3⟩, h4⟩, h5⟩, h6⟩ := h
  refine ⟨h1, fun hu => ?_, fun hl => ?_, fun logn hl => ?_, fun range hr => ?_, fun hb => ?_⟩
  · simpa [hu] using h2
  · simpa [hl] using h3
  · simpa [hl] using h4
  · have := h5 range hr
    rintro ⟨hne, hgt⟩
    omega
  · cases i <;> simp only [OffersBadModulus] at hb h6 <;> simp only [decide_eq_true_eq] at h6 <;> omega

theorem demo_passes : ∀ i ∈ samples, passes i demo = true := by decide +kernel

/-- The invariant says nothing of the input stream. -/
theorem inv_inputs {s : State} (h : s.Inv) (inputs : List Input) : State.Inv { s with inputs := inputs } where
  params := h.params
  pmem_wf := h.pmem_wf
  pmem_inside := h.pmem_inside
  twf_wf := h.twf_wf
  twf_inside := h.twf_inside
  twi_wf := h.twi_wf
  twi_inside := h.twi_inside
  engine_lawful := h.engine_lawful
  engine_absent := h.engine_absent
  root_needs_engine := h.root_needs_engine
  mracc_needs_engine := h.mracc_needs_engine
  root_absent := h.root_absent
  root_lawful := h.root_lawful
  no_fault_record := h.no_fault_record
  fault_code := h.fault_code
  busy_clean := h.busy_clean

/-! ### Encoding -/

theorem witness_DecodeInvertsEncode : (Instr.rdc 15 10).wellFormed = true := by decide

theorem witness_EncodeInvertsDecode : decodeCmd 0x04F0000A = .ok (.rdc 15 10) := by decide +kernel

/-- One value for each point of R87, the legal neighbour of the last, and the BADLEN clause. -/
theorem witness_IllegalCommandRaisesIllcmd :
    (State.reset.accept 0x100000000).cur = some 0x100000000 ∧ IllegalCommand 0x100000000 ∧ IllegalCommand 0x05000000 ∧
      IllegalCommand 0x00000001 ∧ IllegalCommand 0x0430000B ∧ ¬ IllegalCommand 0x0430000A ∧
      ¬ IllegalCommand 0x4306000D ∧ decodeCmd 0x4306000D = .ok (.fntt 6 13) ∧ lognOf (.fntt 6 13) = some 13 ∧
      (demo.accept 0x4306000D).cfg.plog < (13 : LogLen).toNat ∧ (demo.accept 0x4306000D).modv = true ∧
      (demo.accept 0x4306000D).rootv = true := by
  unfold IllegalCommand
  decide +kernel

/-! ### The command cycle -/

theorem witness_StepRunsTheCommandInExecution :
    (demo.accept 0x22423000).cur = some 0x22423000 ∧ decodeCmd 0x22423000 = .ok (.madd 4 2 3) ∧
      (Instr.madd 4 2 3).wellFormed = true ∧ (demo.accept 0x22423000).inputs = [] ∧
      (State.withFetchWord { demo with inputs := [.hardwareReset] } 32 0x22423000).inputs =
        [.completion, .hardwareReset] ∧ demo.cur = none ∧ demo.inputs = [] := by decide +kernel

theorem witness_CmdWriteIsDroppedWhileBusyOrFaulted :
    (demo.accept 0).cur.isSome = true ∧ faultedState.err = true := by decide +kernel

theorem witness_CmdWriteIsAcceptedWhileIdle : demo.cur = none ∧ demo.err = false := ⟨rfl, rfl⟩

theorem witness_EveryAcceptedCommandCompletes :
    (demo.accept 0x4306000D).cur = some 0x4306000D ∧ (demo.accept (-1)).cur = some (-1) := by decide +kernel

theorem witness_CmdcntCountsCompletedCommands :
    Runs .nop State.reset ∧ Reports (.mfrom 3 2) State.reset 2 ∧ (demo.accept 1).cur = some 1 ∧ IllegalCommand 1 ∧
      faultedState.err = true ∧ demo.cfg.ok = true :=
  ⟨runs_of_passes (by decide +kernel), .nomod rfl ⟨rfl, rfl⟩, rfl, by unfold IllegalCommand; decide +kernel, rfl,
    by decide +kernel⟩

/-- One command for each code, each with the later codes' conditions failing too where they can (vector V91). -/
theorem witness_FirstFailingCheckIsReported :
    Reports (.rdc 0 11) State.reset 1 ∧ Reports (.fntt 6 13) State.reset 2 ∧
      Reports (.fntt 6 13) (engineState 7 [] []) 3 ∧ Reports (.fntt 8 13) demo 4 ∧ Reports (.fntt 8 3) demo 5 ∧
      Reports (.setmod 5) demo 6 ∧ Reports (.isprime 3 5) (State.reset.setX 5 18446744073709551557) 6 := by
  refine ⟨.illcmd rfl, .nomod rfl ⟨rfl, rfl⟩, .noroot rfl (fun _ => rfl) ⟨rfl, rfl⟩,
    .badlen rfl (fun _ => rfl) (fun _ => rfl) ⟨13, rfl, by decide⟩,
    .prange rfl (fun _ => rfl) (fun _ => rfl) (fun logn h => ?_) ⟨_, List.mem_cons_self, ?_⟩, .badmod ?_, .badmod ?_⟩
  · cases h
    decide
  · unfold OutsidePmem
    decide +kernel
  · exact .inl (by decide +kernel)
  · unfold OffersBadModulus
    decide +kernel

theorem witness_CommandsThatPassTheirChecksRetire : ∀ i ∈ samples, Runs i demo :=
  fun i h => runs_of_passes (demo_passes i h)

/-! ### System commands and the engine -/

theorem witness_RdcReadsControlRegisters : State.reset.cfg.plog < 256 ∧ 10 < (11 : CregNum).toNat := by decide +kernel

/-- The smallest and the largest accepted modulus, and the refused neighbours. -/
theorem witness_SetmodLoadsTheModulus :
    ((State.reset.setX 1 1).x 1).toNat % 2 = 1 ∧ ((State.reset.setX 1 1).x 1).toNat < 2 ^ 62 ∧
      ((State.reset.setX 1 0x3FFFFFFFFFFFFFFF).x 1).toNat % 2 = 1 ∧
      ((State.reset.setX 1 0x3FFFFFFFFFFFFFFF).x 1).toNat < 2 ^ 62 ∧ (State.reset.x 1).toNat % 2 = 0 ∧
      2 ^ 62 ≤ ((State.reset.setX 1 0x4000000000000001).x 1).toNat := by decide +kernel

theorem witness_ReductionIsExact :
    modOk 1 = true ∧ modOk (2 ^ 62 - 1) = true ∧ 0 < 1 * 2 ^ 64 ∧ 2 ^ 64 - 1 < 2 ^ 64 ∧
      3 * 2 ^ 126 ≤ 3 * 2 ^ 126 := by decide +kernel

theorem witness_FromAndToConvert : modOk 998244353 = true ∧ 2 ^ 64 - 1 < 2 ^ 64 ∧ 998244352 < 998244353 := by
  decide +kernel

theorem witness_LazyAddSubNeg : modOk (2 ^ 62 - 1) = true ∧ 2 ^ 63 - 3 < 2 * (2 ^ 62 - 1) ∧ 2 ^ 63 - 3 ≠ 0 := by
  decide +kernel

theorem witness_MultiplyRepresentsProduct : modOk 998244353 = true ∧ 1996488705 < 2 * 998244353 := by decide +kernel

theorem witness_RingLawsOnClasses :
    modOk 998244353 = true ∧ 5 < 998244353 ∧ 667282138 < 2 * 998244353 ∧ 1996488705 < 2 * 998244353 := by
  decide +kernel

theorem witness_PowMulRepresentsPower :
    modOk 998244353 = true ∧ 799667024 < 2 * 998244353 ∧ 667282138 < 2 * 998244353 ∧ 2 ^ 64 - 1 < 2 ^ 64 := by
  decide +kernel

theorem witness_InverseAndDivide :
    modOk 17 = true ∧ 3 < 2 * 17 ∧ 5 < 2 * 17 ∧ Nat.Prime 17 ∧ (construct 17).toOrdinary 5 ≠ 0 :=
  ⟨by decide, by decide, by decide, by norm_num, by decide +kernel⟩

/-! ### Ring, power and compare commands -/

theorem witness_AddSubNegCommandResults : demo.modv = true ∧ (demo.x 5).toNat < demo.eng.m2.toNat := by decide +kernel

theorem witness_ReducingCommandResults : demo.modv = true ∧ (demo.x 5).toNat < demo.eng.m2.toNat := by decide +kernel

theorem witness_PowerCommandResults :
    demo.modv = true ∧ (demo.x 0).toNat = 0 ∧ (demo.x 5).toNat < demo.eng.m2.toNat := by decide +kernel

theorem witness_CompareCommandsCompareClasses :
    demo.modv = true ∧ demo.eng.Lawful ∧ demo.eng.Represents (demo.x 5).toNat 2 ∧
      demo.eng.Represents (demo.x 8).toNat 12 :=
  ⟨rfl, demo_lawful, by unfold Engine.Represents; decide +kernel, by unfold Engine.Represents; decide +kernel⟩

/-! ### Miller-Rabin -/

theorem witness_WitnessMatchesDefinition :
    3 % 2 = 1 ∧ 3 ≤ 3 ∧ 3 < 2 ^ 62 ∧ 2 ^ 64 - 1 < 2 ^ 64 ∧ (2 ^ 62 - 1) % 2 = 1 ∧ 2 ^ 62 - 1 < 2 ^ 62 := by decide

/-- A ROM of the right shape whose first interval has a trial prime and a base that settles 169. -/
def trialRom : WitnessRom :=
  { Config.referenceRom with
    set := #v[[2, 13], [2], [2], [2], [2], [2], [2, 13]]
    trial := #v[[11], [], [], [], [], [], []] }

def primeState (n : Word) : State := State.setX { State.reset with cfg := { plog := 12, rom := trialRom } } 5 n

theorem witness_IsprimeFollowsTheFiveSteps_steps_1_to_4 :
    (primeState 1).cfg.ok = true ∧ ((primeState 1).x 5).toNat < 2 ∧ ((primeState 7).x 5).toNat = 7 ∧
      ((primeState 4).x 5).toNat = 4 ∧ ¬ Nat.Coprime ((primeState 4).x 5).toNat 210 ∧
      2 ≤ ((primeState 8).x 5).toNat ∧ ((primeState 8).x 5).toNat ≠ 2 ∧ ((primeState 8).x 5).toNat ≠ 3 ∧
      ((primeState 8).x 5).toNat ≠ 5 ∧ ((primeState 8).x 5).toNat ≠ 7 ∧ ¬ Nat.Coprime ((primeState 8).x 5).toNat 210 ∧
      7 < ((primeState 11).x 5).toNat ∧ Nat.Coprime ((primeState 11).x 5).toNat 210 ∧
      ((primeState 11).x 5).toNat ∈ romTrial (primeState 11).cfg.rom ((primeState 11).x 5).toNat ∧
      7 < ((primeState 143).x 5).toNat ∧ Nat.Coprime ((primeState 143).x 5).toNat 210 ∧
      ((primeState 143).x 5).toNat ∉ romTrial (primeState 143).cfg.rom ((primeState 143).x 5).toNat ∧
      ∃ q ∈ romTrial (primeState 143).cfg.rom ((primeState 143).x 5).toNat, q ∣ ((primeState 143).x 5).toNat := by
  decide +kernel

theorem witness_IsprimeFollowsTheFiveSteps_step_5 :
    7 < ((primeState 17).x 5).toNat ∧ ((primeState 17).x 5).toNat < 2 ^ 62 ∧
      Nat.Coprime ((primeState 17).x 5).toNat 210 ∧
      (∀ q ∈ romTrial (primeState 17).cfg.rom ((primeState 17).x 5).toNat, ¬ q ∣ ((primeState 17).x 5).toNat) ∧
      (∀ b ∈ romSet (primeState 17).cfg.rom ((primeState 17).x 5).toNat, WitnessPass ((primeState 17).x 5).toNat b) ∧
      Nat.Coprime ((primeState 169).x 5).toNat 210 ∧
      (∀ q ∈ romTrial (primeState 169).cfg.rom ((primeState 169).x 5).toNat, ¬ q ∣ ((primeState 169).x 5).toNat) ∧
      ∃ b ∈ romSet (primeState 169).cfg.rom ((primeState 169).x 5).toNat,
        ¬ WitnessPass ((primeState 169).x 5).toNat b := by
  have x17 : ((primeState 17).x 5).toNat = 17 := by decide +kernel
  have x169 : ((primeState 169).x 5).toNat = 169 := by decide +kernel
  have s17 : romSet (primeState 17).cfg.rom 17 = [2, 13] := by decide +kernel
  have s169 : romSet (primeState 169).cfg.rom 169 = [2, 13] := by decide +kernel
  rw [x17, x169, s17, s169]
  refine ⟨by decide, by decide, by decide, by decide +kernel, ?_, by decide, by decide +kernel, 13, by decide, ?_⟩
  · intro b hb
    refine prime_passes (by norm_num) (by decide) ?_
    rcases List.mem_pair.1 hb with rfl | rfl <;> decide
  · exact common_factor_fails (p := 13) (by decide) (by decide) (by decide) (by decide)

/-- The BADMOD clause: 2^64 - 59 of 44_miller_rabin R188, and a candidate just above 2^62. -/
theorem witness_IsprimeFollowsTheFiveSteps_badmod :
    (2 ^ 62 ≤ ((primeState 18446744073709551557).x 5).toNat ∧
      Nat.Coprime ((primeState 18446744073709551557).x 5).toNat 210 ∧
      ∀ q ∈ romTrial (primeState 18446744073709551557).cfg.rom ((primeState 18446744073709551557).x 5).toNat,
        ¬ q ∣ ((primeState 18446744073709551557).x 5).toNat) ∧
    (2 ^ 62 ≤ ((primeState 4611686018427387911).x 5).toNat ∧
      Nat.Coprime ((primeState 4611686018427387911).x 5).toNat 210 ∧
      ∀ q ∈ romTrial (primeState 4611686018427387911).cfg.rom ((primeState 4611686018427387911).x 5).toNat,
        ¬ q ∣ ((primeState 4611686018427387911).x 5).toNat) := by
  decide +kernel

/-- A state with a certifying ROM and a candidate in X5. -/
def certifiedState (n : Word) : State := State.setX { State.reset with cfg := { plog := 12, rom := allBasesRom } } 5 n

theorem certifiedState_x (n : Word) : (certifiedState n).x 5 = n := x_setX_same _ _ _

/-- Each clause at one state: a prime, and a composite that reaches step 5. -/
theorem witness_IsprimeDecidesPrimality :
    (RomCertifies (certifiedState 17).cfg.rom ∧ ((certifiedState 17).x 5).toNat < 2 ^ 62 ∧
      Nat.Prime ((certifiedState 17).x 5).toNat) ∧
    (RomCertifies (certifiedState 169).cfg.rom ∧ ((certifiedState 169).x 5).toNat < 2 ^ 62 ∧
      ¬ Nat.Prime ((certifiedState 169).x 5).toNat) := by
  rw [certifiedState_x, certifiedState_x]
  refine ⟨⟨allBasesRom_certifies, by decide, ?_⟩, ⟨allBasesRom_certifies, by decide, ?_⟩⟩
  · rw [show (17 : Word).toNat = 17 by decide]
    norm_num
  · rw [show (169 : Word).toNat = 169 by decide]
    norm_num

/-- Both verdicts: base 2 passes for 17, and modulus 1 fails every base. -/
theorem witness_MrwitAccumulatesVerdicts :
    demo.modv = true ∧ demo.eng.Lawful ∧
      (true = true ↔ 3 ≤ demo.eng.m.toNat ∧ WitnessPass demo.eng.m.toNat (demo.x 5).toNat) ∧
      (engineState 1 [] []).modv = true ∧ (engineState 1 [] []).eng.Lawful ∧
      (false = true ↔ 3 ≤ (engineState 1 [] []).eng.m.toNat ∧
        WitnessPass (engineState 1 [] []).eng.m.toNat ((engineState 1 [] []).x 5).toNat) := by
  have m17 : demo.eng.m.toNat = 17 := by decide +kernel
  have m1 : (engineState 1 [] []).eng.m.toNat = 1 := by decide +kernel
  refine ⟨rfl, demo_lawful, ?_, rfl, ⟨1, by decide, by decide +kernel⟩, ?_⟩
  · rw [m17, demo_x.2.2.2.2.1]
    exact ⟨fun _ => ⟨by decide, prime_passes (by norm_num) (by decide) (by decide)⟩, fun _ => rfl⟩
  · rw [m1]
    exact ⟨fun h => absurd h (by decide), fun h => absurd h.1 (by decide)⟩

/-! ### Transforms -/

theorem witness_SetrootStartsNewTables : demo.modv = true := rfl

theorem witness_PrecompGrowsTheTables :
    demo.Inv ∧ demo.rootv = true ∧ (12 : LogLen).toNat ≤ demo.cfg.plog ∧ (0 : LogLen).toNat ≤ demo.cfg.plog :=
  ⟨demo_inv, rfl, by decide, by decide⟩

/-- A valid buffer that ends with PMEM; and, for length 1 and for length 4, a buffer of words never written. -/
theorem witness_TransformCommandResults :
    (demo.modv = true ∧ demo.rootv = true ∧ (2 : LogLen).toNat ≤ demo.cfg.plog ∧
      InsidePmem demo (demo.x 8).toNat (2 ^ (2 : LogLen).toNat) ∧
      ResidueBuffer demo (demo.x 8).toNat (2 ^ (2 : LogLen).toNat)) ∧
    ((0 : LogLen).toNat ≤ demo.cfg.plog ∧ InsidePmem demo (demo.x 10).toNat (2 ^ (0 : LogLen).toNat) ∧
      InsidePmem demo (demo.x 10).toNat (2 ^ (2 : LogLen).toNat) ∧
      ∀ j < 4, peek demo.pmem ((demo.x 10).toNat + j) = none) := by
  refine ⟨⟨rfl, rfl, by decide, .inr (by decide +kernel), ?_⟩, by decide, .inr (by decide +kernel),
    .inr (by decide +kernel), by decide +kernel⟩
  rw [demo_x.2.2.1]
  exact demo_buffer (.inr (.inr rfl))


theorem witness_PmulIsFourSteps :
    demo.Inv ∧ demo.rootv = true ∧ (2 : LogLen).toNat ≤ demo.cfg.plog ∧
      InsidePmem demo (demo.x 6).toNat (2 ^ (2 : LogLen).toNat) ∧
      InsidePmem demo (demo.x 7).toNat (2 ^ (2 : LogLen).toNat) ∧
      ResidueBuffer demo (demo.x 6).toNat (2 ^ (2 : LogLen).toNat) ∧
      ResidueBuffer demo (demo.x 7).toNat (2 ^ (2 : LogLen).toNat) ∧ (9 : Reg) ≠ 6 ∧ (9 : Reg) ≠ 7 := by
  refine ⟨demo_inv, rfl, by decide, .inr (by decide +kernel), .inr (by decide +kernel), ?_, ?_, by decide, by decide⟩
  · rw [demo_x.1]
    exact demo_buffer (.inl rfl)
  · rw [demo_x.2.1]
    exact demo_buffer (.inr (.inl rfl))

theorem witness_TransformRoundTrip :
    demo.Inv ∧ demo.rootv = true ∧ Nat.Prime demo.eng.m.toNat ∧ ¬ demo.eng.m.toNat ∣ demo.root.toNat ∧
      (2 : LogLen).toNat ≤ demo.cfg.plog ∧ InsidePmem demo (demo.x 8).toNat (2 ^ (2 : LogLen).toNat) ∧
      ResidueBuffer demo (demo.x 8).toNat (2 ^ (2 : LogLen).toNat) := by
  have m17 : demo.eng.m.toNat = 17 := by decide +kernel
  refine ⟨demo_inv, rfl, by rw [m17]; norm_num, by decide +kernel, by decide, .inr (by decide +kernel), ?_⟩
  rw [demo_x.2.2.1]
  exact demo_buffer (.inr (.inr rfl))

/-- Every primitive root meets the third precondition. -/
theorem precondition_of_primitive_root {m n g : Nat} (hm : m.Prime) (hn : n ∣ m - 1)
    (hg : orderOf (g : ZMod m) = m - 1) : TransformPrecondition m n g := by
  have hpos : 0 < m - 1 := Nat.sub_pos_of_lt hm.one_lt
  refine ⟨hm, hn, ?_⟩
  rw [orderOf_pow_of_dvd (Nat.div_pos (Nat.le_of_dvd hpos hn) (Nat.pos_of_dvd_of_pos hn hpos)).ne'
    (by rw [hg]; exact Nat.div_dvd_of_dvd hn), hg, Nat.div_div_self hn hpos.ne']

theorem three_has_order_16 : orderOf ((3 : Nat) : ZMod 17) = 17 - 1 := by
  refine orderOf_eq_of_pow_and_pow_div_prime (by decide) (by decide) fun q hq hd => ?_
  have : q = 2 := (Nat.prime_dvd_prime_iff_eq hq Nat.prime_two).1 (hq.dvd_of_dvd_pow (n := 4) hd)
  subst this
  decide

theorem demo_precondition :
    TransformPrecondition demo.eng.m.toNat (2 ^ (2 : LogLen).toNat) demo.root.toNat := by
  have m17 : demo.eng.m.toNat = 17 := by decide +kernel
  have g3 : demo.root.toNat = 3 := by decide +kernel
  rw [m17, g3]
  exact precondition_of_primitive_root (by norm_num) (by decide) three_has_order_16

/-- A root that is not primitive and serves (5 has order 4 modulo 13), and one of R210 point 3's second alternative that
does not: 2 has order 8 modulo 17, and 2^((17-1)/8) has order 4 (log 23). -/
theorem test_precondition_beyond_primitive_roots :
    TransformPrecondition 13 4 5 ∧ (2 : ZMod 17) ^ 8 = 1 ∧ (2 : ZMod 17) ^ 4 ≠ 1 ∧ ¬ TransformPrecondition 17 8 2 := by
  refine ⟨⟨by norm_num, by decide, orderOf_eq_prime_pow (p := 2) (n := 1) (by decide) (by decide)⟩,
    by decide, by decide, fun h => ?_⟩
  have h8 := h.2.2
  rw [orderOf_eq_prime_pow (p := 2) (n := 1) (by decide) (by decide)] at h8
  exact absurd h8 (by decide)

theorem witness_ForwardTransformEvaluates :
    demo.Inv ∧ demo.rootv = true ∧ (2 : LogLen).toNat ≤ demo.cfg.plog ∧
      TransformPrecondition demo.eng.m.toNat (2 ^ (2 : LogLen).toNat) demo.root.toNat ∧
      InsidePmem demo (demo.x 8).toNat (2 ^ (2 : LogLen).toNat) ∧
      ResidueBuffer demo (demo.x 8).toNat (2 ^ (2 : LogLen).toNat) :=
  ⟨demo_inv, rfl, by decide, demo_precondition, witness_TransformRoundTrip.2.2.2.2.2⟩

theorem witness_PmulIsCyclicConvolution :
    demo.Inv ∧ demo.rootv = true ∧ (2 : LogLen).toNat ≤ demo.cfg.plog ∧
      TransformPrecondition demo.eng.m.toNat (2 ^ (2 : LogLen).toNat) demo.root.toNat ∧
      InsidePmem demo (demo.x 6).toNat (2 ^ (2 : LogLen).toNat) ∧
      InsidePmem demo (demo.x 7).toNat (2 ^ (2 : LogLen).toNat) ∧
      ResidueBuffer demo (demo.x 6).toNat (2 ^ (2 : LogLen).toNat) ∧
      ResidueBuffer demo (demo.x 7).toNat (2 ^ (2 : LogLen).toNat) ∧
      (demo.x 6).toNat + 2 ^ (2 : LogLen).toNat ≤ (demo.x 7).toNat := by
  obtain ⟨hi, hr, hl, ha, hb, ra, rb, _, _⟩ := witness_PmulIsFourSteps
  exact ⟨hi, hr, hl, demo_precondition, ha, hb, ra, rb, by decide +kernel⟩

/-! ### Polynomial memory -/

/-- A written word, a word never written, and the last legal address. -/
theorem witness_ElementAccessResults :
    (demo.x 6).toNat < 2 ^ demo.cfg.plog ∧ peek demo.pmem (demo.x 6).toNat = some 1 ∧
      ((State.reset.setX 6 0xFFF).x 6).toNat < 2 ^ State.reset.cfg.plog ∧
      peek (State.reset.setX 6 0xFFF).pmem ((State.reset.setX 6 0xFFF).x 6).toNat = none := by decide +kernel

theorem witness_StoreThenLoadReturnsWord :
    ((State.reset.setX 6 0xFFF).x 6).toNat < 2 ^ (State.reset.setX 6 0xFFF).cfg.plog := by decide +kernel

/-- An element the vector form defines from an earlier element, which it defines from old words: the running sum 3 + (2 +
1) of demo's first words. -/
theorem witness_VectorElement : VectorElement demo demo.eng.add 1 0 1 6 :=
  .fromEarlierElement 1 0 3 3 3 (by decide) rfl ⟨3, by decide +kernel, rfl, by decide +kernel⟩
    (.fromOldWords 0 2 1 (by decide) ⟨2, by decide +kernel, rfl, by decide +kernel⟩
      ⟨1, by decide +kernel, rfl, by decide +kernel⟩)
    ⟨3, rfl, rfl, by decide +kernel⟩

/-- A range that ends with PMEM and one below it, their words residues; and the empty range anywhere. -/
theorem witness_VectorCommandsCombineElementwise :
    demo.modv = true ∧ InsidePmem demo (demo.x 8).toNat (demo.x 9).toNat ∧
      InsidePmem demo (demo.x 7).toNat (demo.x 9).toNat ∧ InsidePmem demo (demo.x 8).toNat (demo.x 0).toNat ∧
      ResidueWord demo.eng (peek demo.pmem ((demo.x 8).toNat + 3)) 17 ∧
      ResidueWord demo.eng (peek demo.pmem ((demo.x 7).toNat + 3)) 33 :=
  ⟨rfl, .inr (by decide +kernel), .inr (by decide +kernel), .inl (by decide +kernel),
    ⟨17, by decide +kernel, by decide, by decide +kernel⟩, ⟨33, by decide +kernel, by decide, by decide +kernel⟩⟩

theorem witness_ScalarCommandsCombineElementwise :
    demo.modv = true ∧ InsidePmem demo (demo.x 8).toNat (demo.x 9).toNat ∧
      InsidePmem demo (demo.x 8).toNat (demo.x 0).toNat ∧
      ResidueWord demo.eng (peek demo.pmem ((demo.x 8).toNat + 3)) 17 ∧ ResidueWord demo.eng (some (demo.x 5)) 2 :=
  ⟨rfl, .inr (by decide +kernel), .inl (by decide +kernel),
    ⟨17, by decide +kernel, by decide, by decide +kernel⟩, ⟨_, rfl, by decide +kernel, by decide +kernel⟩⟩

/-! ### Whole-machine rules, reset, the host window -/

theorem witness_CommandsTouchOnlyTheirOwnState : exec .nop demo = .next demo.retire := rfl

theorem witness_ValidTwiddleEntriesAreNeverRewritten :
    demo.Inv ∧ exec .nop demo = .next demo.retire ∧ ∀ ra, Instr.nop ≠ .setmod ra ∧ Instr.nop ≠ .setroot ra :=
  ⟨demo_inv, rfl, by simp⟩

theorem witness_InvariantKeptByEveryStep :
    State.Inv { demo with inputs := [.hostWrite 0 8 0x42000004] } ∧
      step { demo with inputs := [.hostWrite 0 8 0x42000004] } = .next (demo.accept 0x42000004) :=
  ⟨inv_inputs demo_inv _, rfl⟩

theorem witness_ResetGivesTheResetTable : demo.cfg.ok = true ∧ (0x1F : Word).toNat / 16 % 2 = 1 := by decide +kernel

theorem witness_CtrlWriteActsAtOnce :
    demo.cfg.ok = true ∧ (0x0F : Word).toNat / 16 % 2 = 0 ∧ (0x1F : Word).toNat / 16 % 2 = 1 := by decide +kernel

theorem witness_FaultIsLeftByClrerr :
    State.reset.cfg.ok = true ∧ Reports (.mfrom 3 2) State.reset 2 ∧
      exec (.mfrom 3 2) State.reset = .next (State.reset.takeFault .nomod) :=
  ⟨by decide +kernel, .nomod rfl ⟨rfl, rfl⟩, rfl⟩

/-- Idle and busy; the last word of PMEM; read-only and unmapped offsets beside the writable ones. -/
theorem witness_HostWritesReachOnlyTheirObject :
    demo.cfg.ok = true ∧ demo.cur = none ∧ (demo.accept 0).cur.isSome = true ∧ 0xFFF < 2 ^ demo.cfg.plog ∧
      (0x00F8 % 8 = 0 ∧ ¬ (0x0100 ≤ 0x00F8 ∧ 0x00F8 < 0x0180)) ∧
      (0x0180 % 8 = 0 ∧ ¬ (0x0100 ≤ 0x0180 ∧ 0x0180 < 0x0180)) ∧
      (0x01008000 % 8 = 0 ∧ ¬ (0x01000000 ≤ 0x01008000 ∧ 0x01008000 < 0x01000000 + 8 * 2 ^ demo.cfg.plog)) := by
  decide +kernel

/-- Idle and busy; the last PMEM word, written; a word never written; the one valid table entry and the first invalid
one; unmapped offsets just beyond each window. -/
theorem witness_HostReadsReturnTheirObject :
    demo.cfg.ok = true ∧ demo.cur = none ∧ (demo.accept 0).cur.isSome = true ∧ 0xFFF < 2 ^ demo.cfg.plog ∧
      peek demo.pmem 0xFFF = some 17 ∧ peek demo.pmem 8 = none ∧ 0 < 2 ^ (demo.cfg.plog - 1) ∧
      0 < demo.twcov.toNat / 2 ∧ peek demo.twf 0 = some 1 ∧ peek demo.twi 0 = some 1 ∧
      demo.twcov.toNat / 2 ≤ 1 ∧ 2047 < 2 ^ (demo.cfg.plog - 1) ∧ 0x0060 < 0x0068 ∧
      0x01000000 + 8 * 2 ^ demo.cfg.plog ≤ 0x01008000 ∧ 0x03000000 + 8 * 2 ^ (demo.cfg.plog - 1) ≤ 0x03004000 := by
  decide +kernel

theorem witness_ReadOnlyStateIsOutOfTheHostsReach :
    ¬ ((0x0020 : Nat) = 0x0010 ∧ (0x1F : Word).toNat / 16 % 2 = 1) ∧
      step { demo with inputs := .hostWrite 0x0020 8 0x1F :: demo.inputs } = .next demo :=
  ⟨by decide, rfl⟩

theorem witness_MisalignedHostAccessIsRefused :
    ((4 : Nat) ≠ 8 ∨ 0x0100 % 8 ≠ 0) ∧ ((8 : Nat) ≠ 8 ∨ 0x0104 % 8 ≠ 0) ∧
      step { demo with inputs := [.hostRead 0x0104 8] } = .refused .hostAccessForm :=
  ⟨by decide, by decide, rfl⟩

theorem witness_InterruptLineFollowsDoneAndErr : exec .nop demo = .next demo.retire ∧ demo.cfg.ok = true :=
  ⟨rfl, by decide +kernel⟩

theorem witness_ConfigIsAConstant :
    demo.cfg.ok = true ∧ demo.cfg.plog = 12 ∧ step State.reset = .next State.reset :=
  ⟨by decide +kernel, rfl, rfl⟩

end Sys2Proof.Tests
end

section
/-! PROOFS. Words as numbers. -/

-- One declaration at a time: as one text the package has too many theorems for a thread each within the memory limit.
set_option Elab.async false

namespace Sys2Proof

theorem append_toNat {n k : Nat} (a : BitVec n) (b : BitVec k) : (a ++ b).toNat = a.toNat * 2 ^ k + b.toNat := by
  rw [BitVec.toNat_append, ← Nat.shiftLeft_add_eq_or_of_lt b.isLt, Nat.shiftLeft_eq]

/-- A bit of a word as a number's digit. -/
theorem getLsbD_eq_digit (v : Word) (i : Nat) : v.getLsbD i = decide (v.toNat / 2 ^ i % 2 = 1) := by
  rw [BitVec.getLsbD, Nat.testBit_eq_decide_div_mod_eq]

end Sys2Proof
end

section
/-! PROOFS. The checks of a command as one computation over all commands, and that it is the spec's table of
60_exceptions R270 and order of R271 (`Runs`, `Reports`). -/

-- One declaration at a time: as one text the package has too many theorems for a thread each within the memory limit.
set_option Elab.async false

namespace Sys2Proof.Machine

/-! ### The first failing check (60_exceptions R271) -/

/-- R270's NOMOD row does not apply. -/
def engineReady (i : Instr) (s : State) : Bool := !usesEngine i || s.modv

/-- R270's NOROOT row does not apply. -/
def rootReady (i : Instr) (s : State) : Bool := !(lognOf i).isSome || s.rootv

/-- R270's BADLEN row does not apply. -/
def lengthFits (i : Instr) (s : State) : Bool := (lognOf i).all fun logn => decide (logn.toNat ≤ s.cfg.plog)

/-- R270's PRANGE row does not apply. -/
def rangesInside (i : Instr) (s : State) : Bool := (pmemOperands i s).all fun range => s.inRange range.1 range.2

/-- R270's BADMOD row does not apply: what SETMOD's check and ISPRIME's verdict compute. -/
def modulusAccepted : Instr → State → Bool
  | .setmod ra, s => modOk (s.ordinary ra)
  | .isprime _ ra, s => (primalityVerdict s.cfg.rom (s.ordinary ra)).isOk
  | _, _ => true

/-- The first check that fails, in the order of 60_exceptions R271. -/
def firstFault (i : Instr) (s : State) : Option CmdFault :=
  if i.wellFormed then
    if engineReady i s then
      if rootReady i s then
        if lengthFits i s then
          if rangesInside i s then
            if modulusAccepted i s then none else some .badmod
          else some .prange
        else some .badlen
      else some .noroot
    else some .nomod
  else some .illcmd

theorem engineReady_iff {i : Instr} {s : State} : engineReady i s = true ↔ (usesEngine i = true → s.modv = true) := by
  simp only [engineReady, Bool.or_eq_true, Bool.not_eq_true', ← Bool.not_eq_true, imp_iff_not_or]

theorem rootReady_iff {i : Instr} {s : State} : rootReady i s = true ↔ ((lognOf i).isSome → s.rootv = true) := by
  simp only [rootReady, Bool.or_eq_true, Bool.not_eq_true', ← Bool.not_eq_true, imp_iff_not_or]

theorem lengthFits_iff {i : Instr} {s : State} :
    lengthFits i s = true ↔ ∀ logn, lognOf i = some logn → logn.toNat ≤ s.cfg.plog := by
  simp only [lengthFits, Option.all_eq_true, decide_eq_true_eq]

theorem rangesInside_iff {i : Instr} {s : State} :
    rangesInside i s = true ↔ ∀ range ∈ pmemOperands i s, ¬ OutsidePmem s range := by
  simp only [rangesInside, List.all_eq_true]
  refine forall₂_congr fun range _ => ?_
  rw [inRange_iff, OutsidePmem]
  omega

/-- The verdict on a number that steps 1 to 4 settle is no fault (44_miller_rabin R188); the others are those coprime to
2·3·5·7 and to their trial primes, and of these a modulus the engine refuses is BADMOD. -/
theorem primalityVerdict_error_iff {rom : WitnessRom} {n : Nat} {c : CmdFault} :
    primalityVerdict rom n = .error c ↔
      c = .badmod ∧ 2 ^ 62 ≤ n ∧ Nat.Coprime n 210 ∧ ∀ q ∈ romTrial rom n, ¬ q ∣ n := by
  have coprime_iff : Nat.Coprime n 210 ↔ ¬ (n % 2 = 0 ∨ n % 3 = 0 ∨ n % 5 = 0 ∨ n % 7 = 0) := by
    rw [show 210 = 2 * (3 * (5 * 7)) from rfl, Nat.coprime_mul_iff_right, Nat.coprime_mul_iff_right,
      Nat.coprime_mul_iff_right, Nat.coprime_comm, Nat.Prime.coprime_iff_not_dvd Nat.prime_two, Nat.coprime_comm,
      Nat.Prime.coprime_iff_not_dvd Nat.prime_three, Nat.coprime_comm, Nat.Prime.coprime_iff_not_dvd Nat.prime_five,
      Nat.coprime_comm, Nat.Prime.coprime_iff_not_dvd (by decide : Nat.Prime 7)]
    omega
  rw [coprime_iff]
  unfold primalityVerdict witnessVerdict
  split
  · exact iff_of_false nofun (by omega)
  split
  · exact iff_of_false nofun (by omega)
  split
  · next h => exact iff_of_false nofun (fun ⟨_, _, hcop, _⟩ => hcop h)
  split
  · next h => exact iff_of_false nofun (fun ⟨_, _, _, htrial⟩ => htrial n h (dvd_refl n))
  split
  · next h =>
    obtain ⟨q, hq, hdvd⟩ := List.any_eq_true.1 h
    exact iff_of_false nofun fun ⟨_, _, _, htrial⟩ => htrial q hq (Nat.dvd_of_mod_eq_zero (by simpa using hdvd))
  next hcop _ htrial =>
  have trial_coprime : ∀ q ∈ romTrial rom n, ¬ q ∣ n := fun q hq hdvd =>
    htrial (List.any_eq_true.2 ⟨q, hq, by simpa using Nat.mod_eq_zero_of_dvd hdvd⟩)
  split
  · next h => exact ⟨fun e => ⟨by cases e; rfl, h, hcop, trial_coprime⟩, fun ⟨hc, _⟩ => hc ▸ rfl⟩
  · next h => exact iff_of_false nofun (fun ⟨_, h62, _, _⟩ => h h62)

theorem modOk_iff {m : Nat} : modOk m = true ↔ m % 2 = 1 ∧ m < 2 ^ 62 := by simp [modOk, modulusBound]

theorem modulusAccepted_iff {i : Instr} {s : State} : modulusAccepted i s = true ↔ ¬ OffersBadModulus i s := by
  cases i
  case setmod ra =>
    rw [modulusAccepted, OffersBadModulus, modOk_iff, State.ordinary]
    omega
  case isprime rd ra =>
    rw [modulusAccepted, OffersBadModulus, ← State.ordinary]
    cases h : primalityVerdict s.cfg.rom (s.ordinary ra) with
    | ok b =>
      have noError := mt (primalityVerdict_error_iff (c := .badmod)).2 (by rw [h]; exact nofun)
      exact iff_of_true rfl fun hbad => noError ⟨rfl, hbad⟩
    | error c => exact iff_of_false nofun (not_not.2 (primalityVerdict_error_iff.1 h).2)
  all_goals exact iff_of_true rfl id

theorem ite_some_eq_none {α : Type} {b : Bool} {o : Option α} {c : α} :
    (if b then o else some c) = none ↔ b = true ∧ o = none := by cases b <;> simp

/-- No check fails exactly when the spec's table says that the command runs. -/
theorem firstFault_eq_none_iff_runs {i : Instr} {s : State} : firstFault i s = none ↔ Runs i s := by
  rw [Runs, ← modulusAccepted_iff, ← engineReady_iff, ← rootReady_iff, ← lengthFits_iff, ← rangesInside_iff]
  simp only [firstFault, ite_some_eq_none, and_true]

/-- The commands that offer a modulus make no other check. -/
theorem only_modulus_checked {i : Instr} {s : State} (h : OffersBadModulus i s) :
    i.wellFormed = true ∧ engineReady i s = true ∧ rootReady i s = true ∧ lengthFits i s = true ∧
      rangesInside i s = true := by
  cases i
  case setmod => exact ⟨rfl, rfl, rfl, rfl, rfl⟩
  case isprime => exact ⟨rfl, rfl, rfl, rfl, rfl⟩
  all_goals exact absurd h id

/-- The first failing check has the code that the spec's table reports. -/
theorem firstFault_of_reports {i : Instr} {s : State} {code : BitVec 8} (h : Reports i s code) :
    ∃ c, firstFault i s = some c ∧ c.code = code := by
  cases h with
  | illcmd h => exact ⟨.illcmd, by simp [firstFault, h], rfl⟩
  | nomod h1 h =>
    have h2 : engineReady i s = false := by simp [engineReady, h]
    exact ⟨.nomod, by simp [firstFault, h1, h2], rfl⟩
  | noroot h1 h2 h =>
    have h3 : rootReady i s = false := by simp [rootReady, h]
    exact ⟨.noroot, by simp [firstFault, h1, engineReady_iff.2 h2, h3], rfl⟩
  | badlen h1 h2 h3 h =>
    obtain ⟨logn, hl, hlt⟩ := h
    have h4 : ¬ lengthFits i s = true := fun hfits => absurd (lengthFits_iff.1 hfits logn hl) (by omega)
    exact ⟨.badlen, by simp [firstFault, h1, engineReady_iff.2 h2, rootReady_iff.2 h3, h4], rfl⟩
  | prange h1 h2 h3 h4 h =>
    obtain ⟨range, hmem, hout⟩ := h
    have h5 : ¬ rangesInside i s = true := fun hin => rangesInside_iff.1 hin range hmem hout
    exact ⟨.prange, by
      simp [firstFault, h1, engineReady_iff.2 h2, rootReady_iff.2 h3, lengthFits_iff.2 h4, h5], rfl⟩
  | badmod h =>
    obtain ⟨h1, h2, h3, h4, h5⟩ := only_modulus_checked h
    have h6 : ¬ modulusAccepted i s = true := fun hok => modulusAccepted_iff.1 hok h
    exact ⟨.badmod, by simp [firstFault, h1, h2, h3, h4, h5, h6], rfl⟩

end Sys2Proof.Machine
end

section
/-! PROOFS. What a command that fails no check may write, unit by unit, and how each of the 35 commands ends: with the
fault of its first failing check, or retiring such writes. -/

-- One declaration at a time: as one text the package has too many theorems for a thread each within the memory limit.
set_option Elab.async false

namespace Sys2Proof.Machine

/-! ### Writes to PMEM -/

/-- t is s but for PMEM words in the ranges, and free values drawn; PMEM stays canonical. -/
structure PmemWritten (ranges : List (Nat × Nat)) (s t : State) : Prop where
  only : PmemOnly s t
  canonical : s.pmem.wf → t.pmem.wf
  outside : ∀ a, (∀ range ∈ ranges, a < range.1 ∨ range.1 + range.2 ≤ a) → peek t.pmem a = peek s.pmem a

theorem setPValue_wf {s : State} (h : s.pmem.wf) (a : Nat) (v : Option Nat) : (s.setPValue a v).pmem.wf := by
  cases v <;> exact poke_wf h _ _

theorem vectorForm_wf (op : Nat → Nat → Nat) (a b len : Nat) {s : State} (h : s.pmem.wf) :
    (vectorForm op a b len s).pmem.wf := by
  refine foldl_keeps (P := fun p : State × List Nat => p.1.pmem.wf) _ (fun p i _ hp => ?_) (s, []) h
  rw [vectorStep_eq]
  exact setPValue_wf hp _ _

theorem scalarForm_wf (op : Nat → Nat → Nat) (a len : Nat) (scalar : Option Nat) {s : State} (h : s.pmem.wf) :
    (scalarForm op a len scalar s).pmem.wf := by
  cases scalar with
  | none => exact storeRange_wf _ h a
  | some t => exact foldl_keeps (P := fun u => u.pmem.wf) _ (fun _ _ _ hu => setPValue_wf hu _ _) s h

theorem pointwiseAt_wf {s : State} (h : s.pmem.wf) (a b n : Nat) : (s.pointwiseAt a b n).pmem.wf :=
  foldl_keeps (P := fun t => t.pmem.wf) _ (fun _ _ _ ht => poke_wf ht _ _) s h

theorem forwardTransform_wf {s : State} (h : s.pmem.wf) (base : Nat) (logn : LogLen) :
    (s.forwardTransform base logn).pmem.wf := by
  unfold State.forwardTransform
  split
  · exact storeNats_wf h _ _
  · exact storeRange_wf _ h _

theorem inverseTransform_wf {s : State} (h : s.pmem.wf) (base : Nat) (logn : LogLen) :
    (s.inverseTransform base logn).pmem.wf := by
  unfold State.inverseTransform
  split
  · exact storeNats_wf h _ _
  · exact storeRange_wf _ h _

theorem convolve_wf {s : State} (h : s.pmem.wf) (a b : Nat) (logn : LogLen) : (s.convolve a b logn).pmem.wf := by
  unfold State.convolve
  split
  · exact storeNats_wf (pointwiseAt_wf (storeNats_wf (storeNats_wf h _ _) _ _) _ _ _) _ _
  · exact storeRange_wf _ (storeRange_wf _ h _) _

theorem PmemWritten.refl (ranges : List (Nat × Nat)) (s : State) : PmemWritten ranges s s :=
  ⟨PmemOnly.rfl' s, id, fun _ _ => rfl⟩

theorem PmemWritten.setP (s : State) (a : Nat) (v : Word) : PmemWritten [(a, 1)] s (s.setP a v) where
  only := s.setP_pmemOnly a v
  canonical h := poke_wf h a v
  outside c h := peek_poke_other _ _ (by have := h _ List.mem_cons_self; omega)

theorem PmemWritten.vectorForm (op : Nat → Nat → Nat) (a b len : Nat) (s : State) :
    PmemWritten [(a, len), (b, len)] s (vectorForm op a b len s) where
  only := vectorForm_pmemOnly op a b len s
  canonical := vectorForm_wf op a b len
  outside c h := vectorForm_outside op a b len s c (h _ List.mem_cons_self)

theorem PmemWritten.scalarForm (op : Nat → Nat → Nat) (a len : Nat) (scalar : Option Nat) (s : State) :
    PmemWritten [(a, len)] s (scalarForm op a len scalar s) where
  only := scalarForm_pmemOnly op a len scalar s
  canonical := scalarForm_wf op a len scalar
  outside c h := scalarForm_outside op a len scalar s c (h _ List.mem_cons_self)

theorem PmemWritten.forwardTransform (s : State) (base : Nat) (logn : LogLen) :
    PmemWritten [(base, 2 ^ logn.toNat)] s (s.forwardTransform base logn) where
  only := forwardTransform_pmemOnly s base logn
  canonical h := forwardTransform_wf h base logn
  outside c h := forwardTransform_outside s base logn c (h _ List.mem_cons_self)

theorem PmemWritten.inverseTransform (s : State) (base : Nat) (logn : LogLen) :
    PmemWritten [(base, 2 ^ logn.toNat)] s (s.inverseTransform base logn) where
  only := inverseTransform_pmemOnly s base logn
  canonical h := inverseTransform_wf h base logn
  outside c h := inverseTransform_outside s base logn c (h _ List.mem_cons_self)

theorem PmemWritten.convolve (s : State) (a b : Nat) (logn : LogLen) :
    PmemWritten [(a, 2 ^ logn.toNat), (b, 2 ^ logn.toNat)] s (s.convolve a b logn) where
  only := convolve_pmemOnly s a b logn
  canonical h := convolve_wf h a b logn
  outside c h := convolve_outside s a b logn c (h _ List.mem_cons_self)
    (h _ (List.mem_cons_of_mem _ List.mem_cons_self))

/-! ### What a command that fails no check writes -/

/-- t is s but for the register rd, and free values drawn. -/
def RegOnly (rd : Reg) (s t : State) : Prop :=
  (∀ r, r ≠ rd → t.x r = s.x r) ∧ t = { s with regs := t.regs, draws := t.draws }

/-- What a command i that fails no check on s may have written by the time it retires, unit by unit. -/
inductive Writes (i : Instr) (s : State) : State → Prop where
  | nothing : Writes i s s
  | register (rd : Reg) (t : State) (hrd : destination i = some rd) (ht : RegOnly rd s t) : Writes i s t
  | witness (rd ra : Reg) (pass : Bool) (hi : i = .mrwit rd ra) :
      Writes i s ((s.setX rd (verdictWord pass)).accumulateWitness pass)
  | modulus (ra : Reg) (hi : i = .setmod ra) (hm : modOk (s.ordinary ra) = true) :
      Writes i s (s.loadModulus (s.ordinary ra))
  | root (ra : Reg) (hi : i = .setroot ra) : Writes i s (s.loadRoot (s.x ra))
  | memory (t : State) (ht : PmemWritten (pmemOperands i s) s t) : Writes i s t
  | transform (logn : LogLen) (t : State) (hl : lognOf i = some logn)
      (ht : PmemWritten (pmemOperands i s) (s.precompute logn) t) : Writes i s t

theorem RegOnly.setX (s : State) (rd : Reg) (v : Word) : RegOnly rd s (s.setX rd v) :=
  ⟨fun _ h => x_setX_other s v h, rfl⟩

theorem RegOnly.setXValue (s : State) (rd : Reg) (v : Option Nat) : RegOnly rd s (s.setXValue rd v) :=
  setXValue_frame s rd v

theorem RegOnly.loadElement (s : State) (rd : Reg) (a : Nat) : RegOnly rd s (s.loadElement rd a) := by
  unfold State.loadElement
  split
  · exact RegOnly.setX s rd _
  · exact RegOnly.setXValue s rd none

/-! ### How a command ends -/

/-- The command's result when `fault` is its first failing check: that fault is taken and nothing else happens; without
one the command retires what it may write. -/
def Ends (i : Instr) (s : State) (fault : Option CmdFault) (r : Result) : Prop :=
  match fault with
  | some c => r = .next (s.takeFault c)
  | none => ∃ t, Writes i s t ∧ r = .next t.retire

section
variable {i : Instr} {s t : State} {fault : Option CmdFault}

theorem Ends.ok (h : Writes i s t) : Ends i s none (finish s (.ok t)) := ⟨t, h, rfl⟩

theorem ite_and_some {α : Type} {b₁ b₂ : Bool} {o : Option α} {c : α} :
    (if b₁ && b₂ then o else some c) = if b₁ then if b₂ then o else some c else some c := by cases b₁ <;> rfl

/-- One check in front of the rest of a command. -/
theorem Ends.check {b : Bool} {c : CmdFault} {k : Unit → Effect} (h : b = true → Ends i s fault (finish s (k ()))) :
    Ends i s (if b then fault else some c) (finish s (check c b >>= k)) := by
  cases b
  · rfl
  · exact h rfl

/-- The checks of a transform in front of the rest of it (60_exceptions R271). -/
theorem Ends.transform {logn : LogLen} {k : Unit → Effect} (h : Ends i s fault (finish s (k ()))) :
    Ends i s (if s.modv then if s.rootv then if decide (logn.toNat ≤ s.cfg.plog) then fault else some .badlen
      else some .noroot else some .nomod) (finish s (s.needTransform logn >>= k)) := by
  have assoc : s.needTransform logn >>= k =
      s.needEngine >>= fun _ => s.needRoot >>= fun _ => s.needLength logn >>= k := by
    simp only [State.needTransform, bind_assoc]
  rw [assoc]
  exact .check fun _ => .check fun _ => .check fun _ => h

/-- A command whose one check is NOMOD. -/
theorem Ends.engine (he : exec i s = finish s (s.needEngine >>= fun _ => .ok t))
    (hf : firstFault i s = if s.modv then none else some .nomod) (h : Writes i s t) :
    Ends i s (firstFault i s) (exec i s) := by
  rw [he, hf]
  exact .check fun _ => .ok h

/-- A command whose one check is the range of one PMEM word. -/
theorem Ends.word {a : Nat} (he : exec i s = finish s (s.needRange a 1 >>= fun _ => .ok t))
    (hf : firstFault i s = if s.inRange a 1 && true then none else some .prange) (h : Writes i s t) :
    Ends i s (firstFault i s) (exec i s) := by
  rw [he, hf, Bool.and_true]
  exact .check fun _ => .ok h

/-- A vector command: NOMOD, then PRANGE on A, then on B (46_poly_elementwise R249). -/
theorem Ends.vector {op : Nat → Nat → Nat} {ra rb rc : Reg} (he : exec i s = finish s (vectorEffect op ra rb rc s))
    (hr : pmemOperands i s = [(s.ordinary ra, s.ordinary rc), (s.ordinary rb, s.ordinary rc)])
    (hf : firstFault i s = if s.modv then if rangesInside i s then none else some .prange else some .nomod) :
    Ends i s (firstFault i s) (exec i s) := by
  have hinside : rangesInside i s =
      (s.inRange (s.ordinary ra) (s.ordinary rc) && s.inRange (s.ordinary rb) (s.ordinary rc)) := by
    simp [rangesInside, hr]
  rw [he, hf, hinside, ite_and_some]
  exact .check fun _ => .check fun _ => .check fun _ => .ok (.memory _ (hr ▸ .vectorForm ..))

/-- A scalar command: NOMOD, then PRANGE (46_poly_elementwise R249). -/
theorem Ends.scalar {op : Nat → Nat → Nat} {scalar : Option Nat} {ra rc : Reg}
    (he : exec i s = finish s (scalarEffect op scalar ra rc s))
    (hr : pmemOperands i s = [(s.ordinary ra, s.ordinary rc)])
    (hf : firstFault i s = if s.modv then if rangesInside i s then none else some .prange else some .nomod) :
    Ends i s (firstFault i s) (exec i s) := by
  have hinside : rangesInside i s = s.inRange (s.ordinary ra) (s.ordinary rc) := by simp [rangesInside, hr]
  rw [he, hf, hinside]
  exact .check fun _ => .check fun _ => .ok (.memory _ (hr ▸ .scalarForm ..))

/-- FNTT and INTT: the transform's checks, then PRANGE (45_ntt R217, R219). -/
theorem Ends.transformAt {base : Nat} {logn : LogLen}
    (he : exec i s = finish s (s.needTransform logn >>= fun _ =>
      s.needRange base (transformLength logn) >>= fun _ => .ok t))
    (hf : firstFault i s = if s.modv then if s.rootv then if decide (logn.toNat ≤ s.cfg.plog) then
      if s.inRange base (2 ^ logn.toNat) && true then none else some .prange else some .badlen else some .noroot
      else some .nomod) (h : Writes i s t) : Ends i s (firstFault i s) (exec i s) := by
  rw [he, hf, Bool.and_true]
  exact .transform (.check fun _ => .ok h)

/-- PMUL: the transform's checks, then PRANGE on A, then on B (45_ntt R220). -/
theorem Ends.transformPair {a b : Nat} {logn : LogLen}
    (he : exec i s = finish s (s.needTransform logn >>= fun _ => s.needRange a (transformLength logn) >>= fun _ =>
      s.needRange b (transformLength logn) >>= fun _ => .ok t))
    (hf : firstFault i s = if s.modv then if s.rootv then if decide (logn.toNat ≤ s.cfg.plog) then
      if s.inRange a (2 ^ logn.toNat) && (s.inRange b (2 ^ logn.toNat) && true) then none else some .prange
      else some .badlen else some .noroot else some .nomod) (h : Writes i s t) :
    Ends i s (firstFault i s) (exec i s) := by
  rw [he, hf, Bool.and_true, ite_and_some]
  exact .transform (.check fun _ => .check fun _ => .ok h)

end

/-- The control registers are numbered 0 to 10 (10_state R37). -/
theorem cregValue_isSome (s : State) (status : Word) : ∀ n, (cregValue s status n).isSome = decide (n ≤ 10)
  | 0 | 1 | 2 | 3 | 4 | 5 | 6 | 7 | 8 | 9 | 10 => rfl
  | n + 11 => (decide_eq_false (by omega)).symm

/-- RDC's one check is that its control register is not reserved (10_state R37). -/
theorem ends_rdc (rd : Reg) (creg : CregNum) (s : State) :
    Ends (.rdc rd creg) s (firstFault (.rdc rd creg) s) (exec (.rdc rd creg) s) := by
  have hf : firstFault (.rdc rd creg) s =
      if (cregValue s (statusWordInCommand s) creg.toNat).isSome then none else some .illcmd := by
    rw [cregValue_isSome]
    rfl
  rw [hf]
  simp only [exec, execRdc]
  cases cregValue s (statusWordInCommand s) creg.toNat with
  | none => rfl
  | some v => exact .ok (.register rd _ rfl (.setX ..))

/-- ISPRIME's one fault is its verdict's (44_miller_rabin R187, R188). -/
theorem ends_isprime (rd ra : Reg) (s : State) :
    Ends (.isprime rd ra) s (firstFault (.isprime rd ra) s) (exec (.isprime rd ra) s) := by
  have hf : firstFault (.isprime rd ra) s =
      if (primalityVerdict s.cfg.rom (s.ordinary ra)).isOk then none else some .badmod := rfl
  rw [hf]
  simp only [exec, execIsprime]
  cases h : primalityVerdict s.cfg.rom (s.ordinary ra) with
  | error c =>
    obtain ⟨rfl, _⟩ := primalityVerdict_error_iff.1 h
    rfl
  | ok verdict => exact .ok (.register rd _ rfl (.setX ..))

/-- Every command ends as its first failing check says: the arms of the dispatch, each by the checks it makes. -/
theorem exec_ends (i : Instr) (s : State) : Ends i s (firstFault i s) (exec i s) := by
  cases i
  case nop => exact .ok .nothing
  case li rd _ | lis rd _ | mov rd _ => exact .ok (.register rd _ rfl (.setX ..))
  case rdc rd creg => exact ends_rdc rd creg s
  case setmod ra => exact .check fun hm => .ok (.modulus ra rfl hm)
  case setroot ra => exact .engine rfl rfl (.root ra rfl)
  case mfrom rd _ | mto rd _ | madd rd _ _ | msub rd _ _ | mmul rd _ _ | mneg rd _ | mredc rd _ _ |
      mpowm rd _ _ _ | mpow rd _ _ | minv rd _ | mdiv rd _ _ =>
    exact .engine rfl rfl (.register rd _ rfl (.setXValue ..))
  case meq rd _ _ | mcmp rd _ _ => exact .engine rfl rfl (.register rd _ rfl (.setX ..))
  case pld rd ra => exact .word rfl rfl (.register rd _ rfl (.loadElement ..))
  case pst ra rb => exact .word rfl rfl (.memory _ (.setP ..))
  case precomp logn => exact .transform (.ok (.transform logn _ rfl (.refl ..)))
  case fntt ra logn => exact .transformAt rfl rfl (.transform logn _ rfl (.forwardTransform ..))
  case intt ra logn => exact .transformAt rfl rfl (.transform logn _ rfl (.inverseTransform ..))
  case pmul ra rb logn => exact .transformPair rfl rfl (.transform logn _ rfl (.convolve ..))
  case phad | pvadd | pvsub => exact .vector rfl rfl rfl
  case psadd | pssub | psmul | psdiv => exact .scalar rfl rfl rfl
  case isprime rd ra => exact ends_isprime rd ra s
  case mrwit rd ra => exact .engine rfl rfl (.witness rd ra _ rfl)

theorem exec_of_fault {i : Instr} {s : State} {c : CmdFault} (h : firstFault i s = some c) :
    exec i s = .next (s.takeFault c) := by
  have ends := exec_ends i s
  rwa [h] at ends

theorem exec_of_runs {i : Instr} {s : State} (h : Runs i s) : ∃ t, Writes i s t ∧ exec i s = .next t.retire := by
  have ends := exec_ends i s
  rwa [firstFault_eq_none_iff_runs.2 h] at ends

theorem exec_of_reports {i : Instr} {s : State} {code : BitVec 8} (h : Reports i s code) :
    ∃ c : CmdFault, c.code = code ∧ exec i s = .next (s.takeFault c) := by
  obtain ⟨c, hf, hc⟩ := firstFault_of_reports h
  exact ⟨c, hc, exec_of_fault hf⟩

/-- What a command that answers a next state can have done: it ran and retired its writes, or it took a fault. -/
theorem exec_next_writes {i : Instr} {s t : State} (h : exec i s = .next t) :
    (∃ u, Runs i s ∧ Writes i s u ∧ t = u.retire) ∨ ∃ c, t = s.takeFault c := by
  cases hf : firstFault i s with
  | none =>
    have hr := firstFault_eq_none_iff_runs.1 hf
    obtain ⟨u, hu, hnext⟩ := exec_of_runs hr
    rw [h] at hnext
    cases hnext
    exact .inl ⟨u, hr, hu, rfl⟩
  | some c =>
    have hnext := exec_of_fault hf
    rw [h] at hnext
    cases hnext
    exact .inr ⟨c, rfl⟩

end Sys2Proof.Machine
end

section
/-! PROOFS. The values of a lawful engine's functions stay inside their ranges, so that a twiddle table that grows holds
the exact products of 45_ntt R212. -/

-- One declaration at a time: as one text the package has too many theorems for a thread each within the memory limit.
set_option Elab.async false

namespace Sys2Proof.Machine

/-! ### Ranges of the engine functions (41_montgomery R120 to R128, 42_exponentiation R150 to R152) -/

theorem construct_m_toNat {m : Nat} (h : modOk m = true) : (construct m).m.toNat = m := by
  have := (modOk_iff.1 h).2
  simp only [construct, BitVec.toNat_ofNat]
  omega

theorem construct_one_toNat {m : Nat} (h : modOk m = true) : (construct m).one.toNat = 2 ^ 64 % m := by
  have hm := modOk_iff.1 h
  have : 2 ^ 64 % m < m := Nat.mod_lt _ (by omega)
  simp only [construct, radix, BitVec.toNat_ofNat]
  exact Nat.mod_eq_of_lt (by omega)

theorem construct_rsq_toNat {m : Nat} (h : modOk m = true) : (construct m).rsq.toNat = 2 ^ 128 % m := by
  have hm := modOk_iff.1 h
  have : 2 ^ 128 % m < m := Nat.mod_lt _ (by omega)
  simp only [construct, doubleRadix, BitVec.toNat_ofNat]
  exact Nat.mod_eq_of_lt (by omega)

/-- REDC of a value below c·2^64 is below c + m (41_montgomery R123). -/
theorem Engine.reduce_lt (e : Engine) {t c : Nat} (h : t < c * 2 ^ 64) : e.reduce t < c + e.m.toNat := by
  have hq : e.quotient t < 2 ^ 64 := Nat.mod_lt _ (by decide)
  have hqm : e.quotient t * e.m.toNat ≤ 2 ^ 64 * e.m.toNat := Nat.mul_le_mul_right _ hq.le
  refine Nat.div_lt_of_lt_mul (n := 2 ^ 64) ?_
  rw [Nat.mul_add]
  omega

namespace Engine.Lawful

variable {e : Engine} (h : e.Lawful)
include h

theorem m_pos : 0 < e.m.toNat := by
  obtain ⟨m, hm, rfl⟩ := h
  have := modOk_iff.1 hm
  rw [construct_m_toNat hm]
  omega

theorem m_lt : e.m.toNat < 2 ^ 62 := by
  obtain ⟨m, hm, rfl⟩ := h
  rw [construct_m_toNat hm]
  exact (modOk_iff.1 hm).2

theorem one_lt : e.one.toNat < 2 * e.m.toNat := by
  have hpos := h.m_pos
  obtain ⟨m, hm, rfl⟩ := h
  rw [construct_m_toNat hm] at hpos ⊢
  rw [construct_one_toNat hm]
  have := Nat.mod_lt (2 ^ 64) hpos
  omega

theorem rsq_lt : e.rsq.toNat < e.m.toNat := by
  have hpos := h.m_pos
  obtain ⟨m, hm, rfl⟩ := h
  rw [construct_m_toNat hm] at hpos ⊢
  rw [construct_rsq_toNat hm]
  exact Nat.mod_lt _ hpos

/-- From of a word is a valid residue word (41_montgomery R124). -/
theorem fromOrdinary_lt {x : Nat} (hx : x < 2 ^ 64) : e.fromOrdinary x < 2 * e.m.toNat := by
  have hlt : x * e.rsq.toNat < e.m.toNat * 2 ^ 64 := by
    rw [Nat.mul_comm]
    exact Nat.mul_lt_mul'' h.rsq_lt hx
  have := e.reduce_lt hlt
  unfold Engine.fromOrdinary
  omega

/-- Mul of valid residue words is a valid residue word (41_montgomery R128). -/
theorem mul_lt {a b : Nat} (ha : a < 2 * e.m.toNat) (hb : b < 2 * e.m.toNat) : e.mul a b < 2 * e.m.toNat := by
  have hm := h.m_lt
  have hlt : a * b < e.m.toNat * 2 ^ 64 :=
    calc a * b < (2 * e.m.toNat) * (2 * e.m.toNat) := Nat.mul_lt_mul'' ha hb
      _ = e.m.toNat * (4 * e.m.toNat) := by ring
      _ ≤ e.m.toNat * 2 ^ 64 := Nat.mul_le_mul_left _ (by omega)
  have := e.reduce_lt hlt
  unfold Engine.mul
  omega

/-- Mul of any word by a valid residue word is a word. -/
theorem mul_word_lt {a b : Nat} (ha : a < 2 ^ 64) (hb : b < 2 * e.m.toNat) : e.mul a b < 2 ^ 64 := by
  have hm := h.m_lt
  have hlt : a * b < (2 * e.m.toNat) * 2 ^ 64 := by
    rw [Nat.mul_comm]
    exact Nat.mul_lt_mul'' hb ha
  have := e.reduce_lt hlt
  unfold Engine.mul
  omega

theorem powLoop_lt (fuel : Nat) : ∀ {x y z : Nat}, x < 2 * e.m.toNat → z < 2 * e.m.toNat →
    e.powLoop fuel x y z < 2 * e.m.toNat := by
  induction fuel with
  | zero => exact fun _ hz => hz
  | succ fuel ih =>
    intro x y z hx hz
    unfold Engine.powLoop
    split
    · exact hz
    · refine ih (h.mul_lt hx hx) ?_
      split
      · exact h.mul_lt hz hx
      · exact hz

theorem power_lt {x : Nat} (hx : x < 2 * e.m.toNat) (y : Nat) : e.power x y < 2 * e.m.toNat := by
  unfold Engine.power Engine.powMul
  exact h.powLoop_lt 64 hx h.one_lt

theorem inverse_lt {x : Nat} (hx : x < 2 * e.m.toNat) : e.inverse x < 2 * e.m.toNat := by
  unfold Engine.inverse Engine.powMul
  exact h.powLoop_lt 64 hx h.one_lt

theorem rootForward_lt {x : Nat} (hx : x < 2 * e.m.toNat) (n : Nat) : e.rootForward x n < 2 * e.m.toNat :=
  h.power_lt (h.inverse_lt hx) _

theorem rootInverse_lt {x : Nat} (hx : x < 2 * e.m.toNat) (n : Nat) : e.rootInverse x n < 2 * e.m.toNat :=
  h.power_lt hx _

end Engine.Lawful

/-! ### The growth of a lawful table (45_ntt R212) -/

/-- Growing a table lawful at coverage 2^(d+1) by its stage root makes it lawful at 2^(d+2). -/
theorem TableLawful.grow {e : Engine} {table : WordMem} {d : Nat} {stageRoot : Nat → Nat} (he : e.Lawful)
    (hroot : stageRoot (2 ^ (d + 2)) < 2 * e.m.toNat) (h : TableLawful e table (d + 1) stageRoot) :
    TableLawful e (e.growTable table (2 ^ d) (stageRoot (2 ^ (d + 2)))) (d + 2) stageRoot := by
  obtain ⟨hone, hrec⟩ := h
  have below : ∀ k < 2 ^ d, peek (e.growTable table (2 ^ d) (stageRoot (2 ^ (d + 2)))) k = peek table k :=
    fun k hk => growTable_below e table _ _ k hk
  refine ⟨(below 0 (by positivity)).trans hone, fun j k hj hk => ?_⟩
  have hkd : k < 2 ^ d := hk.trans_le (Nat.pow_le_pow_right (by decide) (by omega))
  rw [wordAt, below k hkd, ← wordAt]
  rcases Nat.lt_or_ge j d with hlt | hge
  · have hjd : 2 ^ j + k < 2 ^ d := by
      have : 2 ^ (j + 1) ≤ 2 ^ d := Nat.pow_le_pow_right (by decide) hlt
      omega
    rw [below _ hjd]
    exact hrec j k (by omega) hk
  · obtain rfl : j = d := by omega
    refine ⟨_, growTable_new e table _ _ k hk, ?_⟩
    rw [BitVec.toNat_ofNat]
    exact Nat.mod_eq_of_lt (he.mul_word_lt (wordAt_lt table k) hroot)

end Sys2Proof.Machine
end

section
/-! PROOFS. The invariant: what it says part by part, that each write of a command and each host access keeps its
parts, and so that every step keeps it. -/

-- One declaration at a time: as one text the package has too many theorems for a thread each within the memory limit.
set_option Elab.async false

namespace Sys2Proof.Machine

/-! ### The parts of the invariant -/

/-- A memory in canonical form whose addresses are below a bound (10_state R40, R41). -/
def MemoryInv (mem : WordMem) (bound : Nat) : Prop := mem.wf ∧ ∀ p ∈ mem, p.1 < bound

/-- The engine, the root and the twiddle tables agree with their flags (10_state R26, R30 to R32). -/
def UnitsInv (s : State) : Prop :=
  (s.modv = true → s.eng.Lawful) ∧ (s.modv = false → s.eng = { m := 0, m2 := 0, mprime := 0, one := 0, rsq := 0 }) ∧
    (s.rootv = true → s.modv = true) ∧ (s.mracc = true → s.modv = true) ∧
    (s.rootv = false → s.root = 0 ∧ s.rootr = 0 ∧ s.twcov = 0) ∧ (s.rootv = true → s.TwiddlesLawful)

/-- The fault record and the execution state are consistent (10_state R33, 40_system R100). -/
def ExecutionInv (s : State) : Prop :=
  (s.err = false → s.errcode = 0 ∧ s.errcmd = 0) ∧
    (s.err = true → 1 ≤ s.errcode.toNat ∧ s.errcode.toNat ≤ 6) ∧
    (s.cur.isSome = true → s.err = false ∧ s.done = false)

theorem inv_iff {s : State} :
    s.Inv ↔ s.cfg.ok = true ∧ MemoryInv s.pmem (2 ^ s.cfg.plog) ∧ MemoryInv s.twf (2 ^ (s.cfg.plog - 1)) ∧
      MemoryInv s.twi (2 ^ (s.cfg.plog - 1)) ∧ UnitsInv s ∧ ExecutionInv s := by
  constructor
  · intro h
    exact ⟨h.params, ⟨h.pmem_wf, h.pmem_inside⟩, ⟨h.twf_wf, h.twf_inside⟩, ⟨h.twi_wf, h.twi_inside⟩,
      ⟨h.engine_lawful, h.engine_absent, h.root_needs_engine, h.mracc_needs_engine, h.root_absent, h.root_lawful⟩,
      ⟨h.no_fault_record, h.fault_code, h.busy_clean⟩⟩
  · rintro ⟨hok, ⟨hpw, hpi⟩, ⟨hfw, hfi⟩, ⟨hiw, hii⟩, ⟨he, he0, hre, hme, hr0, hr⟩, ⟨hn, hc, hb⟩⟩
    exact ⟨hok, hpw, hpi, hfw, hfi, hiw, hii, he, he0, hre, hme, hr0, hr, hn, hc, hb⟩

/-- The invariant says nothing of the general registers, OVR, IE, the count and the model's own fields. -/
theorem State.Inv.frame {s : State} (h : s.Inv) (regs : Vector Word 16) (ovr ie : Bool) (cmdcnt : Word)
    (ovrAtAcceptance : Bool) (inputs : List Input) (rdata : Word) (draws : Nat) :
    State.Inv { s with
      regs := regs
      ovr := ovr
      ie := ie
      cmdcnt := cmdcnt
      ovrAtAcceptance := ovrAtAcceptance
      inputs := inputs
      rdata := rdata
      draws := draws } := by
  have parts := inv_iff.1 h
  exact inv_iff.2 parts

theorem MemoryInv.nil (bound : Nat) : MemoryInv [] bound := ⟨List.Pairwise.nil, nofun⟩

theorem MemoryInv.poke {mem : WordMem} {bound a : Nat} (h : MemoryInv mem bound) (ha : a < bound) (v : Word) :
    MemoryInv (poke mem a v) bound := ⟨poke_wf h.1 a v, poke_inside h.2 ha v⟩

theorem MemoryInv.growTable {table : WordMem} {bound n : Nat} (h : MemoryInv table bound) (hn : 2 * n ≤ bound)
    (e : Engine) (root : Nat) : MemoryInv (e.growTable table n root) bound :=
  foldl_keeps (P := fun t => MemoryInv t bound) _
    (fun _ _ hk ht => ht.poke (by have := List.mem_range.1 hk; omega) _) table h

/-- Writes inside PMEM keep it canonical and inside its bound. -/
theorem PmemWritten.memoryInv {ranges : List (Nat × Nat)} {s t : State} (h : PmemWritten ranges s t)
    (hin : ∀ range ∈ ranges, ¬ OutsidePmem s range) (hs : MemoryInv s.pmem (2 ^ s.cfg.plog)) :
    MemoryInv t.pmem (2 ^ s.cfg.plog) := by
  refine ⟨h.canonical hs.1, fun p hp => ?_⟩
  by_contra hbeyond
  have hpeek : peek t.pmem p.1 = some p.2 := peek_of_mem (h.canonical hs.1) hp
  rw [h.outside p.1] at hpeek
  · exact hbeyond (hs.2 _ (mem_of_peek hpeek))
  · intro range hr
    have := hin range hr
    unfold OutsidePmem at this
    omega

/-! ### Resets -/

/-- What either reset leaves meets the invariant (10_state R49, 70_reset_and_hazards R300). -/
theorem resetWith_inv {cfg : Params} (h : cfg.ok = true) (inputs : List Input) (rdata : Word) (draws : Nat) :
    (State.resetWith cfg inputs rdata draws).Inv :=
  inv_iff.2 ⟨h, .nil _, .nil _, .nil _, ⟨nofun, fun _ => rfl, nofun, nofun, fun _ => ⟨rfl, rfl, rfl⟩, nofun⟩,
    ⟨fun _ => ⟨rfl, rfl⟩, nofun, nofun⟩⟩

theorem reference_ok : Config.reference.ok = true := by decide +kernel

/-- Settles O44: a reset with admissible parameters meets the invariant, and the reference ones are (log 1). -/
theorem invariantHoldsAtReset : Obligations.InvariantHoldsAtReset := resetWith_inv reference_ok [] 0 0

/-! ### Commands -/

theorem CmdFault.code_range (c : CmdFault) : 1 ≤ c.code.toNat ∧ c.code.toNat ≤ 6 := by cases c <;> decide

theorem State.Inv.retire {s : State} (h : s.Inv) : s.retire.Inv := by
  obtain ⟨hok, hp, hf, hi, hu, hn, hc, _⟩ := inv_iff.1 h
  exact inv_iff.2 ⟨hok, hp, hf, hi, hu, hn, hc, nofun⟩

theorem State.Inv.takeFault {s : State} (h : s.Inv) (c : CmdFault) : (s.takeFault c).Inv := by
  obtain ⟨hok, hp, hf, hi, hu, _⟩ := inv_iff.1 h
  exact inv_iff.2 ⟨hok, hp, hf, hi, hu, nofun, fun _ => c.code_range, nofun⟩

theorem RegOnly.inv {rd : Reg} {s t : State} (ht : RegOnly rd s t) (h : s.Inv) : t.Inv := by
  obtain ⟨_, ht⟩ := ht
  rw [ht]
  exact h.frame ..

theorem State.Inv.accumulateWitness {s : State} (h : s.Inv) (pass : Bool) : (s.accumulateWitness pass).Inv := by
  obtain ⟨hok, hp, hf, hi, ⟨he, he0, hre, hme, hr0, hr⟩, hx⟩ := inv_iff.1 h
  exact inv_iff.2 ⟨hok, hp, hf, hi, ⟨he, he0, hre, fun hacc => hme (Bool.and_eq_true_iff.1 hacc).1, hr0, hr⟩, hx⟩

/-- SETMOD loads a lawful engine and drops the root (41_montgomery R121). -/
theorem State.Inv.loadModulus {s : State} (h : s.Inv) {m : Nat} (hm : modOk m = true) : (s.loadModulus m).Inv := by
  obtain ⟨hok, hp, hf, hi, _, hx⟩ := inv_iff.1 h
  exact inv_iff.2 ⟨hok, hp, hf, hi,
    ⟨fun _ => ⟨m, hm, rfl⟩, nofun, nofun, fun _ => rfl, fun _ => ⟨rfl, rfl, rfl⟩, nofun⟩, hx⟩

/-- One entry, ONE, is all that coverage 2 asks of a table (45_ntt R214). -/
theorem TableLawful.single (e : Engine) (table : WordMem) (stageRoot : Nat → Nat) :
    TableLawful e (poke table 0 e.one) 1 stageRoot :=
  ⟨peek_poke_same table 0 e.one, fun j _ hj => by omega⟩

/-- SETROOT leaves lawful tables of coverage 2 (45_ntt R214). -/
theorem State.Inv.loadRoot {s : State} (h : s.Inv) (hmodv : s.modv = true) (g : Word) : (s.loadRoot g).Inv := by
  obtain ⟨hok, hp, hf, hi, ⟨he, he0, _, hme, _, _⟩, hx⟩ := inv_iff.1 h
  have hlawful := he hmodv
  have hm := hlawful.m_lt
  have hrootr := hlawful.fromOrdinary_lt g.isLt
  have hplog := plog_of_ok hok
  refine inv_iff.2 ⟨hok, hp, hf.poke (by positivity) _, hi.poke (by positivity) _,
    ⟨he, he0, fun _ => hmodv, hme, nofun, fun _ => ⟨?_, 1, le_refl 1, hplog.1, rfl, .single .., .single ..⟩⟩, hx⟩
  rw [State.loadRoot_rootr, BitVec.toNat_ofNat]
  exact Nat.mod_eq_of_lt (by omega)

/-- One growth of the tables, up to a coverage of at most 2^PLOG (45_ntt R212). -/
theorem State.Inv.growTables {s : State} (h : s.Inv) (hrootv : s.rootv = true) (hcov : s.twcov.toNat < 2 ^ s.cfg.plog) :
    s.growTables.Inv := by
  obtain ⟨hok, hp, hf, hi, ⟨he, he0, hre, hme, _, hr⟩, hx⟩ := inv_iff.1 h
  obtain ⟨hroot, c, hc1, _, hc, htf, hti⟩ := hr hrootv
  obtain ⟨d, rfl⟩ : ∃ d, c = d + 1 := ⟨c - 1, by omega⟩
  have hplog := plog_of_ok hok
  have hlawful := he (hre hrootv)
  have hrootr : s.rootr.toNat < 2 * s.eng.m.toNat := hroot ▸ hlawful.fromOrdinary_lt s.root.isLt
  have hdplog : d + 1 < s.cfg.plog := (Nat.pow_lt_pow_iff_right (by decide)).1 (hc ▸ hcov)
  have hnew : 2 * s.twcov.toNat = 2 ^ (d + 2) := by rw [hc]; ring
  have hhalf : 2 * s.twcov.toNat / 4 = 2 ^ d := by rw [hnew]; omega
  have hinside : 2 * 2 ^ d ≤ 2 ^ (s.cfg.plog - 1) := by
    rw [← Nat.pow_succ']
    exact Nat.pow_le_pow_right (by decide) (by omega)
  have hnewcov : s.growTables.twcov.toNat = 2 ^ (d + 2) := by
    rw [State.growTables_twcov, hnew, BitVec.toNat_ofNat]
    exact Nat.mod_eq_of_lt (Nat.pow_lt_pow_right (by decide) (by omega))
  have htwf : s.growTables.twf = s.eng.growTable s.twf (2 ^ d) (s.eng.rootForward s.rootr.toNat (2 ^ (d + 2))) := by
    rw [State.growTables_twf, hhalf, hnew]
  have htwi : s.growTables.twi = s.eng.growTable s.twi (2 ^ d) (s.eng.rootInverse s.rootr.toNat (2 ^ (d + 2))) := by
    rw [State.growTables_twi, hhalf, hnew]
  refine inv_iff.2 ⟨hok, hp, htwf ▸ hf.growTable hinside _ _, htwi ▸ hi.growTable hinside _ _,
    ⟨he, he0, hre, hme, fun hno => absurd (hrootv.symm.trans hno) nofun, fun _ =>
      ⟨hroot, d + 2, by omega, hdplog, hnewcov, ?_, ?_⟩⟩, hx⟩
  · rw [htwf]
    exact htf.grow hlawful (hlawful.rootForward_lt hrootr _)
  · rw [htwi]
    exact hti.grow hlawful (hlawful.rootInverse_lt hrootr _)

theorem State.Inv.precomputeLoop {n : Nat} (fuel : Nat) : ∀ {s : State}, s.Inv → s.rootv = true →
    n ≤ 2 ^ s.cfg.plog → (State.precomputeLoop fuel n s).Inv := by
  induction fuel with
  | zero => exact fun h _ _ => h
  | succ fuel ih =>
    intro s h hrootv hn
    rw [State.precomputeLoop]
    split
    · next hcov => exact ih (h.growTables hrootv (by omega)) hrootv hn
    · exact h

/-- Precompute keeps the invariant (45_ntt R212). -/
theorem State.Inv.precompute {s : State} (h : s.Inv) (hrootv : s.rootv = true) {logn : LogLen}
    (hl : logn.toNat ≤ s.cfg.plog) : (s.precompute logn).Inv :=
  h.precomputeLoop _ hrootv (Nat.pow_le_pow_right (by decide) hl)

/-- Writes inside PMEM keep the invariant. -/
theorem PmemWritten.inv {ranges : List (Nat × Nat)} {s t : State} (ht : PmemWritten ranges s t)
    (hin : ∀ range ∈ ranges, ¬ OutsidePmem s range) (h : s.Inv) : t.Inv := by
  obtain ⟨hok, hp, hrest⟩ := inv_iff.1 h
  have hpmem := ht.memoryInv hin hp
  rw [ht.only]
  exact inv_iff.2 ⟨hok, hpmem, hrest⟩

/-- What a command that runs writes keeps the invariant. -/
theorem Writes.inv {i : Instr} {s t : State} (ht : Writes i s t) (hr : Runs i s) (h : s.Inv) : t.Inv := by
  obtain ⟨_, hengine, hroot, hlength, hranges, _⟩ := hr
  cases ht with
  | nothing => exact h
  | register rd _ _ ht => exact ht.inv h
  | witness rd ra pass _ => exact ((RegOnly.setX s rd _).inv h).accumulateWitness pass
  | modulus ra _ hm => exact h.loadModulus hm
  | root ra hi => exact h.loadRoot (hengine (hi ▸ rfl)) _
  | memory _ ht => exact ht.inv hranges h
  | transform logn _ hl ht =>
    have hpre := h.precompute (hroot (hl ▸ rfl)) (hlength logn hl)
    have hsame := precompute_tablesOnly s logn
    refine ht.inv (fun range hmem => ?_) hpre
    rw [OutsidePmem, congrArg State.cfg hsame]
    exact hranges range hmem

theorem exec_inv {i : Instr} {s t : State} (h : s.Inv) (ht : exec i s = .next t) : t.Inv := by
  rcases exec_next_writes ht with ⟨u, hr, hu, rfl⟩ | ⟨c, rfl⟩
  · exact (hu.inv hr h).retire
  · exact h.takeFault c

/-! ### Inputs -/

theorem completion_inv {s t : State} (h : s.Inv) (ht : completion s = .next t) : t.Inv := by
  rcases completion_cases ht with ⟨_, hs⟩ | ⟨v, i, _, _, hi⟩ | ⟨v, d, _, _, hd⟩
  · cases hs
    exact h
  · exact exec_inv h hi.symm
  · cases hd
    exact h.takeFault .illcmd

theorem arrayIndex_lt {base count offset k : Nat} (h : arrayIndex base count offset = some k) : k < count := by
  unfold arrayIndex at h
  split at h
  · cases h
    omega
  · cases h

theorem registerAt_ne_pmem (offset a : Nat) : registerAt offset ≠ .pmem a := by
  unfold registerAt
  split <;> exact nofun

/-- The window maps PMEM's array to addresses below 2^PLOG (20_memory R64). -/
theorem lt_of_windowObject_pmem {plog offset a : Nat} (h : windowObject plog offset = .pmem a) : a < 2 ^ plog := by
  unfold windowObject at h
  split at h
  · cases h
  split at h
  · next hindex =>
    cases h
    exact arrayIndex_lt hindex
  split at h
  · cases h
  split at h
  · cases h
  · exact absurd h (registerAt_ne_pmem offset a)

theorem State.Inv.setP {s : State} (h : s.Inv) {a : Nat} (ha : a < 2 ^ s.cfg.plog) (v : Word) : (s.setP a v).Inv := by
  obtain ⟨hok, hp, hrest⟩ := inv_iff.1 h
  exact inv_iff.2 ⟨hok, hp.poke ha v, hrest⟩

/-- An accepted CMD write starts an execution with no fault recorded and DONE clear (40_system R100). -/
theorem State.Inv.accept {s : State} (h : s.Inv) (herr : s.err = false) (v : Word) : (s.accept v).Inv := by
  obtain ⟨hok, hp, hf, hi, hu, hn, hc, _⟩ := inv_iff.1 h
  exact inv_iff.2 ⟨hok, hp, hf, hi, hu, hn, hc, fun _ => ⟨herr, rfl⟩⟩

theorem State.Inv.resetNow {s : State} (h : s.Inv) : s.resetNow.Inv := resetWith_inv h.params _ _ _

theorem State.Inv.clearFault {s : State} (h : s.Inv) : s.clearFault.Inv := by
  obtain ⟨hok, hp, hf, hi, hu, _, _, hb⟩ := inv_iff.1 h
  exact inv_iff.2 ⟨hok, hp, hf, hi, hu, fun _ => ⟨rfl, rfl⟩, nofun, fun hcur => ⟨rfl, (hb hcur).2⟩⟩

theorem State.Inv.pulseClrerr {s : State} (h : s.Inv) (b : Bool) : (s.pulseClrerr b).Inv := by
  unfold State.pulseClrerr
  split
  · exact h.clearFault
  · exact h

theorem State.Inv.pulseClrdone {s : State} (h : s.Inv) (b : Bool) : (s.pulseClrdone b).Inv := by
  unfold State.pulseClrdone
  split
  · obtain ⟨hok, hp, hf, hi, hu, hn, hc, hb⟩ := inv_iff.1 h
    exact inv_iff.2 ⟨hok, hp, hf, hi, hu, hn, hc, fun hcur => ⟨(hb hcur).1, rfl⟩⟩
  · exact h

theorem State.Inv.pulseClrovr {s : State} (h : s.Inv) (b : Bool) : (s.pulseClrovr b).Inv := by
  unfold State.pulseClrovr
  split
  · exact h.frame ..
  · exact h

/-- A CTRL write keeps the invariant, since SRST does and each of the pulses does (10_state R34). -/
theorem State.Inv.writeCtrl {s : State} (h : s.Inv) (v : Word) : (s.writeCtrl v).Inv := by
  unfold State.writeCtrl
  split
  · exact h.resetNow
  · have hie : (s.setIe (v.getLsbD 0)).Inv := h.frame ..
    exact ((hie.pulseClrerr _).pulseClrdone _).pulseClrovr _

theorem State.Inv.hostWriteObject {s : State} (h : s.Inv) {plog offset : Nat} (hplog : plog = s.cfg.plog) (v : Word) :
    (s.hostWriteObject (windowObject plog offset) v).Inv := by
  rcases hostWriteObject_cases s (windowObject plog offset) v with
    hs | hs | ⟨_, _, herr, hs⟩ | ⟨_, hs⟩ | ⟨r, _, _, hs⟩ | ⟨a, ha, _, hs⟩ <;> rw [hs]
  · exact h
  · exact h.frame ..
  · exact h.accept herr v
  · exact h.writeCtrl v
  · exact (RegOnly.setX s r v).inv h
  · exact h.setP (hplog ▸ lt_of_windowObject_pmem ha) v

theorem State.Inv.hostReadObject {s : State} (h : s.Inv) (obj : WindowObject) : (s.hostReadObject obj).Inv := by
  rw [hostReadObject_eq]
  exact h.frame ..

theorem handleInput_inv {input : Input} {s t : State} (h : s.Inv) (ht : handleInput input s = .next t) : t.Inv := by
  cases input with
  | hostWrite offset width v =>
    rcases hostWrite_cases ht with ⟨_, hs⟩ | ⟨_, hs⟩ <;> cases hs
    exact h.hostWriteObject rfl v
  | hostRead offset width =>
    rcases hostRead_cases ht with ⟨_, hs⟩ | ⟨_, hs⟩ <;> cases hs
    exact h.hostReadObject _
  | hardwareReset =>
    cases ht
    exact h.resetNow
  | completion => exact completion_inv h ht

/-- Settles O45: each entry of the input stream keeps the invariant, and so does the completion an exhausted one lets
happen (log 2). -/
theorem invariantKeptByEveryStep : Obligations.InvariantKeptByEveryStep := by
  intro s t h ht
  rcases step_cases ht with ⟨_, hs⟩ | ⟨input, rest, _, hs⟩
  · exact completion_inv h hs
  · exact handleInput_inv (h.frame _ _ _ _ _ rest _ _) hs

end Sys2Proof.Machine
end

section
/-! PROOFS. Frames: what no command touches, what each command may touch, what the host window reaches. -/

-- One declaration at a time: as one text the package has too many theorems for a thread each within the memory limit.
set_option Elab.async false

namespace Sys2Proof.Machine

/-! ### What no command writes before it ends -/

/-- t is s but for the registers, the units and the memories: the parameters, the execution state, the fault record,
OVR, IE, the count and the model's input stream are as they were. -/
def UnitsOnly (s t : State) : Prop :=
  t = { s with
    regs := t.regs
    eng := t.eng
    root := t.root
    rootr := t.rootr
    twcov := t.twcov
    modv := t.modv
    rootv := t.rootv
    mracc := t.mracc
    pmem := t.pmem
    twf := t.twf
    twi := t.twi
    draws := t.draws }

theorem PmemOnly.eq_update {s t : State} (h : PmemOnly s t) :
    ∃ pmem draws, t = { s with pmem := pmem, draws := draws } := ⟨_, _, h⟩

theorem TablesOnly.eq_update {s t : State} (h : TablesOnly s t) :
    ∃ twf twi twcov, t = { s with twf := twf, twi := twi, twcov := twcov } := ⟨_, _, _, h⟩

theorem RegOnly.eq_update {rd : Reg} {s t : State} (h : RegOnly rd s t) :
    ∃ regs draws, t = { s with regs := regs, draws := draws } := ⟨_, _, h.2⟩

/-- A transform writes PMEM, the tables and their coverage. -/
theorem PmemWritten.eq_update_of_precompute {ranges : List (Nat × Nat)} {s t : State} {logn : LogLen}
    (h : PmemWritten ranges (s.precompute logn) t) :
    ∃ pmem draws, t = { s with
      pmem := pmem
      draws := draws
      twf := (s.precompute logn).twf
      twi := (s.precompute logn).twi
      twcov := (s.precompute logn).twcov } := by
  obtain ⟨pmem, draws, ht⟩ := h.only.eq_update
  refine ⟨pmem, draws, ?_⟩
  rw [ht]
  conv_lhs => rw [precompute_tablesOnly s logn]

theorem Writes.unitsOnly {i : Instr} {s t : State} (h : Writes i s t) : UnitsOnly s t := by
  cases h with
  | nothing => rfl
  | register rd _ _ ht =>
    obtain ⟨_, _, rfl⟩ := ht.eq_update
    rfl
  | witness rd ra pass _ => rfl
  | modulus ra _ _ => rfl
  | root ra _ => rfl
  | memory _ ht =>
    obtain ⟨_, _, rfl⟩ := ht.only.eq_update
    rfl
  | transform logn _ _ ht =>
    obtain ⟨_, _, rfl⟩ := ht.eq_update_of_precompute
    rfl

/-! ### What each command may touch (10_state R21, R26, R30, R31, R40, 20_memory R62) -/

/-- Which commands can change the engine, the roots, MRACC, a register, a PMEM word, the tables. -/
structure OwnStateOnly (i : Instr) (s t : State) : Prop where
  engine : (∃ ra, i = .setmod ra) ∨ t.eng = s.eng ∧ t.modv = s.modv
  roots : (∃ ra, i = .setmod ra ∨ i = .setroot ra) ∨ t.root = s.root ∧ t.rootr = s.rootr ∧ t.rootv = s.rootv
  accumulator : ((∃ ra, i = .setmod ra) ∨ ∃ rd ra, i = .mrwit rd ra) ∨ t.mracc = s.mracc
  registers : ∀ r, destination i = some r ∨ t.x r = s.x r
  memory : ∀ a, (∃ range ∈ pmemOperands i s, range.1 ≤ a ∧ a < range.1 + range.2) ∨ peek t.pmem a = peek s.pmem a
  tables : ((∃ ra, i = .setmod ra ∨ i = .setroot ra) ∨ (lognOf i).isSome) ∨
    t.twf = s.twf ∧ t.twi = s.twi ∧ t.twcov = s.twcov

theorem OwnStateOnly.refl (i : Instr) (s : State) : OwnStateOnly i s s :=
  ⟨.inr ⟨rfl, rfl⟩, .inr ⟨rfl, rfl, rfl⟩, .inr rfl, fun _ => .inr rfl, fun _ => .inr rfl, .inr ⟨rfl, rfl, rfl⟩⟩

/-- A PMEM word is in a range that may be written, or it is as it was. -/
theorem PmemWritten.inside_or_same {ranges : List (Nat × Nat)} {s t : State} (h : PmemWritten ranges s t) (a : Nat) :
    (∃ range ∈ ranges, range.1 ≤ a ∧ a < range.1 + range.2) ∨ peek t.pmem a = peek s.pmem a := by
  refine or_iff_not_imp_left.2 fun hno => h.outside a fun range hr => ?_
  by_contra hin
  exact hno ⟨range, hr, by omega⟩

theorem Writes.ownStateOnly {i : Instr} {s t : State} (h : Writes i s t) : OwnStateOnly i s t := by
  have same := OwnStateOnly.refl i s
  cases h with
  | nothing => exact same
  | register rd _ hrd ht =>
    have hx : ∀ r, destination i = some r ∨ t.x r = s.x r := fun r => by
      by_cases hr : r = rd
      · exact .inl (hr ▸ hrd)
      · exact .inr (ht.1 r hr)
    obtain ⟨_, _, rfl⟩ := ht.eq_update
    exact { same with registers := hx }
  | witness rd ra pass hi =>
    have hx : ∀ r, destination i = some r ∨ (s.setX rd (verdictWord pass)).x r = s.x r := fun r => by
      by_cases hr : r = rd
      · exact .inl (by rw [hi, hr]; rfl)
      · exact .inr (x_setX_other s _ hr)
    exact { same with accumulator := .inl (.inr ⟨rd, ra, hi⟩), registers := hx }
  | modulus ra hi _ =>
    exact { same with
      engine := .inl ⟨ra, hi⟩
      roots := .inl ⟨ra, .inl hi⟩
      accumulator := .inl (.inl ⟨ra, hi⟩)
      tables := .inl (.inl ⟨ra, .inl hi⟩) }
  | root ra hi => exact { same with roots := .inl ⟨ra, .inr hi⟩, tables := .inl (.inl ⟨ra, .inr hi⟩) }
  | memory _ ht =>
    have hp := ht.inside_or_same
    obtain ⟨_, _, rfl⟩ := ht.only.eq_update
    exact { same with memory := hp }
  | transform logn _ hl ht =>
    have hp := ht.inside_or_same
    obtain ⟨_, _, rfl⟩ := ht.eq_update_of_precompute
    rw [precompute_tablesOnly s logn] at hp
    exact { same with memory := hp, tables := .inl (.inr (hl ▸ rfl)) }

theorem exec_ownStateOnly {i : Instr} {s t : State} (h : exec i s = .next t) : OwnStateOnly i s t := by
  rcases exec_next_writes h with ⟨u, _, hu, rfl⟩ | ⟨c, rfl⟩
  · obtain ⟨h1, h2, h3, h4, h5, h6⟩ := hu.ownStateOnly
    exact ⟨h1, h2, h3, h4, h5, h6⟩
  · obtain ⟨h1, h2, h3, h4, h5, h6⟩ := OwnStateOnly.refl i s
    exact ⟨h1, h2, h3, h4, h5, h6⟩

/-- A command's end leaves OVR, IE, the parameters and the model's own record of the host as they were. -/
theorem exec_keeps_host_state {i : Instr} {s t : State} (h : exec i s = .next t) :
    t.ovr = s.ovr ∧ t.ovrAtAcceptance = s.ovrAtAcceptance ∧ t.ie = s.ie ∧ t.cfg = s.cfg ∧ t.inputs = s.inputs ∧
      t.rdata = s.rdata := by
  rcases exec_next_writes h with ⟨u, _, hu, rfl⟩ | ⟨c, rfl⟩
  · rw [hu.unitsOnly]
    exact ⟨rfl, rfl, rfl, rfl, rfl, rfl⟩
  · exact ⟨rfl, rfl, rfl, rfl, rfl, rfl⟩

/-- Settles O42: what a running command may write is its own unit's, and a fault writes only its record. -/
theorem commandsTouchOnlyTheirOwnState : Obligations.CommandsTouchOnlyTheirOwnState := by
  intro i s t h
  obtain ⟨hengine, hroots, hacc, hregs, hmem, htables⟩ := exec_ownStateOnly h
  refine ⟨fun hne => ?_, fun hne => ?_, hacc.resolve_right, fun r => (hregs r).resolve_right,
    fun a => (hmem a).resolve_right, fun hne => ?_, exec_keeps_host_state h⟩
  · exact hengine.resolve_right fun ⟨h1, h2⟩ => hne.elim (absurd h1) (absurd h2)
  · exact hroots.resolve_right fun ⟨h1, h2, h3⟩ => hne.elim (absurd h1) (·.elim (absurd h2) (absurd h3))
  · exact htables.resolve_right fun ⟨h1, h2, h3⟩ => hne.elim (absurd h1) (·.elim (absurd h2) (absurd h3))

/-! ### The tables only grow (10_state R32, R40, 45_ntt R212) -/

/-- t covers at least what s covers, and holds the same words there. -/
def TablesExtended (s t : State) : Prop :=
  s.twcov.toNat ≤ t.twcov.toNat ∧
    ∀ k, k < s.twcov.toNat / 2 → peek t.twf k = peek s.twf k ∧ peek t.twi k = peek s.twi k

theorem TablesExtended.refl (s : State) : TablesExtended s s := ⟨le_refl _, fun _ _ => ⟨rfl, rfl⟩⟩

theorem TablesExtended.trans {s t u : State} (h1 : TablesExtended s t) (h2 : TablesExtended t u) :
    TablesExtended s u := by
  refine ⟨h1.1.trans h2.1, fun k hk => ?_⟩
  obtain ⟨hf1, hi1⟩ := h1.2 k hk
  obtain ⟨hf2, hi2⟩ := h2.2 k (hk.trans_le (Nat.div_le_div_right h1.1))
  exact ⟨hf2.trans hf1, hi2.trans hi1⟩

/-- A growth writes the half beyond the valid one; below 2^63 the coverage doubles exactly. -/
theorem growTables_extended {s : State} (h : s.twcov.toNat < 2 ^ 63) : TablesExtended s s.growTables := by
  refine ⟨?_, fun k hk => ⟨growTable_below _ _ _ _ _ (by omega), growTable_below _ _ _ _ _ (by omega)⟩⟩
  rw [State.growTables_twcov, BitVec.toNat_ofNat]
  omega

theorem precomputeLoop_extended {n : Nat} (hn : n ≤ 2 ^ 63) (fuel : Nat) : ∀ s,
    TablesExtended s (State.precomputeLoop fuel n s) := by
  induction fuel with
  | zero => exact TablesExtended.refl
  | succ fuel ih =>
    intro s
    rw [State.precomputeLoop]
    split
    · next hcov => exact (growTables_extended (hcov.trans_le hn)).trans (ih _)
    · exact .refl s

theorem precompute_extended (s : State) (logn : LogLen) : TablesExtended s (s.precompute logn) :=
  precomputeLoop_extended (Nat.pow_le_pow_right (by decide) (by have := logn.isLt; omega)) _ s

theorem Writes.tablesExtended {i : Instr} {s t : State} (h : Writes i s t)
    (hi : ∀ ra, i ≠ .setmod ra ∧ i ≠ .setroot ra) : TablesExtended s t := by
  have same := TablesExtended.refl s
  cases h with
  | nothing => exact same
  | register rd _ _ ht =>
    obtain ⟨_, _, rfl⟩ := ht.eq_update
    exact same
  | witness rd ra pass _ => exact same
  | modulus ra hset _ => exact absurd hset (hi ra).1
  | root ra hset => exact absurd hset (hi ra).2
  | memory _ ht =>
    obtain ⟨_, _, rfl⟩ := ht.only.eq_update
    exact same
  | transform logn _ _ ht =>
    have hgrow := precompute_extended s logn
    obtain ⟨_, _, rfl⟩ := ht.eq_update_of_precompute
    exact hgrow

/-- Settles O43: a transform extends the tables, every other command leaves them. (The invariant is not needed.) -/
theorem validTwiddleEntriesAreNeverRewritten : Obligations.ValidTwiddleEntriesAreNeverRewritten := by
  intro i s t _ h hi
  rcases exec_next_writes h with ⟨u, _, hu, rfl⟩ | ⟨c, rfl⟩
  · exact hu.tablesExtended hi
  · exact TablesExtended.refl s

/-! ### Accesses of the host (20_memory R64) -/

theorem hostWriteGives_aligned {offset : Nat} (h : offset % 8 = 0) (s : State) (v : Word) :
    HostWriteGives s offset v (s.hostWriteObject (windowObject s.cfg.plog offset) v) := by
  rw [HostWriteGives, step_offered]
  exact hostWrite_aligned h v s

theorem hostReadReturns_of_value {offset : Nat} (h : offset % 8 = 0) {s : State} {v : Word}
    (hv : s.hostReadValue (windowObject s.cfg.plog offset) = some v) : HostReadReturns s offset v := by
  rw [HostReadReturns, step_offered, handleInput, hostRead_aligned h, State.hostReadObject, hv]

theorem hostWriteGives_ctrl (s : State) (v : Word) : HostWriteGives s 0x0010 v (s.writeCtrl v) := by
  have h := hostWriteGives_aligned (offset := 0x0010) rfl s v
  rwa [windowObject_register (by decide)] at h

/-! ### CTRL (10_state R34) -/

theorem ctrlWord_eq (s : State) : ctrlWord s = BitVec.ofNat 64 s.ie.toNat := by
  unfold ctrlWord
  cases s.ie <;> rfl

theorem resetTable_resetWith (cfg : Params) (inputs : List Input) (rdata : Word) (draws : Nat) :
    ResetTable (State.resetWith cfg inputs rdata draws) where
  registers r := by simp [State.x, State.resetWith, Vector.get_eq_getElem]
  engine := ⟨rfl, rfl, rfl, rfl, rfl⟩
  root := ⟨rfl, rfl⟩
  coverage := rfl
  status := by simp [statusWord, assembleStatus, State.resetWith, State.busy]
  flags := ⟨rfl, rfl, rfl, rfl, rfl, rfl⟩
  fault_record := ⟨rfl, rfl⟩
  enable := rfl
  count := rfl
  idle := rfl
  line := rfl
  pmem_unspecified _ := rfl
  tables_unspecified _ := ⟨rfl, rfl⟩

/-- Settles O47, by the fields of a CTRL write, its bits read as digits of v. -/
theorem ctrlWriteActsAtOnce : Obligations.CtrlWriteActsAtOnce := by
  intro s v _
  have hwrite := hostWriteGives_ctrl s v
  refine ⟨fun hsrst => ?_, fun hsrst => ?_, ?_, rfl⟩
  · have hbit : v.getLsbD 4 = false := by
      rw [getLsbD_eq_digit]
      exact decide_eq_false (by omega)
    rw [writeCtrl_eq hbit] at hwrite
    simpa only [getLsbD_eq_digit, decide_eq_true_eq, pow_zero, Nat.div_one, pow_one, Nat.reducePow] using hwrite
  · have hbit : v.getLsbD 4 = true := by
      rw [getLsbD_eq_digit]
      exact decide_eq_true hsrst
    rw [writeCtrl_reset hbit] at hwrite
    exact ⟨_, hwrite, resetTable_resetWith ..⟩
  · refine hostReadReturns_of_value rfl ?_
    rw [windowObject_register (by decide), ← ctrlWord_eq]
    rfl

/-! ### Read-only state (20_memory R69) -/

/-- t is s but for what a host write that is no soft reset reaches. -/
def HostWritable (s t : State) : Prop :=
  t = { s with
    regs := t.regs
    done := t.done
    err := t.err
    ovr := t.ovr
    errcode := t.errcode
    errcmd := t.errcmd
    ie := t.ie
    cur := t.cur
    ovrAtAcceptance := t.ovrAtAcceptance
    pmem := t.pmem }

/-- CTRL is at offset 0x0010 alone (20_memory R64). -/
theorem offset_of_windowObject_ctrl {plog offset : Nat} (h : windowObject plog offset = .ctrl) : offset = 0x0010 := by
  unfold windowObject at h
  split at h
  · cases h
  split at h
  · cases h
  split at h
  · cases h
  split at h
  · cases h
  unfold registerAt at h
  split at h
  case h_3 => rfl
  all_goals cases h

theorem hostWriteObject_writable {s : State} {obj : WindowObject} {v : Word}
    (h : obj = .ctrl → v.getLsbD 4 = false) : HostWritable s (s.hostWriteObject obj v) := by
  rcases hostWriteObject_cases s obj v with
    hs | hs | ⟨_, _, _, hs⟩ | ⟨hobj, hs⟩ | ⟨r, _, _, hs⟩ | ⟨a, _, _, hs⟩ <;> rw [hs]
  case inr.inr.inr.inl => rw [writeCtrl_eq (h hobj)]; rfl
  all_goals rfl

/-- Settles O51: only CTRL's SRST reaches beyond the fields of `HostWritable`, and CTRL is at 0x0010 alone. -/
theorem readOnlyStateIsOutOfTheHostsReach : Obligations.ReadOnlyStateIsOutOfTheHostsReach := by
  intro s t offset width v hno h
  rw [step_offered] at h
  rcases hostWrite_cases h with ⟨_, hs⟩ | ⟨_, hs⟩ <;> cases hs
  have hwritable : HostWritable s (s.hostWriteObject (windowObject s.cfg.plog offset) v) := by
    refine hostWriteObject_writable fun hctrl => ?_
    rw [getLsbD_eq_digit]
    exact decide_eq_false fun hbit => hno ⟨offset_of_windowObject_ctrl hctrl, hbit⟩
  rw [hwritable]
  exact ⟨rfl, rfl, rfl, rfl, rfl, rfl, rfl, rfl, rfl, rfl, rfl⟩

/-! ### The interrupt line (10_state R47, 60_exceptions R275) -/

theorem irq_iff (s : State) : irq s = true ↔ s.ie = true ∧ (s.done = true ∨ s.err = true) := by
  simp only [irq, Bool.and_eq_true, Bool.or_eq_true]

/-- Every command that ends sets DONE (40_system R100). -/
theorem exec_done {i : Instr} {s t : State} (h : exec i s = .next t) : t.done = true := by
  rcases exec_next_writes h with ⟨u, _, _, rfl⟩ | ⟨c, rfl⟩ <;> rfl

/-- Settles O53: every command's end sets DONE and leaves IE. -/
theorem interruptLineFollowsDoneAndErr : Obligations.InterruptLineFollowsDoneAndErr := by
  refine ⟨irq_iff, rfl, fun i s t h => ?_, fun s _ => ⟨_, hostWriteGives_ctrl s 7, ?_⟩⟩
  · obtain ⟨_, _, hie, _⟩ := exec_keeps_host_state h
    rw [irq, exec_done h, hie, Bool.true_or, Bool.and_true]
  · rw [writeCtrl_eq (by decide)]
    exact ⟨rfl, rfl⟩

/-! ### CONFIG (10_state R36) -/

theorem configWord_eq {s : State} (h : s.cfg.plog < 256) :
    configWord s = BitVec.ofNat 64 (64 + 256 * s.cfg.plog + 65536) := by
  apply BitVec.eq_of_toNat_eq
  simp only [configWord, append_toNat, BitVec.toNat_ofNat]
  omega

theorem writesReg_of_exec {i : Instr} {s : State} {rd : Reg} {v : Word}
    (h : exec i s = .next (s.setX rd v).retire) : WritesReg i s rd v :=
  ⟨_, h, x_setX_same s rd v, fun _ hr => x_setX_other s v hr, rfl⟩

theorem hostWriteObject_cfg (s : State) (obj : WindowObject) (v : Word) : (s.hostWriteObject obj v).cfg = s.cfg := by
  cases hreset : v.getLsbD 4 with
  | false => exact (congrArg State.cfg (hostWriteObject_writable (s := s) (obj := obj) fun _ => hreset) :)
  | true =>
    rcases hostWriteObject_cases s obj v with
      hs | hs | ⟨_, _, _, hs⟩ | ⟨_, hs⟩ | ⟨r, _, _, hs⟩ | ⟨a, _, _, hs⟩ <;> rw [hs]
    case inr.inr.inr.inl => rw [writeCtrl_reset hreset]; rfl
    all_goals rfl

theorem completion_cfg {s t : State} (h : completion s = .next t) : t.cfg = s.cfg := by
  rcases completion_cases h with ⟨_, hs⟩ | ⟨v, i, _, _, hi⟩ | ⟨v, d, _, _, hd⟩
  · cases hs
    rfl
  · obtain ⟨_, _, _, hcfg, _⟩ := exec_keeps_host_state hi.symm
    exact hcfg
  · cases hd
    rfl

theorem handleInput_cfg {input : Input} {s t : State} (h : handleInput input s = .next t) : t.cfg = s.cfg := by
  cases input with
  | hostWrite offset width v =>
    rcases hostWrite_cases h with ⟨_, hs⟩ | ⟨_, hs⟩ <;> cases hs
    exact hostWriteObject_cfg s _ v
  | hostRead offset width =>
    rcases hostRead_cases h with ⟨_, hs⟩ | ⟨_, hs⟩ <;> cases hs
    exact (congrArg State.cfg (hostReadObject_eq s _) :)
  | hardwareReset =>
    cases h
    rfl
  | completion => exact completion_cfg h

/-- No step changes the parameters (10_state R48). -/
theorem step_cfg {s t : State} (h : step s = .next t) : t.cfg = s.cfg := by
  rcases step_cases h with ⟨_, hs⟩ | ⟨input, rest, _, hs⟩
  · exact completion_cfg hs
  · exact (handleInput_cfg hs :)

/-- Settles O54: CONFIG depends on the parameters alone, and no step changes them. -/
theorem configIsAConstant : Obligations.ConfigIsAConstant := by
  refine ⟨fun s rd hok => ?_, fun s t h => ⟨step_cfg h, by rw [configWord, configWord, step_cfg h]⟩⟩
  have hplog := plog_of_ok hok
  have hword := configWord_eq (s := s) (by omega)
  have hobject : windowObject s.cfg.plog 0x0060 = .creg 10 := windowObject_register (by decide)
  rw [← hword]
  refine ⟨writesReg_of_exec rfl, hostReadReturns_of_value rfl ?_, fun v => ?_, fun h12 => ?_⟩
  · simp [hobject, State.hostReadValue, readableWhileBusy, cregValue]
  · have hwrite := hostWriteGives_aligned (offset := 0x0060) rfl s v
    rwa [hobject] at hwrite
  · rw [hword, h12]
    rfl

end Sys2Proof.Machine
end

section
/-! PROOFS. The decoder answers a command only for the word the encoder writes for it, so that every illegal value of
30_encoding R87 is refused; the count of commands rests on it. -/

-- One declaration at a time: as one text the package has too many theorems for a thread each within the memory limit.
set_option Elab.async false

namespace Sys2Proof

/-! ### What the decoder accepts (30_encoding R80 to R87) -/

theorem acceptIf_eq_ok {zero : Bool} {w : BitVec 32} {i j : Instr} :
    acceptIf zero w i = .ok j ↔ zero = true ∧ i = j := by
  cases zero <;> simp [acceptIf]

/-- A word is its fields put together, in each format (30_encoding R81 to R84). -/
theorem append_fieldsR (w : BitVec 32) :
    fieldOp w ++ fieldRd w ++ fieldRa w ++ fieldRb w ++ fieldRc w ++ fieldLow8 w = w := by
  apply BitVec.eq_of_getLsbD_eq; intro i hi
  simp only [fieldOp, fieldRd, fieldRa, fieldRb, fieldRc, fieldLow8, BitVec.getLsbD_extractLsb', BitVec.getLsbD_append]
  interval_cases i <;> simp

theorem append_fieldsI (w : BitVec 32) : fieldOp w ++ fieldRd w ++ fieldRa w ++ fieldImm16 w = w := by
  apply BitVec.eq_of_getLsbD_eq; intro i hi
  simp only [fieldOp, fieldRd, fieldRa, fieldImm16, BitVec.getLsbD_extractLsb', BitVec.getLsbD_append]
  interval_cases i <;> simp

theorem append_fieldsC (w : BitVec 32) : fieldOp w ++ fieldRd w ++ fieldZ12 w ++ fieldLow8 w = w := by
  apply BitVec.eq_of_getLsbD_eq; intro i hi
  simp only [fieldOp, fieldRd, fieldZ12, fieldLow8, BitVec.getLsbD_extractLsb', BitVec.getLsbD_append]
  interval_cases i <;> simp

theorem append_fieldsN (w : BitVec 32) :
    fieldOp w ++ fieldRd w ++ fieldRa w ++ fieldRb w ++ fieldZ6 w ++ fieldLogn w = w := by
  apply BitVec.eq_of_getLsbD_eq; intro i hi
  simp only [fieldOp, fieldRd, fieldRa, fieldRb, fieldZ6, fieldLogn, BitVec.getLsbD_extractLsb', BitVec.getLsbD_append]
  interval_cases i <;> simp

/-- A field that a row uses, or 0 where it does not. -/
def usedField (use : Bool) (field : Reg) : Reg := if use then field else 0

theorem usedField_eq {use : Bool} {field : Reg} (h : (use || field == 0) = true) : usedField use field = field := by
  cases use
  · exact (eq_of_beq h).symm
  · rfl

theorem fieldOp_eq {w : BitVec 32} {n : Nat} (h : (fieldOp w).toNat = n) : BitVec.ofNat 8 n = fieldOp w := by
  subst h
  simp

theorem encode_of_decodeR {w : BitVec 32} {n : Nat} {d a b c : Bool} {i j : Instr} (hop : (fieldOp w).toNat = n)
    (h : decodeR w d a b c i = .ok j) :
    i = j ∧ encodeR (BitVec.ofNat 8 n) (usedField d (fieldRd w)) (usedField a (fieldRa w)) (usedField b (fieldRb w))
      (usedField c (fieldRc w)) = w := by
  rw [decodeR, acceptIf_eq_ok] at h
  simp only [Bool.and_eq_true] at h
  obtain ⟨⟨⟨⟨⟨hd, ha⟩, hb⟩, hc⟩, hlow⟩, hi⟩ := h
  refine ⟨hi, ?_⟩
  rw [usedField_eq hd, usedField_eq ha, usedField_eq hb, usedField_eq hc, fieldOp_eq hop, encodeR]
  exact (congrArg _ (eq_of_beq hlow).symm).trans (append_fieldsR w)

theorem encode_of_decodeI {w : BitVec 32} {n : Nat} {i j : Instr} (hop : (fieldOp w).toNat = n)
    (h : decodeI w i = .ok j) : i = j ∧ encodeI (BitVec.ofNat 8 n) (fieldRd w) (fieldImm16 w) = w := by
  rw [decodeI, acceptIf_eq_ok] at h
  obtain ⟨hz, hi⟩ := h
  have hz' : fieldRa w = 0#4 := eq_of_beq hz
  refine ⟨hi, ?_⟩
  rw [fieldOp_eq hop, encodeI, ← hz']
  exact append_fieldsI w

theorem encode_of_decodeC {w : BitVec 32} {n : Nat} {i j : Instr} (hop : (fieldOp w).toNat = n)
    (h : decodeC w i = .ok j) :
    i = j ∧ fieldLow8 w ≤ lastCreg ∧ encodeC (BitVec.ofNat 8 n) (fieldRd w) (fieldLow8 w) = w := by
  unfold decodeC at h
  split at h
  next hz =>
    split at h
    next hc =>
      have hz' : fieldZ12 w = 0#12 := eq_of_beq hz
      refine ⟨Except.ok.inj h, hc, ?_⟩
      rw [fieldOp_eq hop, encodeC, ← hz']
      exact append_fieldsC w
    next => cases h
  next => cases h

theorem encode_of_decodeN {w : BitVec 32} {n : Nat} {a b : Bool} {i j : Instr} (hop : (fieldOp w).toNat = n)
    (h : decodeN w a b i = .ok j) :
    i = j ∧ encodeN (BitVec.ofNat 8 n) (usedField a (fieldRa w)) (usedField b (fieldRb w)) (fieldLogn w) = w := by
  rw [decodeN, acceptIf_eq_ok] at h
  simp only [Bool.and_eq_true] at h
  obtain ⟨⟨⟨⟨hd, ha⟩, hb⟩, hz⟩, hi⟩ := h
  have hd' : fieldRd w = 0#4 := eq_of_beq hd
  have hz' : fieldZ6 w = 0#6 := eq_of_beq hz
  refine ⟨hi, ?_⟩
  rw [usedField_eq ha, usedField_eq hb, fieldOp_eq hop, encodeN, ← hd', ← hz']
  exact append_fieldsN w

/-- A word that decodes is the word the encoder writes for its command. -/
theorem encode_of_decode {w : BitVec 32} {i : Instr} (h : decode w = .ok i) : encode i = w ∧ i.wellFormed = true := by
  simp only [decode] at h
  split at h
  case h_2 hop | h_3 hop =>
    obtain ⟨rfl, hw⟩ := encode_of_decodeI hop h
    exact ⟨hw, rfl⟩
  case h_5 hop =>
    obtain ⟨rfl, hc, hw⟩ := encode_of_decodeC hop h
    exact ⟨hw, decide_eq_true hc⟩
  case h_23 hop | h_24 hop | h_25 hop | h_26 hop =>
    obtain ⟨rfl, hw⟩ := encode_of_decodeN hop h
    exact ⟨hw, rfl⟩
  case h_36 => cases h
  all_goals
    next hop =>
    obtain ⟨rfl, hw⟩ := encode_of_decodeR hop h
    exact ⟨hw, rfl⟩

theorem decodeCmd_eq_ok {v : Word} {i : Instr} :
    decodeCmd v = .ok i ↔ v.extractLsb' 32 32 = 0 ∧ decode (v.extractLsb' 0 32) = .ok i := by
  unfold decodeCmd
  split
  next h => simp only [h, true_and]
  next h => simp only [h, reduceCtorEq, false_and]

theorem toNat_lt_of_high_zero {v : Word} (h : v.extractLsb' 32 32 = 0) : v.toNat < 2 ^ 32 := by
  have hzero : (v.extractLsb' 32 32).toNat = 0 := by rw [h]; rfl
  rw [BitVec.extractLsb'_toNat, Nat.shiftRight_eq_div_pow] at hzero
  omega

/-- A CMD value that decodes is the value the encoder writes for its command. -/
theorem encodeCmd_of_decodeCmd {v : Word} {i : Instr} (h : decodeCmd v = .ok i) :
    encodeCmd i = v ∧ i.wellFormed = true := by
  obtain ⟨hhigh, hlow⟩ := decodeCmd_eq_ok.1 h
  obtain ⟨henc, hwf⟩ := encode_of_decode hlow
  refine ⟨BitVec.eq_of_toNat_eq ?_, hwf⟩
  have hlt := toNat_lt_of_high_zero hhigh
  simp only [encodeCmd, henc, append_toNat, BitVec.extractLsb'_toNat, BitVec.toNat_ofNat,
    Nat.shiftRight_eq_div_pow]
  omega

/-- The opcode byte 4 is RDC's (30_encoding R86). -/
theorem decode_of_rdc_opcode {w : BitVec 32} (h : (fieldOp w).toNat = 4) :
    decode w = decodeC w (.rdc (fieldRd w) (fieldLow8 w)) := by
  simp only [decode, h]

/-- Every command's own row selects its word (30_encoding R86). -/
theorem rowSelects : ∀ i, Laws.RowSelects.Statement i
  | .nop => Laws.RowSelects.nop
  | .li rd imm16 => Laws.RowSelects.li rd imm16
  | .lis rd imm16 => Laws.RowSelects.lis rd imm16
  | .mov rd ra => Laws.RowSelects.mov rd ra
  | .rdc rd creg => Laws.RowSelects.rdc rd creg
  | .setmod ra => Laws.RowSelects.setmod ra
  | .setroot ra => Laws.RowSelects.setroot ra
  | .mfrom rd ra => Laws.RowSelects.mfrom rd ra
  | .mto rd ra => Laws.RowSelects.mto rd ra
  | .madd rd ra rb => Laws.RowSelects.madd rd ra rb
  | .msub rd ra rb => Laws.RowSelects.msub rd ra rb
  | .mmul rd ra rb => Laws.RowSelects.mmul rd ra rb
  | .mneg rd ra => Laws.RowSelects.mneg rd ra
  | .mredc rd ra rb => Laws.RowSelects.mredc rd ra rb
  | .meq rd ra rb => Laws.RowSelects.meq rd ra rb
  | .mcmp rd ra rb => Laws.RowSelects.mcmp rd ra rb
  | .mpowm rd ra rb rc => Laws.RowSelects.mpowm rd ra rb rc
  | .mpow rd ra rb => Laws.RowSelects.mpow rd ra rb
  | .minv rd ra => Laws.RowSelects.minv rd ra
  | .mdiv rd ra rb => Laws.RowSelects.mdiv rd ra rb
  | .pld rd ra => Laws.RowSelects.pld rd ra
  | .pst ra rb => Laws.RowSelects.pst ra rb
  | .precomp logn => Laws.RowSelects.precomp logn
  | .fntt ra logn => Laws.RowSelects.fntt ra logn
  | .intt ra logn => Laws.RowSelects.intt ra logn
  | .pmul ra rb logn => Laws.RowSelects.pmul ra rb logn
  | .phad ra rb rc => Laws.RowSelects.phad ra rb rc
  | .pvadd ra rb rc => Laws.RowSelects.pvadd ra rb rc
  | .pvsub ra rb rc => Laws.RowSelects.pvsub ra rb rc
  | .psadd ra rb rc => Laws.RowSelects.psadd ra rb rc
  | .pssub ra rb rc => Laws.RowSelects.pssub ra rb rc
  | .psmul ra rb rc => Laws.RowSelects.psmul ra rb rc
  | .psdiv ra rb rc => Laws.RowSelects.psdiv ra rb rc
  | .isprime rd ra => Laws.RowSelects.isprime rd ra
  | .mrwit rd ra => Laws.RowSelects.mrwit rd ra

end Sys2Proof

namespace Sys2Proof.Machine

/-- No value the spec calls illegal decodes (30_encoding R87). -/
theorem not_illegalCommand_of_decodeCmd {v : Word} {i : Instr} (h : decodeCmd v = .ok i) : ¬ IllegalCommand v := by
  obtain ⟨hhigh, hlow⟩ := decodeCmd_eq_ok.1 h
  rintro (hbits | hrows | ⟨hop, hcreg⟩)
  · have hlt := toNat_lt_of_high_zero hhigh
    omega
  · obtain ⟨hrow, hselects⟩ := rowSelects i
    refine hrows _ hrow ?_
    rw [← (encodeCmd_of_decodeCmd h).1, low_encodeCmd]
    exact eq_of_beq hselects
  · have hopcode : (fieldOp (v.extractLsb' 0 32)).toNat = 4 := by
      simp only [fieldOp, BitVec.extractLsb'_toNat, Nat.shiftRight_eq_div_pow]
      omega
    rw [decode_of_rdc_opcode hopcode] at hlow
    obtain ⟨_, hle, _⟩ := encode_of_decodeC hopcode hlow
    have hle' : (fieldLow8 (v.extractLsb' 0 32)).toNat ≤ 10 := hle
    simp only [fieldLow8, BitVec.extractLsb'_toNat, Nat.shiftRight_eq_div_pow] at hle'
    omega

theorem completion_of_illegalCommand {s : State} {v : Word} (hcur : s.cur = some v) (h : IllegalCommand v) :
    completion s = .next (s.takeFault .illcmd) := by
  cases hd : decodeCmd v with
  | error d => exact completion_of_illegal hcur hd
  | ok i => exact absurd h (not_illegalCommand_of_decodeCmd hd)

/-! ### The count of commands (10_state R25) -/

/-- A CMD write while BUSY or ERR is dropped (40_system R100). -/
theorem hostCmd_dropped {s : State} (h : s.cur.isSome = true ∨ s.err = true) (v : Word) :
    s.hostCmd v = s.dropWrite := by
  rw [State.hostCmd, State.busy, if_pos (Bool.or_eq_true_iff.2 h)]

/-- Settles O9: a command that runs retires, one that reports a fault or has no meaning records it, and a host access
leaves the count. -/
theorem cmdcntCountsCompletedCommands : Obligations.CmdcntCountsCompletedCommands := by
  refine ⟨rfl, fun i s hr => ?_, fun i s code hr => ?_, fun s v hcur hv => ?_, fun s v hbusy => ?_, fun s v _ => ?_⟩
  · obtain ⟨t, ht, hnext⟩ := exec_of_runs hr
    refine ⟨_, hnext, ?_⟩
    rw [State.retire_cmdcnt, congrArg State.cmdcnt ht.unitsOnly, BitVec.toNat_add]
    rfl
  · obtain ⟨c, _, hnext⟩ := exec_of_reports hr
    exact ⟨_, hnext, rfl⟩
  · exact ⟨_, completion_of_illegalCommand hcur hv, rfl⟩
  · have hwrite := hostWriteGives_aligned (offset := 0x0000) rfl s v
    rw [windowObject_register (by decide)] at hwrite
    exact ⟨s.dropWrite, hostCmd_dropped hbusy v ▸ hwrite, rfl⟩
  · have hwrite := hostWriteGives_aligned (offset := 0x0018) rfl s v
    rwa [windowObject_register (by decide)] at hwrite

end Sys2Proof.Machine
end

section
/-! PROOFS. The host window object by object: which access is refused, what a write reaches, what a read returns. -/

-- One declaration at a time: as one text the package has too many theorems for a thread each within the memory limit.
set_option Elab.async false

namespace Sys2Proof.Machine

/-! ### Refusals (20_memory R65) -/

theorem accessOk_eq_false_iff {offset width : Nat} :
    accessOk offset width = false ↔ width ≠ 8 ∨ offset % 8 ≠ 0 := by
  rw [← Bool.not_eq_true, accessOk_iff, not_and_or]

theorem hostWrite_refused {offset width : Nat} (h : width ≠ 8 ∨ offset % 8 ≠ 0) (v : Word) (s : State) :
    hostWrite offset width v s = .refused .hostAccessForm := by
  rw [hostWrite, accessOk_eq_false_iff.2 h, if_neg Bool.false_ne_true]

theorem hostRead_refused {offset width : Nat} (h : width ≠ 8 ∨ offset % 8 ≠ 0) (s : State) :
    hostRead offset width s = .refused .hostAccessForm := by
  rw [hostRead, accessOk_eq_false_iff.2 h, if_neg Bool.false_ne_true]

/-- No command is refused: each retires or faults (40_system R100, 60_exceptions R272). -/
theorem exec_has_next (i : Instr) (s : State) : ∃ t, exec i s = .next t := by
  obtain ⟨e, he⟩ := exec_eq_finish i s
  cases e with
  | ok u => exact ⟨u.retire, he⟩
  | error c => exact ⟨s.takeFault c, he⟩

theorem completion_has_next (s : State) : ∃ t, completion s = .next t := by
  rcases completion_cases (s := s) rfl with ⟨_, hs⟩ | ⟨v, i, _, _, hi⟩ | ⟨v, d, _, _, hd⟩
  · exact ⟨s, hs⟩
  · obtain ⟨t, ht⟩ := exec_has_next i s
    exact ⟨t, hi.trans ht⟩
  · exact ⟨_, hd⟩

/-- Of the inputs, a host access alone can be refused, and for its form alone. -/
theorem handleInput_refused {input : Input} {s : State} {r : Refusal} (h : handleInput input s = .refused r) :
    ∃ offset width v, (width ≠ 8 ∨ offset % 8 ≠ 0) ∧
      (input = .hostWrite offset width v ∨ input = .hostRead offset width) := by
  cases input with
  | hostWrite offset width v =>
    rcases hostWrite_cases h with ⟨_, hs⟩ | ⟨hform, _⟩
    · cases hs
    · exact ⟨offset, width, v, accessOk_eq_false_iff.1 hform, .inl rfl⟩
  | hostRead offset width =>
    rcases hostRead_cases h with ⟨_, hs⟩ | ⟨hform, _⟩
    · cases hs
    · exact ⟨offset, width, 0, accessOk_eq_false_iff.1 hform, .inr rfl⟩
  | hardwareReset => cases h
  | completion =>
    obtain ⟨t, ht⟩ := completion_has_next s
    cases ht.symm.trans h

/-- Settles O52: the form of a host access decides, and nothing else a step does can be refused. -/
theorem misalignedHostAccessIsRefused : Obligations.MisalignedHostAccessIsRefused := by
  refine fun s offset width v => ⟨fun h => ⟨hostWrite_refused h v s, hostRead_refused h s⟩, fun r h => ?_⟩
  rcases step_cases h with ⟨_, hs⟩ | ⟨input, rest, hinputs, hs⟩
  · obtain ⟨t, ht⟩ := completion_has_next s
    cases ht.symm.trans hs
  · obtain ⟨offset, width, v, hform, rfl | rfl⟩ := handleInput_refused hs
    · exact ⟨offset, width, v, rest, hform, .inl hinputs⟩
    · exact ⟨offset, width, v, rest, hform, .inr hinputs⟩

/-! ### The map outside its arrays (20_memory R64) -/

theorem windowObject_outside_arrays {plog offset : Nat} (hx : ¬ (0x0100 ≤ offset ∧ offset < 0x0180))
    (hpmem : ¬ (0x01000000 ≤ offset ∧ offset < 0x01000000 + 8 * 2 ^ plog))
    (htwf : ¬ (0x02000000 ≤ offset ∧ offset < 0x02000000 + 8 * 2 ^ (plog - 1)))
    (htwi : ¬ (0x03000000 ≤ offset ∧ offset < 0x03000000 + 8 * 2 ^ (plog - 1))) :
    windowObject plog offset = registerAt offset := by
  simp only [windowObject]
  rw [arrayIndex_outside (by omega), arrayIndex_outside (by omega), arrayIndex_outside (by omega),
    arrayIndex_outside (by omega)]

/-- CONFIG, at 0x0060, is the last of the registers. -/
theorem registerAt_beyond {offset : Nat} (h : 0x0060 < offset) : registerAt offset = .unmapped := by
  unfold registerAt
  split
  case h_14 => rfl
  all_goals omega

/-- The objects a host write can change: CMD, CTRL, X and PMEM (20_memory R64, R69). -/
def WindowObject.writable : WindowObject → Bool
  | .cmd | .ctrl | .x _ | .pmem _ => true
  | .creg _ | .twf _ | .twi _ | .unmapped => false

theorem registerAt_writable {offset : Nat} (h : (registerAt offset).writable = true) :
    offset = 0x0000 ∨ offset = 0x0010 := by
  unfold registerAt at h
  split at h
  case h_1 => exact .inl rfl
  case h_3 => exact .inr rfl
  all_goals cases h

/-- Where the writable objects are. -/
theorem windowObject_writable {plog offset : Nat} (h : (windowObject plog offset).writable = true) :
    offset = 0x0000 ∨ offset = 0x0010 ∨ (0x0100 ≤ offset ∧ offset < 0x0180) ∨
      (0x01000000 ≤ offset ∧ offset < 0x01000000 + 8 * 2 ^ plog) := by
  by_contra hno
  obtain ⟨hcmd, hctrl, hx, hpmem⟩ := by simpa only [not_or] using hno
  simp only [windowObject] at h
  rw [arrayIndex_outside (by omega), arrayIndex_outside (by omega)] at h
  dsimp only at h
  split at h
  · cases h
  split at h
  · cases h
  · exact (registerAt_writable h).elim hcmd hctrl

/-! ### Writes (20_memory R64, R68, R69) -/

theorem State.busy_of_idle {s : State} (h : s.cur = none) : s.busy = false := by rw [State.busy, h, Option.isSome_none]

theorem ite_busy_of_idle {α : Type} {s : State} (h : s.cur = none) (whileBusy whileIdle : α) :
    (if s.busy then whileBusy else whileIdle) = whileIdle := by
  rw [State.busy_of_idle h, if_neg Bool.false_ne_true]

theorem hostWriteObject_x_idle {s : State} (h : s.cur = none) (r : Reg) (v : Word) :
    s.hostWriteObject (.x r) v = s.setX r v :=
  ite_busy_of_idle h ..

theorem hostWriteObject_pmem_idle {s : State} (h : s.cur = none) (a : Nat) (v : Word) :
    s.hostWriteObject (.pmem a) v = s.setP a v :=
  ite_busy_of_idle h ..

theorem hostWriteObject_x_busy {s : State} (h : s.busy = true) (r : Reg) (v : Word) :
    s.hostWriteObject (.x r) v = s.dropWrite :=
  if_pos h

theorem hostWriteObject_pmem_busy {s : State} (h : s.busy = true) (a : Nat) (v : Word) :
    s.hostWriteObject (.pmem a) v = s.dropWrite :=
  if_pos h

/-- A write to a read-only object or to none is ignored, idle or busy, without OVR (20_memory R69). -/
theorem hostWriteObject_of_not_writable {obj : WindowObject} (h : obj.writable = false) (s : State) (v : Word) :
    s.hostWriteObject obj v = s := by
  cases obj with
  | cmd | ctrl | x | pmem => cases h
  | creg | twf | twi | unmapped => rfl

theorem hostWriteGives_object {s t : State} {offset : Nat} {v : Word} {obj : WindowObject} (h : offset % 8 = 0)
    (hobj : windowObject s.cfg.plog offset = obj) (ht : s.hostWriteObject obj v = t) : HostWriteGives s offset v t := by
  have hwrite := hostWriteGives_aligned h s v
  rwa [hobj, ht] at hwrite

theorem pmemSameOutside_setP (s : State) (a : Nat) (v : Word) : PmemSameOutside s (s.setP a v) a 1 :=
  fun b hb => peek_poke_other s.pmem v (by omega)

/-- Settles O49, object by object: the register or PMEM word while idle, the drop while busy, and no writable object at
any other offset. -/
theorem hostWritesReachOnlyTheirObject : Obligations.HostWritesReachOnlyTheirObject := by
  intro s v _
  refine ⟨fun r hidle => ?_, fun a ha hidle => ?_, fun r hbusy => ?_, fun a ha hbusy => ?_,
    fun offset h8 hcmd hctrl hx hpmem => ?_⟩
  · exact ⟨s.setX r v, hostWriteGives_object (by omega) (windowObject_x _ r) (hostWriteObject_x_idle hidle r v),
      x_setX_same s r v, fun _ hr => x_setX_other s v hr, rfl⟩
  · exact ⟨s.setP a v, hostWriteGives_object (by omega) (windowObject_pmem ha) (hostWriteObject_pmem_idle hidle a v),
      peek_poke_same s.pmem a v, pmemSameOutside_setP s a v, rfl⟩
  · exact hostWriteGives_object (by omega) (windowObject_x _ r) (hostWriteObject_x_busy hbusy r v)
  · exact hostWriteGives_object (by omega) (windowObject_pmem ha) (hostWriteObject_pmem_busy hbusy a v)
  · refine hostWriteGives_object h8 rfl (hostWriteObject_of_not_writable (Bool.eq_false_iff.2 fun hwritable => ?_) s v)
    rcases windowObject_writable hwritable with h | h | h | h
    exacts [hcmd h, hctrl h, hx h, hpmem h]

/-! ### Reads (20_memory R64, R67 to R69) -/

/-- STATUS as a number, whichever reader gives OVR, DONE and BUSY (10_state R33). -/
theorem assembleStatus_eq (s : State) (ovr done busy : Bool) :
    assembleStatus s ovr done busy = BitVec.ofNat 64 (statusNumber s busy.toNat done.toNat ovr.toNat) := by
  apply BitVec.eq_of_toNat_eq
  have hcmd := s.errcmd.isLt
  have hcode := s.errcode.isLt
  have hbit := Bool.toNat_lt
  have hovr := hbit ovr
  have hdone := hbit done
  have hbusy := hbit busy
  have herr := hbit s.err
  have hmodv := hbit s.modv
  have hrootv := hbit s.rootv
  have hmracc := hbit s.mracc
  simp only [assembleStatus, statusNumber, append_toNat, BitVec.toNat_ofNat, BitVec.toNat_ofBool]
  omega

theorem configWord_eq_configNumber {s : State} (h : s.cfg.plog < 256) :
    configWord s = BitVec.ofNat 64 (configNumber s) := configWord_eq h

theorem hostReadValue_creg {s : State} {n : Nat} (h : s.cur = none ∨ readableWhileBusy n = true) :
    s.hostReadValue (.creg n) = cregValue s (statusWord s) n := by
  rw [State.hostReadValue]
  rcases h with hidle | hread
  · rw [State.busy_of_idle hidle, Bool.false_and, if_neg Bool.false_ne_true]
  · rw [hread, Bool.not_true, Bool.and_false, if_neg Bool.false_ne_true]

theorem hostReadValue_x {s : State} (h : s.cur = none) (r : Reg) : s.hostReadValue (.x r) = some (s.x r) :=
  ite_busy_of_idle h ..

theorem hostReadValue_pmem {s : State} (h : s.cur = none) (a : Nat) : s.hostReadValue (.pmem a) = peek s.pmem a :=
  ite_busy_of_idle h ..

/-- A twiddle entry below TWCOV/2 reads as itself (10_state R32). -/
theorem State.tableEntry_of_valid {s : State} {k : Nat} (hk : k < s.twcov.toNat / 2) (table : WordMem) :
    s.tableEntry table k = peek table k := by
  rw [State.tableEntry, if_pos hk]

theorem hostReadValue_twf {s : State} (h : s.cur = none) {k : Nat} (hk : k < s.twcov.toNat / 2) :
    s.hostReadValue (.twf k) = peek s.twf k :=
  (ite_busy_of_idle h ..).trans (State.tableEntry_of_valid hk s.twf)

theorem hostReadValue_twi {s : State} (h : s.cur = none) {k : Nat} (hk : k < s.twcov.toNat / 2) :
    s.hostReadValue (.twi k) = peek s.twi k :=
  (ite_busy_of_idle h ..).trans (State.tableEntry_of_valid hk s.twi)

theorem hostReadReturns_object {s : State} {offset : Nat} {v : Word} {obj : WindowObject} (h : offset % 8 = 0)
    (hobj : windowObject s.cfg.plog offset = obj) (hv : s.hostReadValue obj = some v) : HostReadReturns s offset v :=
  hostReadReturns_of_value h (hobj ▸ hv)

/-- A control register reads as itself while idle, and STATUS, CMDCNT and CONFIG do so at any time (20_memory R68). -/
theorem hostReadReturns_creg {s : State} {offset n : Nat} {v : Word} (hoff : offset < 0x100) (h : offset % 8 = 0)
    (hobj : registerAt offset = .creg n) (hread : s.cur = none ∨ readableWhileBusy n = true)
    (hv : cregValue s (statusWord s) n = some v) : HostReadReturns s offset v :=
  hostReadReturns_object h ((windowObject_register hoff).trans hobj) ((hostReadValue_creg hread).trans hv)

/-- Whatever a read returns, it changes nothing else (20_memory R67). -/
theorem hostReadReturnsSomething_aligned {offset : Nat} (h : offset % 8 = 0) (s : State) :
    HostReadReturnsSomething s offset :=
  ⟨_, _, (hostRead_aligned h s).trans (congrArg _ (hostReadObject_eq s _))⟩

/-- Settles O50, object by object; where the window leaves the word open, that the read changes nothing else. -/
theorem hostReadsReturnTheirObject : Obligations.HostReadsReturnTheirObject := by
  intro s hok
  have hplog := plog_of_ok hok
  refine ⟨?cmd, ?status, ?ctrl, ?cmdcnt, ?config, ?unmapped, fun hidle => ?idle, fun k hk _ => ?invalid,
    fun _ => ?busy⟩
  case cmd => exact hostReadReturns_object rfl (windowObject_register (by decide)) rfl
  case status =>
    exact hostReadReturns_creg (by decide) rfl rfl (.inr rfl) (congrArg some (assembleStatus_eq s s.ovr s.done s.busy))
  case ctrl => exact hostReadReturns_object rfl (windowObject_register (by decide)) (congrArg some (ctrlWord_eq s))
  case cmdcnt => exact hostReadReturns_creg (by decide) rfl rfl (.inr rfl) rfl
  case config =>
    exact hostReadReturns_creg (by decide) rfl rfl (.inr rfl) (congrArg some (configWord_eq_configNumber (by omega)))
  case unmapped =>
    intro offset h8 hbeyond hx hpmem htwf htwi
    have hobj := (windowObject_outside_arrays hx hpmem htwf htwi).trans (registerAt_beyond hbeyond)
    exact hostReadReturns_object h8 hobj rfl
  case idle =>
    have creg {offset n : Nat} {v : Word} (hoff : offset < 0x100) (h8 : offset % 8 = 0)
        (hobj : registerAt offset = .creg n) (hv : cregValue s (statusWord s) n = some v) :
        HostReadReturns s offset v := hostReadReturns_creg hoff h8 hobj (.inl hidle) hv
    refine ⟨creg (by decide) rfl rfl rfl, creg (by decide) rfl rfl rfl, creg (by decide) rfl rfl rfl,
      creg (by decide) rfl rfl rfl, creg (by decide) rfl rfl rfl, creg (by decide) rfl rfl rfl,
      creg (by decide) rfl rfl rfl, creg (by decide) rfl rfl rfl, fun r => ?x, fun a w ha hw => ?pmem,
      fun a ha _ => ?unwritten, fun k w hk hvalid hw => ?twf, fun k w hk hvalid hw => ?twi⟩
    case x => exact hostReadReturns_object (by omega) (windowObject_x _ r) (hostReadValue_x hidle r)
    case pmem =>
      exact hostReadReturns_object (by omega) (windowObject_pmem ha) ((hostReadValue_pmem hidle a).trans hw)
    case unwritten => exact hostReadReturnsSomething_aligned (by omega) s
    case twf =>
      exact hostReadReturns_object (by omega) (windowObject_twf hplog.2 hk) ((hostReadValue_twf hidle hvalid).trans hw)
    case twi =>
      exact hostReadReturns_object (by omega) (windowObject_twi hplog.2 hk) ((hostReadValue_twi hidle hvalid).trans hw)
  case invalid =>
    exact ⟨hostReadReturnsSomething_aligned (by omega) s, hostReadReturnsSomething_aligned (by omega) s⟩
  case busy =>
    exact ⟨fun j _ => hostReadReturnsSomething_aligned (by omega) s,
      fun r => hostReadReturnsSomething_aligned (by omega) s,
      fun a _ => hostReadReturnsSomething_aligned (by omega) s,
      fun k _ => ⟨hostReadReturnsSomething_aligned (by omega) s, hostReadReturnsSomething_aligned (by omega) s⟩⟩

end Sys2Proof.Machine
end

section
/-! PROOFS. The encoder and the decoder are inverse to each other, every value that 30_encoding R87 does not call
illegal is a command, and LI64. -/

-- One declaration at a time: as one text the package has too many theorems for a thread each within the memory limit.
set_option Elab.async false

namespace Sys2Proof

/-! ### The decoder on encoded words (30_encoding R80 to R86) -/

theorem decodeR_encodeR (op : BitVec 8) {useRd useRa useRb useRc : Bool} {rd ra rb rc : Reg} (i : Instr)
    (hd : (useRd || rd == 0) = true) (ha : (useRa || ra == 0) = true) (hb : (useRb || rb == 0) = true)
    (hc : (useRc || rc == 0) = true) : decodeR (encodeR op rd ra rb rc) useRd useRa useRb useRc i = .ok i := by
  simp only [decodeR, acceptIf_eq_ok, fieldRd_encodeR, fieldRa_encodeR, fieldRb_encodeR, fieldRc_encodeR,
    fieldLow8_encodeR, hd, ha, hb, hc]
  exact ⟨rfl, trivial⟩

theorem decodeI_encodeI (op : BitVec 8) (rd : Reg) (imm16 : BitVec 16) (i : Instr) :
    decodeI (encodeI op rd imm16) i = .ok i := by
  rw [decodeI, acceptIf_eq_ok, fieldRa_encodeI]
  exact ⟨rfl, rfl⟩

theorem decodeC_encodeC (op : BitVec 8) (rd : Reg) {creg : CregNum} (i : Instr) (h : creg ≤ lastCreg) :
    decodeC (encodeC op rd creg) i = .ok i := by
  rw [decodeC, fieldZ12_encodeC, fieldLow8_encodeC, if_pos (by decide), if_pos h]

theorem decodeN_encodeN (op : BitVec 8) {useRa useRb : Bool} {ra rb : Reg} (logn : LogLen) (i : Instr)
    (ha : (useRa || ra == 0) = true) (hb : (useRb || rb == 0) = true) :
    decodeN (encodeN op ra rb logn) useRa useRb i = .ok i := by
  simp only [decodeN, acceptIf_eq_ok, fieldRd_encodeN, fieldRa_encodeN, fieldRb_encodeN, fieldZ6_encodeN, ha, hb]
  exact ⟨rfl, trivial⟩

/-- The opcode byte leads the encoded word of a command to its own row of the map, and the row's format accepts it. -/
theorem decode_encode {i : Instr} (h : i.wellFormed = true) : decode (encode i) = .ok i := by
  cases i
  case li | lis =>
    simp only [encode, decode, fieldOp_encodeI, fieldRd_encodeI, fieldImm16_encodeI]
    exact decodeI_encodeI ..
  case rdc =>
    simp only [encode, decode, fieldOp_encodeC, fieldRd_encodeC, fieldLow8_encodeC]
    exact decodeC_encodeC _ _ _ (of_decide_eq_true h)
  case precomp | fntt | intt | pmul =>
    simp only [encode, decode, fieldOp_encodeN, fieldRa_encodeN, fieldRb_encodeN, fieldLogn_encodeN]
    exact decodeN_encodeN _ _ _ rfl rfl
  all_goals
    simp only [encode, decode, fieldOp_encodeR, fieldRd_encodeR, fieldRa_encodeR, fieldRb_encodeR, fieldRc_encodeR]
    exact decodeR_encodeR _ _ rfl rfl rfl rfl

/-- Settles O1: the CMD value carries the command word, and the decoder reads each field back (`decode_encode`). -/
theorem decodeInvertsEncode : Obligations.DecodeInvertsEncode :=
  fun i hwf => (decodeCmd_encodeCmd i).trans (decode_encode hwf)

/-- Settles O2: a row accepts a word only when its unused fields are zero, which leaves the encoder's word
(`encode_of_decode`). -/
theorem encodeInvertsDecode : Obligations.EncodeInvertsDecode := fun _ _ => encodeCmd_of_decodeCmd

/-! ### What the rows of the opcode map select (30_encoding R86) -/

/-- A mask on a word put together from two parts acts on each part. -/
theorem masked_parts {n k : Nat} {x m b : BitVec n} {x' m' b' : BitVec k} (h : (x ++ x') &&& (m ++ m') = b ++ b') :
    x &&& m = b ∧ x' &&& m' = b' := by
  rw [BitVec.and_append] at h
  have high := congrArg (BitVec.extractLsb' k n) h
  have low := congrArg (BitVec.extractLsb' 0 k) h
  rw [BitVec.extractLsb'_append_eq_left, BitVec.extractLsb'_append_eq_left] at high
  rw [BitVec.extractLsb'_append_eq_right, BitVec.extractLsb'_append_eq_right] at low
  exact ⟨high, low⟩

theorem eq_of_masked_allOnes {n : Nat} {x b : BitVec n} (h : x &&& BitVec.allOnes n = b) : x = b :=
  BitVec.and_allOnes.symm.trans h

/-- The mask of a register field: 0 where the row uses the field, all ones where it must be zero. -/
def registerMask (use : Bool) : Reg := if use then 0 else 0xF

theorem usedField_of_masked {use : Bool} {field : Reg} (h : field &&& registerMask use = 0) :
    usedField use field = field := by
  cases use with
  | false => exact (eq_of_masked_allOnes h).symm
  | true => rfl

/-- A word that a format R row selects is the encoder's: its opcode is the row's and its other fields are zero. -/
theorem encodeR_of_selected {w : BitVec 32} (op : BitVec 8) (d a b c : Bool)
    (h : w &&& (0xFF#8 ++ registerMask d ++ registerMask a ++ registerMask b ++ registerMask c ++ 0xFF#8 : BitVec 32) =
      encodeR op 0 0 0 0) :
    encodeR op (usedField d (fieldRd w)) (usedField a (fieldRa w)) (usedField b (fieldRb w))
      (usedField c (fieldRc w)) = w := by
  rw [← append_fieldsR w, encodeR] at h
  obtain ⟨h, hlow⟩ := masked_parts (n := 24) (k := 8) h
  obtain ⟨h, hc⟩ := masked_parts (n := 20) (k := 4) h
  obtain ⟨h, hb⟩ := masked_parts (n := 16) (k := 4) h
  obtain ⟨h, ha⟩ := masked_parts (n := 12) (k := 4) h
  obtain ⟨hop, hd⟩ := masked_parts (n := 8) (k := 4) h
  rw [usedField_of_masked hd, usedField_of_masked ha, usedField_of_masked hb, usedField_of_masked hc, encodeR,
    ← eq_of_masked_allOnes hop, ← eq_of_masked_allOnes hlow]
  exact append_fieldsR w

theorem encodeI_of_selected {w : BitVec 32} (op : BitVec 8)
    (h : w &&& (0xFF#8 ++ 0#4 ++ 0xF#4 ++ 0#16 : BitVec 32) = encodeI op 0 0) :
    encodeI op (fieldRd w) (fieldImm16 w) = w := by
  rw [← append_fieldsI w, encodeI] at h
  obtain ⟨h, _⟩ := masked_parts (n := 16) (k := 16) h
  obtain ⟨h, hz4⟩ := masked_parts (n := 12) (k := 4) h
  obtain ⟨hop, _⟩ := masked_parts (n := 8) (k := 4) h
  rw [encodeI, ← eq_of_masked_allOnes hop, ← eq_of_masked_allOnes hz4]
  exact append_fieldsI w

theorem encodeC_of_selected {w : BitVec 32} (op : BitVec 8)
    (h : w &&& (0xFF#8 ++ 0#4 ++ 0xFFF#12 ++ 0#8 : BitVec 32) = encodeC op 0 0) :
    encodeC op (fieldRd w) (fieldLow8 w) = w := by
  rw [← append_fieldsC w, encodeC] at h
  obtain ⟨h, _⟩ := masked_parts (n := 24) (k := 8) h
  obtain ⟨h, hz12⟩ := masked_parts (n := 12) (k := 12) h
  obtain ⟨hop, _⟩ := masked_parts (n := 8) (k := 4) h
  rw [encodeC, ← eq_of_masked_allOnes hop, ← eq_of_masked_allOnes hz12]
  exact append_fieldsC w

theorem encodeN_of_selected {w : BitVec 32} (op : BitVec 8) (a b : Bool)
    (h : w &&& (0xFF#8 ++ 0xF#4 ++ registerMask a ++ registerMask b ++ 0x3F#6 ++ 0#6 : BitVec 32) =
      encodeN op 0 0 0) :
    encodeN op (usedField a (fieldRa w)) (usedField b (fieldRb w)) (fieldLogn w) = w := by
  rw [← append_fieldsN w, encodeN] at h
  obtain ⟨h, _⟩ := masked_parts (n := 26) (k := 6) h
  obtain ⟨h, hz6⟩ := masked_parts (n := 20) (k := 6) h
  obtain ⟨h, hb⟩ := masked_parts (n := 16) (k := 4) h
  obtain ⟨h, ha⟩ := masked_parts (n := 12) (k := 4) h
  obtain ⟨hop, hz4⟩ := masked_parts (n := 8) (k := 4) h
  rw [usedField_of_masked ha, usedField_of_masked hb, encodeN, ← eq_of_masked_allOnes hop,
    ← eq_of_masked_allOnes hz4, ← eq_of_masked_allOnes hz6]
  exact append_fieldsN w

/-- What a row selects is a command's encoded word: row by row of the map the command, its opcode, and which register
fields it uses (formats R and N). -/
theorem encoded_of_selected : ∀ row ∈ opcodeRows, ∀ w, w &&& row.mask = row.matchBits → ∃ i, encode i = w := by
  simp only [opcodeRows, List.cons_append, List.nil_append, List.forall_mem_cons]
  exact ⟨fun _ h => ⟨.nop, encodeR_of_selected 0x00 false false false false h⟩,
    fun _ h => ⟨.li _ _, encodeI_of_selected 0x01 h⟩,
    fun _ h => ⟨.lis _ _, encodeI_of_selected 0x02 h⟩,
    fun _ h => ⟨.mov _ _, encodeR_of_selected 0x03 true true false false h⟩,
    fun _ h => ⟨.rdc _ _, encodeC_of_selected 0x04 h⟩,
    fun _ h => ⟨.setmod _, encodeR_of_selected 0x10 false true false false h⟩,
    fun _ h => ⟨.setroot _, encodeR_of_selected 0x11 false true false false h⟩,
    fun _ h => ⟨.mfrom _ _, encodeR_of_selected 0x20 true true false false h⟩,
    fun _ h => ⟨.mto _ _, encodeR_of_selected 0x21 true true false false h⟩,
    fun _ h => ⟨.madd _ _ _, encodeR_of_selected 0x22 true true true false h⟩,
    fun _ h => ⟨.msub _ _ _, encodeR_of_selected 0x23 true true true false h⟩,
    fun _ h => ⟨.mmul _ _ _, encodeR_of_selected 0x24 true true true false h⟩,
    fun _ h => ⟨.mneg _ _, encodeR_of_selected 0x25 true true false false h⟩,
    fun _ h => ⟨.mredc _ _ _, encodeR_of_selected 0x26 true true true false h⟩,
    fun _ h => ⟨.meq _ _ _, encodeR_of_selected 0x28 true true true false h⟩,
    fun _ h => ⟨.mcmp _ _ _, encodeR_of_selected 0x29 true true true false h⟩,
    fun _ h => ⟨.mpowm _ _ _ _, encodeR_of_selected 0x30 true true true true h⟩,
    fun _ h => ⟨.mpow _ _ _, encodeR_of_selected 0x31 true true true false h⟩,
    fun _ h => ⟨.minv _ _, encodeR_of_selected 0x32 true true false false h⟩,
    fun _ h => ⟨.mdiv _ _ _, encodeR_of_selected 0x33 true true true false h⟩,
    fun _ h => ⟨.pld _ _, encodeR_of_selected 0x40 true true false false h⟩,
    fun _ h => ⟨.pst _ _, encodeR_of_selected 0x41 false true true false h⟩,
    fun _ h => ⟨.precomp _, encodeN_of_selected 0x42 false false h⟩,
    fun _ h => ⟨.fntt _ _, encodeN_of_selected 0x43 true false h⟩,
    fun _ h => ⟨.intt _ _, encodeN_of_selected 0x44 true false h⟩,
    fun _ h => ⟨.pmul _ _ _, encodeN_of_selected 0x45 true true h⟩,
    fun _ h => ⟨.phad _ _ _, encodeR_of_selected 0x46 false true true true h⟩,
    fun _ h => ⟨.pvadd _ _ _, encodeR_of_selected 0x48 false true true true h⟩,
    fun _ h => ⟨.pvsub _ _ _, encodeR_of_selected 0x49 false true true true h⟩,
    fun _ h => ⟨.psadd _ _ _, encodeR_of_selected 0x4A false true true true h⟩,
    fun _ h => ⟨.pssub _ _ _, encodeR_of_selected 0x4B false true true true h⟩,
    fun _ h => ⟨.psmul _ _ _, encodeR_of_selected 0x4C false true true true h⟩,
    fun _ h => ⟨.psdiv _ _ _, encodeR_of_selected 0x4D false true true true h⟩,
    fun _ h => ⟨.isprime _ _, encodeR_of_selected 0x50 true true false false h⟩,
    fun _ h => ⟨.mrwit _ _, encodeR_of_selected 0x51 true true false false h⟩,
    List.forall_mem_nil _⟩

/-- Of the words the encoder writes only RDC's can stand for no command, by its control register (30_encoding R87 point
4). -/
theorem wellFormed_of_encoded {i : Instr}
    (h : (fieldOp (encode i)).toNat = 4 → (fieldLow8 (encode i)).toNat ≤ 10) : i.wellFormed = true := by
  cases i
  case rdc rd creg =>
    rw [encode, fieldOp_encodeC, fieldLow8_encodeC] at h
    exact decide_eq_true (h rfl)
  all_goals rfl

end Sys2Proof

namespace Sys2Proof.Machine

/-! ### Illegal values (30_encoding R87) -/

/-- A value that none of the four points calls illegal is a command. -/
theorem decodeCmd_of_not_illegalCommand {v : Word} (h : ¬ IllegalCommand v) :
    ∃ i, decodeCmd v = .ok i ∧ i.wellFormed = true := by
  simp only [IllegalCommand, not_or, not_not, not_forall, not_and, not_lt] at h
  obtain ⟨hhigh, ⟨row, hrow, hselects⟩, hcreg⟩ := h
  obtain ⟨i, hi⟩ := encoded_of_selected row hrow _ hselects
  have hwf : i.wellFormed = true := wellFormed_of_encoded fun hop => by
    rw [hi] at hop ⊢
    simp only [fieldOp, fieldLow8, BitVec.extractLsb'_toNat, Nat.shiftRight_eq_div_pow] at hop ⊢
    omega
  have hzero : v.extractLsb' 32 32 = 0 := BitVec.eq_of_toNat_eq (by
    rw [BitVec.extractLsb'_toNat, Nat.shiftRight_eq_div_pow, hhigh]
    rfl)
  exact ⟨i, decodeCmd_eq_ok.2 ⟨hzero, hi ▸ decode_encode hwf⟩, hwf⟩

/-- Taking a fault changes what `Faulted` says. -/
theorem faulted_takeFault (s : State) (c : CmdFault) : Faulted s c.code (s.takeFault c) := by
  rw [Faulted, State.takeFault, BitVec.setWidth_eq_extractLsb' (by decide)]

/-- Settles O3: the decoder refuses the illegal values (`not_illegalCommand_of_decodeCmd`) and no others
(`decodeCmd_of_not_illegalCommand`); a LOGN above PLOG is then the command's first failing check. -/
theorem illegalCommandRaisesIllcmd : Obligations.IllegalCommandRaisesIllcmd := by
  refine fun s v hcur => ⟨fun hillegal => ?illegal, fun hlegal => ?legal⟩
  case illegal => exact ⟨_, completion_of_illegalCommand hcur hillegal, faulted_takeFault s .illcmd⟩
  case legal =>
    obtain ⟨i, hdecode, hwf⟩ := decodeCmd_of_not_illegalCommand hlegal
    refine ⟨i, hdecode, hwf, fun logn hlogn hlong hmodv hrootv => ?_⟩
    have hreports : Reports i s 4 := .badlen hwf (fun _ => hmodv) (fun _ => hrootv) ⟨logn, hlogn, hlong⟩
    obtain ⟨c, hcode, hexec⟩ := exec_of_reports hreports
    exact ⟨_, (completion_of_decode hcur hdecode).trans hexec, hcode ▸ faulted_takeFault s c⟩

/-! ### LI64 (30_encoding R90) -/

theorem exec_li (rd : Reg) (imm16 : BitVec 16) (s : State) :
    exec (.li rd imm16) s = .next (s.setX rd (immediate imm16)).retire := rfl

theorem exec_lis (rd : Reg) (imm16 : BitVec 16) (s : State) :
    exec (.lis rd imm16) s = .next (s.setX rd ((s.x rd <<< 16) + immediate imm16)).retire := rfl

/-- LI of the top 16 bits of a word leaves the word shifted right by 48. -/
theorem immediate_top (v : Word) : immediate (v.extractLsb' 48 16) = v >>> 48 := by
  apply BitVec.eq_of_toNat_eq
  simp only [immediate, BitVec.toNat_setWidth, BitVec.extractLsb'_toNat, BitVec.toNat_ushiftRight,
    Nat.shiftRight_eq_div_pow]
  omega

/-- LIS of the next 16 bits takes a word shifted right by k + 16 to the word shifted right by k. -/
theorem shifted_add_immediate (v : Word) (k : Nat) :
    ((v >>> (k + 16)) <<< 16) + immediate (v.extractLsb' k 16) = v >>> k := by
  have hlt : v.toNat / 2 ^ k < 2 ^ 64 := lt_of_le_of_lt (Nat.div_le_self ..) v.isLt
  apply BitVec.eq_of_toNat_eq
  simp only [immediate, BitVec.toNat_add, BitVec.toNat_shiftLeft, BitVec.toNat_ushiftRight, BitVec.toNat_setWidth,
    BitVec.extractLsb'_toNat, Nat.shiftRight_eq_div_pow, Nat.shiftLeft_eq, Nat.pow_add, ← Nat.div_div_eq_div_mul]
  omega

/-- Settles O14: after each of the four commands x[rd] is the word shifted right by 48, 32, 16 and 0
(`shifted_add_immediate`). -/
theorem loadImmediateSequenceBuildsWord : Obligations.LoadImmediateSequenceBuildsWord := by
  intro s rd v
  refine ⟨_, _, _, _, exec_li .., exec_lis .., exec_lis .., exec_lis .., ?word, fun r hr => ?others⟩
  case word =>
    simp only [x_retire, x_setX_same, immediate_top]
    rw [shifted_add_immediate v 32, shifted_add_immediate v 16, shifted_add_immediate v 0, BitVec.ushiftRight_zero]
  case others => simp only [x_retire, x_setX_other _ _ hr]

end Sys2Proof.Machine
end

section
/-! PROOFS. The command cycle, and the system commands NOP, LI, LIS, MOV and RDC (40_system R100 to R105). -/

-- One declaration at a time: as one text the package has too many theorems for a thread each within the memory limit.
set_option Elab.async false

namespace Sys2Proof.Machine

/-! ### Decoding the spec's words -/

theorem decode_of_encode {w : BitVec 32} {i : Instr} (hw : encode i = w) (hwf : i.wellFormed = true) :
    decode w = .ok i :=
  hw ▸ decode_encode hwf

/-- Settles O4: each word is the encoder's for its command, and the decoder inverts the encoder (`decode_encode`). -/
theorem workedWordsDecode : Obligations.WorkedWordsDecode := by
  refine ⟨?li, ?rdc, ?setmod, ?madd, ?mcmp, ?mpowm, ?pst, ?pmul, ?psdiv, ?mrwit⟩
  all_goals exact decode_of_encode rfl rfl

/-! ### The command cycle (40_system R100) -/

/-- Settles O5: a completion, whether it is offered or the stream has run out, completes the command in execution. -/
theorem stepRunsTheCommandInExecution : Obligations.StepRunsTheCommandInExecution := by
  refine fun s => ⟨fun v i hcur hdecode _ => ⟨fun hexhausted => ?exhausted, fun rest hoffered => ?offered⟩,
    fun hidle hexhausted => ?idle⟩
  case exhausted => exact (step_exhausted hexhausted).trans (completion_of_decode hcur hdecode)
  case offered =>
    have hcur' : ({ s with inputs := rest } : State).cur = some v := hcur
    exact (step_input hoffered).trans (completion_of_decode hcur' hdecode)
  case idle => exact (step_exhausted hexhausted).trans (completion_idle hidle)

/-- A CMD write while neither BUSY nor ERR is accepted (40_system R100). -/
theorem hostCmd_accepted {s : State} (hidle : s.cur = none) (herr : s.err = false) (v : Word) :
    s.hostCmd v = s.accept v := by
  rw [State.hostCmd, State.busy_of_idle hidle, herr, Bool.or_false, if_neg Bool.false_ne_true]

/-- Settles O7: CMD is the object at offset 0, and its write is the acceptance. -/
theorem cmdWriteIsAcceptedWhileIdle : Obligations.CmdWriteIsAcceptedWhileIdle := fun _ v hidle herr =>
  hostWriteGives_object rfl (windowObject_register (by decide)) (hostCmd_accepted hidle herr v)

/-- Settles O11: what a command that runs writes before it retires leaves the count, the fault record and the host's
state (`Writes.unitsOnly`). -/
theorem commandsThatPassTheirChecksRetire : Obligations.CommandsThatPassTheirChecksRetire := by
  intro i s hruns
  obtain ⟨u, hwrites, hexec⟩ := exec_of_runs hruns
  refine ⟨u.retire, hexec, ?_⟩
  rw [hwrites.unitsOnly]
  exact ⟨rfl, rfl, rfl, rfl, rfl, rfl, rfl, rfl, rfl, rfl, rfl⟩

/-- t is what the end of a command leaves of s: the block is idle with DONE set, and the command is counted, or its
fault is recorded and nothing else has changed (40_system R100). -/
def CompletedFrom (s t : State) : Prop :=
  t.cur = none ∧ t.done = true ∧
    ((t.cmdcnt = s.cmdcnt + 1 ∧ t.err = s.err ∧ t.errcode = s.errcode ∧ t.errcmd = s.errcmd) ∨
      ∃ code : BitVec 8, 1 ≤ code.toNat ∧ code.toNat ≤ 6 ∧ Faulted s code t)

theorem completedFrom_takeFault (s : State) (c : CmdFault) : CompletedFrom s (s.takeFault c) :=
  have ⟨hlow, hhigh⟩ := c.code_range
  ⟨rfl, rfl, .inr ⟨c.code, hlow, hhigh, faulted_takeFault s c⟩⟩

theorem completedFrom_retire {i : Instr} {s u : State} (h : Writes i s u) : CompletedFrom s u.retire := by
  rw [h.unitsOnly]
  exact ⟨rfl, rfl, .inl ⟨rfl, rfl, rfl, rfl⟩⟩

theorem completedFrom_of_exec {i : Instr} {s t : State} (h : exec i s = .next t) : CompletedFrom s t := by
  rcases exec_next_writes h with ⟨u, _, hwrites, rfl⟩ | ⟨c, rfl⟩
  · exact completedFrom_retire hwrites
  · exact completedFrom_takeFault s c

/-- Settles O8: a value that decodes ends as its command does (`exec_next_writes`), every other value is ILLCMD. -/
theorem everyAcceptedCommandCompletes : Obligations.EveryAcceptedCommandCompletes := by
  intro s v hcur
  cases hdecode : decodeCmd v with
  | ok i =>
    obtain ⟨t, hexec⟩ := exec_has_next i s
    exact ⟨t, (completion_of_decode hcur hdecode).trans hexec, completedFrom_of_exec hexec⟩
  | error d => exact ⟨_, completion_of_illegal hcur hdecode, completedFrom_takeFault s .illcmd⟩

/-! ### NOP, LI, LIS, MOV (40_system R101 to R104) -/

theorem immediate_eq_ofNat (imm16 : BitVec 16) : immediate imm16 = BitVec.ofNat 64 imm16.toNat :=
  (BitVec.ofNat_toNat 64 imm16).symm

/-- LIS's shift by 16 is the product with 2^16 (40_system R103). -/
theorem shifted_add_immediate_eq_ofNat (v : Word) (imm16 : BitVec 16) :
    (v <<< 16) + immediate imm16 = BitVec.ofNat 64 (v.toNat * 2 ^ 16 + imm16.toNat) := by
  apply BitVec.eq_of_toNat_eq
  simp only [immediate_eq_ofNat, BitVec.toNat_add, BitVec.toNat_shiftLeft, BitVec.toNat_ofNat, Nat.shiftLeft_eq]
  omega

/-- Settles O12: NOP retires the state as it is, the other three retire one register write. -/
theorem systemCommandResults : Obligations.SystemCommandResults := by
  refine fun s rd ra imm16 => ⟨rfl, ?li, ?lis, writesReg_of_exec rfl⟩
  case li =>
    rw [← immediate_eq_ofNat]
    exact writesReg_of_exec (exec_li rd imm16 s)
  case lis =>
    rw [← shifted_add_immediate_eq_ofNat]
    exact writesReg_of_exec (exec_lis rd imm16 s)

/-! ### RDC (40_system R105) -/

/-- RDC writes the register its control register's value (10_state R37). -/
theorem writesReg_rdc {s : State} {creg : CregNum} {v : Word} (rd : Reg)
    (h : cregValue s (statusWordInCommand s) creg.toNat = some v) : WritesReg (.rdc rd creg) s rd v :=
  writesReg_of_exec (by rw [exec, execRdc, h, finish_ok])

theorem wellFormed_rdc_of_reserved (rd : Reg) {creg : CregNum} (h : 10 < creg.toNat) :
    (Instr.rdc rd creg).wellFormed = false :=
  decide_eq_false (Nat.not_le.2 h)

/-- Settles O13: the control registers by number, STATUS and CONFIG as numbers; the encoding check of a reserved number
fails first. -/
theorem rdcReadsControlRegisters : Obligations.RdcReadsControlRegisters := by
  refine fun s rd => ⟨writesReg_rdc rd rfl, writesReg_rdc rd rfl, writesReg_rdc rd rfl, writesReg_rdc rd rfl,
    writesReg_rdc rd rfl, writesReg_rdc rd rfl, writesReg_rdc rd rfl, writesReg_rdc rd rfl, ?status,
    writesReg_rdc rd rfl, fun hplog => ?config, fun creg hreserved => ?reserved⟩
  case status => exact writesReg_rdc rd (congrArg some (assembleStatus_eq s s.ovrAtAcceptance false true))
  case config => exact writesReg_rdc rd (congrArg some (configWord_eq_configNumber hplog))
  case reserved =>
    obtain ⟨c, hcode, hexec⟩ := exec_of_reports (.illcmd (wellFormed_rdc_of_reserved rd hreserved) : Reports _ s 1)
    exact ⟨_, hexec, hcode ▸ faulted_takeFault s c⟩

end Sys2Proof.Machine
end

section
/-! PROOFS. The engine functions on residue classes (41_montgomery R120 to R131): the Newton iteration finds MPRIME, REDC
divides exactly, and From, To and the ring operations act on the classes their words represent. -/

-- One declaration at a time: as one text the package has too many theorems for a thread each within the memory limit.
set_option Elab.async false

namespace Sys2Proof.Machine

/-! ### MPRIME (41_montgomery R120) -/

/-- A Newton step is `x·(2 - m·x)` modulo 2^64. -/
theorem inverseStep_modEq (m x : Nat) : (inverseStep m x : ℤ) ≡ x * (2 - m * x) [ZMOD 2 ^ 64] := by
  have hle : m * x % radix ≤ radix := (Nat.mod_lt _ (by decide)).le
  have hmod : ((m * x % radix : Nat) : ℤ) ≡ m * x [ZMOD 2 ^ 64] := by
    push_cast
    exact Int.mod_modEq _ _
  have hneg : (2 ^ 64 : ℤ) - ((m * x % radix : Nat) : ℤ) ≡ 0 - m * x [ZMOD 2 ^ 64] :=
    .sub (Int.modEq_zero_iff_dvd.2 dvd_rfl) hmod
  calc (inverseStep m x : ℤ)
      = x * (2 + (2 ^ 64 - ((m * x % radix : Nat) : ℤ))) % 2 ^ 64 := by
        rw [inverseStep, Int.natCast_mod, Nat.cast_mul, Nat.cast_add, Nat.cast_sub hle]; rfl
    _ ≡ x * (2 + (2 ^ 64 - ((m * x % radix : Nat) : ℤ))) [ZMOD 2 ^ 64] := Int.mod_modEq _ _
    _ ≡ x * (2 + (0 - m * x)) [ZMOD 2 ^ 64] := .mul_left _ (.add_left _ hneg)
    _ = x * (2 - m * x) := by ring

/-- A Newton step doubles the number of low bits in which x inverts m: its error is the square of the one before. -/
theorem inverseStep_doubles {m x j k : Nat} (h : (m * x : ℤ) ≡ 1 [ZMOD 2 ^ k]) (hj : j ≤ 2 * k) (h64 : j ≤ 64) :
    (m * inverseStep m x : ℤ) ≡ 1 [ZMOD 2 ^ j] := by
  have herror : (2 : ℤ) ^ j ∣ (m * x - 1) ^ 2 :=
    calc (2 : ℤ) ^ j ∣ 2 ^ (2 * k) := pow_dvd_pow 2 hj
      _ = (2 ^ k) ^ 2 := by rw [← pow_mul, mul_comm]
      _ ∣ (m * x - 1) ^ 2 := pow_dvd_pow_of_dvd h.symm.dvd 2
  calc (m * inverseStep m x : ℤ)
      ≡ m * (x * (2 - m * x)) [ZMOD 2 ^ j] := ((inverseStep_modEq m x).of_dvd (pow_dvd_pow 2 h64)).mul_left _
    _ = 1 - (m * x - 1) ^ 2 := by ring
    _ ≡ 1 - 0 [ZMOD 2 ^ j] := .sub rfl (Int.modEq_zero_iff_dvd.2 herror)

theorem inverseSteps_doubles {m : Nat} (n : Nat) : ∀ {x k : Nat}, (m * x : ℤ) ≡ 1 [ZMOD 2 ^ min 64 k] →
    (m * inverseSteps m n x : ℤ) ≡ 1 [ZMOD 2 ^ min 64 (2 ^ n * k)] := by
  induction n with
  | zero => intro x k h; simpa [inverseSteps] using h
  | succ n ih =>
    intro x k h
    rw [inverseSteps, pow_succ, mul_assoc]
    exact ih (inverseStep_doubles h (by omega) (by omega))

theorem inverseSteps_lt (m n : Nat) : ∀ {x : Nat}, x < 2 ^ 64 → inverseSteps m n x < 2 ^ 64 := by
  induction n with
  | zero => exact fun hx => hx
  | succ n ih => exact fun _ => ih (Nat.mod_lt _ (by decide))

/-- An odd m inverts itself modulo 8. -/
theorem mul_self_modEq_one {m : Nat} (h : m % 2 = 1) : (m * m : ℤ) ≡ 1 [ZMOD 2 ^ 3] := by
  have hodd : Odd (m : ℤ) := by exact_mod_cast Nat.odd_iff.2 h
  rw [← sq]
  exact (Int.modEq_iff_dvd.2 (Int.eight_dvd_sq_sub_one_of_odd hodd)).symm

/-- MPRIME is the negated inverse of the modulus modulo 2^64 (41_montgomery R120). -/
theorem dvd_mul_negInverse_add_one {m : Nat} (h : modOk m = true) : 2 ^ 64 ∣ m * negInverse m + 1 := by
  obtain ⟨hodd, h62⟩ := modOk_iff.1 h
  have hm : m % radix = m := Nat.mod_eq_of_lt (h62.trans (by decide))
  have hle : inverseSteps m 5 m ≤ radix := (inverseSteps_lt m 5 (by omega : m < 2 ^ 64)).le
  have hinv : (m * inverseSteps m 5 m : ℤ) ≡ 1 [ZMOD 2 ^ 64] :=
    inverseSteps_doubles (k := 3) 5 (mul_self_modEq_one hodd)
  have hneg : (negInverse m : ℤ) ≡ -inverseSteps m 5 m [ZMOD 2 ^ 64] := by
    rw [negInverse, hm, Int.natCast_mod, Nat.cast_sub hle]
    exact (Int.mod_modEq _ _).trans (Int.modEq_iff_dvd.2 ⟨-1, by push_cast; ring⟩)
  zify
  refine Int.modEq_zero_iff_dvd.1 ?_
  calc (m * negInverse m + 1 : ℤ)
      ≡ m * -inverseSteps m 5 m + 1 [ZMOD 2 ^ 64] := (hneg.mul_left _).add_right _
    _ = -(m * inverseSteps m 5 m) + 1 := by ring
    _ ≡ -1 + 1 [ZMOD 2 ^ 64] := hinv.neg.add_right _

/-! ### The functions as equations (41_montgomery R123 to R129) -/

theorem Engine.toOrdinary_eq (e : Engine) (v : Nat) :
    e.toOrdinary v = if e.m.toNat ≤ e.reduce v then e.reduce v - e.m.toNat else e.reduce v := rfl

/-- To subtracts the modulus at most once (41_montgomery R125). -/
theorem Engine.toOrdinary_modEq (e : Engine) (v : Nat) : e.toOrdinary v ≡ e.reduce v [MOD e.m.toNat] := by
  rw [e.toOrdinary_eq]
  split
  · next hge => exact (Nat.mod_eq_sub_mod hge).symm
  · rfl

theorem Engine.add_eq (e : Engine) (a b : Nat) :
    e.add a b = if e.m2.toNat ≤ a + b then a + b - e.m2.toNat else a + b := rfl

theorem Engine.sub_eq (e : Engine) (a b : Nat) :
    e.sub a b = if b ≤ a then a - b else a + e.m2.toNat - b := rfl

theorem Engine.neg_eq (e : Engine) (a : Nat) : e.neg a = if a = 0 then 0 else e.m2.toNat - a := rfl

/-- Neg is Sub from 0 (41_montgomery R127, R129). -/
theorem Engine.neg_eq_sub (e : Engine) (a : Nat) : e.neg a = e.sub 0 a := by
  rw [e.neg_eq, e.sub_eq]
  split_ifs <;> omega

theorem Engine.mul_commutes (e : Engine) (a b : Nat) : e.mul a b = e.mul b a :=
  congrArg e.reduce (Nat.mul_comm a b)

@[simp] theorem Engine.reduce_zero (e : Engine) : e.reduce 0 = 0 := by simp [Engine.reduce, Engine.quotient]

@[simp] theorem Engine.fromOrdinary_zero (e : Engine) : e.fromOrdinary 0 = 0 := by simp [Engine.fromOrdinary]

@[simp] theorem Engine.mul_zero_left (e : Engine) (b : Nat) : e.mul 0 b = 0 := by simp [Engine.mul]

/-! ### What a lawful engine's constants are (41_montgomery R120) -/

theorem construct_m2_toNat {m : Nat} (h : modOk m = true) : (construct m).m2.toNat = 2 * m := by
  have := (modOk_iff.1 h).2
  simp only [construct, BitVec.toNat_ofNat]
  omega

theorem construct_mprime_toNat (m : Nat) : (construct m).mprime.toNat = negInverse m :=
  (BitVec.toNat_ofNat _ _).trans (Nat.mod_eq_of_lt (Nat.mod_lt _ (by decide)))

namespace Engine.Lawful

variable {e : Engine} (h : e.Lawful)
include h

theorem m2_eq : e.m2.toNat = 2 * e.m.toNat := by
  obtain ⟨m, hm, rfl⟩ := h
  rw [construct_m2_toNat hm, construct_m_toNat hm]

theorem dvd_mul_mprime_add_one : 2 ^ 64 ∣ e.m.toNat * e.mprime.toNat + 1 := by
  obtain ⟨m, hm, rfl⟩ := h
  rw [construct_m_toNat hm, construct_mprime_toNat]
  exact dvd_mul_negInverse_add_one hm

/-- R = 2^64 is invertible modulo an odd modulus. -/
theorem coprime_radix : Nat.gcd e.m.toNat (2 ^ 64) = 1 := by
  obtain ⟨m, hm, rfl⟩ := h
  rw [construct_m_toNat hm]
  exact (Nat.coprime_two_right.2 (Nat.odd_iff.2 (modOk_iff.1 hm).1)).pow_right 64

/-- RSQ is R^2 modulo m (41_montgomery R120). -/
theorem rsq_modEq : e.rsq.toNat ≡ 2 ^ 64 * 2 ^ 64 [MOD e.m.toNat] := by
  obtain ⟨m, hm, rfl⟩ := h
  rw [construct_m_toNat hm, construct_rsq_toNat hm]
  exact Nat.mod_modEq _ _

/-- Classes agree when their multiples of R do. -/
theorem cancel_radix {a b : Nat} (hab : a * 2 ^ 64 ≡ b * 2 ^ 64 [MOD e.m.toNat]) : a ≡ b [MOD e.m.toNat] :=
  Nat.ModEq.cancel_right_of_coprime h.coprime_radix hab

/-- A valid residue word is a word (41_montgomery R122). -/
theorem residue_lt_radix {v : Nat} (hv : v < 2 * e.m.toNat) : v < 2 ^ 64 := by
  have := h.m_lt
  omega

theorem zero_residue : 0 < 2 * e.m.toNat := by
  have := h.m_pos
  omega

/-! ### REDC (41_montgomery R123) -/

/-- The shift of REDC discards only zero bits (41_montgomery R123, fact 1). -/
theorem dvd_add_quotient_mul (t : Nat) : 2 ^ 64 ∣ t + e.quotient t * e.m.toNat := by
  have hquotient : e.quotient t ≡ t * e.mprime.toNat [MOD 2 ^ 64] :=
    (Nat.mod_modEq _ _).trans ((Nat.mod_modEq _ _).mul_right _)
  refine (Nat.modEq_zero_iff_dvd).1 ?_
  calc t + e.quotient t * e.m.toNat
      ≡ t + t * e.mprime.toNat * e.m.toNat [MOD 2 ^ 64] := (hquotient.mul_right _).add_left _
    _ = t * (e.m.toNat * e.mprime.toNat + 1) := by ring
    _ ≡ 0 [MOD 2 ^ 64] := Nat.modEq_zero_iff_dvd.2 (h.dvd_mul_mprime_add_one.mul_left t)

/-- REDC's result in one equation, from which its facts follow (41_montgomery R123). -/
theorem reduce_mul_radix (t : Nat) : e.reduce t * 2 ^ 64 = t + e.quotient t * e.m.toNat :=
  Nat.div_mul_cancel (h.dvd_add_quotient_mul t)

/-- `t ≡ T·R^-1 (mod m)` (41_montgomery R123, fact 2). -/
theorem reduce_mul_radix_modEq (t : Nat) : e.reduce t * 2 ^ 64 ≡ t [MOD e.m.toNat] := by
  rw [h.reduce_mul_radix]
  exact Nat.add_mul_mod_self_right _ _ _

theorem quotient_mul_m_lt (t : Nat) : e.quotient t * e.m.toNat < 2 ^ 64 * e.m.toNat :=
  Nat.mul_lt_mul_of_pos_right (Nat.mod_lt _ (by decide)) h.m_pos

/-- REDC of a value below m is below m. -/
theorem reduce_lt_m {t : Nat} (ht : t < e.m.toNat) : e.reduce t < e.m.toNat := by
  have hq : (e.quotient t + 1) * e.m.toNat ≤ 2 ^ 64 * e.m.toNat :=
    Nat.mul_le_mul_right _ (Nat.mod_lt _ (by decide))
  have hexact := h.reduce_mul_radix t
  rw [add_mul, one_mul] at hq
  omega

/-! ### Represented classes (00_scope R13, 41_montgomery R124, R125) -/

/-- A class below m is a word's when its multiple of R is congruent to the word. -/
theorem represents_mod {v c : Nat} (hv : v ≡ c * 2 ^ 64 [MOD e.m.toNat]) : e.Represents v (c % e.m.toNat) :=
  ⟨Nat.mod_lt _ h.m_pos, hv.trans ((Nat.mod_modEq c _).symm.mul_right _)⟩

theorem represents_unique {v c d : Nat} (hc : e.Represents v c) (hd : e.Represents v d) : c = d :=
  (h.cancel_radix (hc.2.symm.trans hd.2)).eq_of_lt_of_lt hc.1 hd.1

/-- From represents the class of its operand, whatever the operand (41_montgomery R124). -/
theorem represents_fromOrdinary (x : Nat) : e.Represents (e.fromOrdinary x) (x % e.m.toNat) := by
  refine h.represents_mod (h.cancel_radix ?_)
  calc e.fromOrdinary x * 2 ^ 64
      ≡ x * e.rsq.toNat [MOD e.m.toNat] := h.reduce_mul_radix_modEq _
    _ ≡ x * (2 ^ 64 * 2 ^ 64) [MOD e.m.toNat] := h.rsq_modEq.mul_left _
    _ = x * 2 ^ 64 * 2 ^ 64 := (mul_assoc _ _ _).symm

/-- To of a word is the class it represents (41_montgomery R125). -/
theorem represents_toOrdinary {v : Nat} (hv : v < 2 ^ 64) : e.Represents v (e.toOrdinary v) := by
  have hreduce : e.reduce v < 1 + e.m.toNat := e.reduce_lt (by omega)
  have hpos := h.m_pos
  refine ⟨?_, (((e.toOrdinary_modEq v).mul_right _).trans (h.reduce_mul_radix_modEq v)).symm⟩
  rw [e.toOrdinary_eq]
  split <;> omega

theorem toOrdinary_eq_of_represents {v c : Nat} (hv : v < 2 ^ 64) (hc : e.Represents v c) : e.toOrdinary v = c :=
  h.represents_unique (h.represents_toOrdinary hv) hc

/-- `From(1) = ONE` as a raw word, for the modulus 1 too (41_montgomery R124). -/
theorem fromOrdinary_one : e.fromOrdinary 1 = 2 ^ 64 % e.m.toNat := by
  have hlt : e.fromOrdinary 1 < e.m.toNat := h.reduce_lt_m (by rw [one_mul]; exact h.rsq_lt)
  have hmod : e.fromOrdinary 1 ≡ 1 * 2 ^ 64 [MOD e.m.toNat] :=
    (h.represents_fromOrdinary 1).2.trans ((Nat.mod_modEq 1 _).mul_right _)
  rw [← Nat.mod_eq_of_lt hlt, hmod, one_mul]

/-- A multiple of m represents the class 0. -/
theorem represents_zero_of_dvd {v : Nat} (hv : e.m.toNat ∣ v) : e.Represents v 0 :=
  ⟨h.m_pos, by rw [Nat.mod_eq_zero_of_dvd hv, zero_mul, Nat.zero_mod]⟩

/-! ### Add, Sub, Neg and Mul on classes (41_montgomery R126 to R129) -/

/-- Add subtracts 2m once or not at all (41_montgomery R126). -/
theorem add_cases (a b : Nat) : e.add a b = a + b ∨ e.add a b + 2 * e.m.toNat = a + b := by
  rw [e.add_eq, h.m2_eq]
  split <;> omega

theorem add_lt {a b : Nat} (ha : a < 2 * e.m.toNat) (hb : b < 2 * e.m.toNat) : e.add a b < 2 * e.m.toNat := by
  rw [e.add_eq, h.m2_eq]
  split <;> omega

theorem add_modEq (a b : Nat) : e.add a b ≡ a + b [MOD e.m.toNat] := by
  rcases h.add_cases a b with heq | heq
  · rw [heq]
  · rw [← heq]
    exact (Nat.add_mul_mod_self_right _ _ _).symm

/-- Sub adds 2m once or not at all (41_montgomery R127). -/
theorem sub_cases {a b : Nat} (hb : b < 2 * e.m.toNat) :
    e.sub a b + b = a ∨ e.sub a b + b = a + 2 * e.m.toNat := by
  rw [e.sub_eq, h.m2_eq]
  split <;> omega

theorem sub_lt {a b : Nat} (ha : a < 2 * e.m.toNat) : e.sub a b < 2 * e.m.toNat := by
  rw [e.sub_eq, h.m2_eq]
  split <;> omega

theorem sub_add_modEq {a b : Nat} (hb : b < 2 * e.m.toNat) : e.sub a b + b ≡ a [MOD e.m.toNat] := by
  rcases h.sub_cases hb with heq | heq <;> rw [heq]
  exact Nat.add_mul_mod_self_right _ _ _

/-- The product of residue words is in REDC's range for a valid residue word (41_montgomery R128). -/
theorem product_lt {a b : Nat} (ha : a < 2 * e.m.toNat) (hb : b < 2 * e.m.toNat) : a * b < e.m.toNat * 2 ^ 64 := by
  have hm := h.m_lt
  calc a * b < (2 * e.m.toNat) * (2 * e.m.toNat) := Nat.mul_lt_mul'' ha hb
    _ = e.m.toNat * (4 * e.m.toNat) := by ring
    _ ≤ e.m.toNat * 2 ^ 64 := Nat.mul_le_mul_left _ (by omega)

theorem represents_add {a b ca cb : Nat} (ha : e.Represents a ca) (hb : e.Represents b cb) :
    e.Represents (e.add a b) ((ca + cb) % e.m.toNat) := by
  refine h.represents_mod ((h.add_modEq a b).trans ?_)
  rw [add_mul]
  exact .add ha.2 hb.2

theorem represents_mul {a b ca cb : Nat} (ha : e.Represents a ca) (hb : e.Represents b cb) :
    e.Represents (e.mul a b) (ca * cb % e.m.toNat) := by
  refine h.represents_mod (h.cancel_radix ?_)
  calc e.mul a b * 2 ^ 64
      ≡ a * b [MOD e.m.toNat] := h.reduce_mul_radix_modEq (a * b)
    _ ≡ ca * 2 ^ 64 * (cb * 2 ^ 64) [MOD e.m.toNat] := .mul ha.2 hb.2
    _ = ca * cb * 2 ^ 64 * 2 ^ 64 := by ring

theorem represents_sub {a b ca cb : Nat} (ha : e.Represents a ca) (hb : e.Represents b cb)
    (hlt : b < 2 * e.m.toNat) : e.Represents (e.sub a b) ((ca + e.m.toNat - cb) % e.m.toNat) := by
  refine h.represents_mod (Nat.ModEq.add_right_cancel hb.2 ?_)
  have hcancel : ca + e.m.toNat - cb + cb = ca + e.m.toNat := by have := hb.1; omega
  calc e.sub a b + b
      ≡ a [MOD e.m.toNat] := h.sub_add_modEq hlt
    _ ≡ ca * 2 ^ 64 [MOD e.m.toNat] := ha.2
    _ ≡ (ca + e.m.toNat) * 2 ^ 64 [MOD e.m.toNat] := (Nat.add_modEq_right.symm).mul_right _
    _ = (ca + e.m.toNat - cb) * 2 ^ 64 + cb * 2 ^ 64 := by rw [← add_mul, hcancel]

/-! ### The laws on ordinary integers (41_montgomery R128, R131) -/

section
variable {a b : Nat} (ha : a < 2 * e.m.toNat) (hb : b < 2 * e.m.toNat)
include ha

theorem represents_toOrdinary_residue : e.Represents a (e.toOrdinary a) :=
  h.represents_toOrdinary (h.residue_lt_radix ha)

theorem toOrdinary_eq_of_represents_residue {c : Nat} (hc : e.Represents a c) : e.toOrdinary a = c :=
  h.toOrdinary_eq_of_represents (h.residue_lt_radix ha) hc

include hb

theorem toOrdinary_add : e.toOrdinary (e.add a b) = (e.toOrdinary a + e.toOrdinary b) % e.m.toNat :=
  h.toOrdinary_eq_of_represents_residue (h.add_lt ha hb)
    (h.represents_add (h.represents_toOrdinary_residue ha) (h.represents_toOrdinary_residue hb))

theorem toOrdinary_sub :
    e.toOrdinary (e.sub a b) = (e.toOrdinary a + e.m.toNat - e.toOrdinary b) % e.m.toNat :=
  h.toOrdinary_eq_of_represents_residue (h.sub_lt ha)
    (h.represents_sub (h.represents_toOrdinary_residue ha) (h.represents_toOrdinary_residue hb) hb)

theorem toOrdinary_mul : e.toOrdinary (e.mul a b) = e.toOrdinary a * e.toOrdinary b % e.m.toNat :=
  h.toOrdinary_eq_of_represents_residue (h.mul_lt ha hb)
    (h.represents_mul (h.represents_toOrdinary_residue ha) (h.represents_toOrdinary_residue hb))

end

theorem toOrdinary_of_dvd {v : Nat} (hv : v < 2 ^ 64) (hdvd : e.m.toNat ∣ v) : e.toOrdinary v = 0 :=
  h.toOrdinary_eq_of_represents hv (h.represents_zero_of_dvd hdvd)

theorem toOrdinary_neg {a : Nat} (ha : a < 2 * e.m.toNat) :
    e.toOrdinary (e.neg a) = (e.m.toNat - e.toOrdinary a) % e.m.toNat := by
  rw [e.neg_eq_sub, h.toOrdinary_sub h.zero_residue ha, h.toOrdinary_of_dvd (by decide) (dvd_zero _), zero_add]

theorem toOrdinary_fromOrdinary {x : Nat} (hx : x < 2 ^ 64) : e.toOrdinary (e.fromOrdinary x) = x % e.m.toNat :=
  h.toOrdinary_eq_of_represents_residue (h.fromOrdinary_lt hx) (h.represents_fromOrdinary x)

end Engine.Lawful

/-- What the statements' engine is: lawful, with modulus m. -/
theorem lawful_construct {m : Nat} (h : modOk m = true) : (construct m).Lawful ∧ (construct m).m.toNat = m :=
  ⟨⟨m, h, rfl⟩, construct_m_toNat h⟩

/-! ### The statements on the engine functions -/

/-- Settles O16: the facts follow from `t·2^64 = T + q·m` and `q·m < 2^64·m`. -/
theorem reductionIsExact : Obligations.ReductionIsExact := by
  intro m T hm e q
  obtain ⟨hlawful, hmod⟩ : e.Lawful ∧ e.m.toNat = m := lawful_construct hm
  rw [← hmod]
  have hexact : e.reduce T * 2 ^ 64 = T + q * e.m.toNat := hlawful.reduce_mul_radix T
  have hqm : q * e.m.toNat < 2 ^ 64 * e.m.toNat := hlawful.quotient_mul_m_lt T
  have h62 := hlawful.m_lt
  refine ⟨rfl, Nat.mod_eq_zero_of_dvd (hlawful.dvd_add_quotient_mul T), hlawful.reduce_mul_radix_modEq T, ?_, ?_,
    fun hT => ?_, fun hT => ?_, fun hT => ?_⟩
  all_goals omega

/-- Settles O17: From and To on classes (`represents_fromOrdinary`, `represents_toOrdinary`). -/
theorem fromAndToConvert : Obligations.FromAndToConvert := by
  intro m x hm hx e
  obtain ⟨hlawful, hmod⟩ : e.Lawful ∧ e.m.toNat = m := lawful_construct hm
  obtain ⟨hto, hclass⟩ := hlawful.represents_toOrdinary hx
  rw [← hmod]
  exact ⟨hlawful.fromOrdinary_lt hx, hlawful.represents_fromOrdinary x, e.fromOrdinary_zero, hlawful.fromOrdinary_one,
    hto, hclass.symm, hlawful.toOrdinary_of_dvd e.m.isLt dvd_rfl,
    fun hlt => (hlawful.toOrdinary_fromOrdinary hx).trans (Nat.mod_eq_of_lt hlt)⟩

/-- Settles O19: the product is in REDC's range, and Mul represents the product of the classes (`represents_mul`). -/
theorem multiplyRepresentsProduct : Obligations.MultiplyRepresentsProduct := by
  intro m a b hm ha hb e
  obtain ⟨hlawful, hmod⟩ : e.Lawful ∧ e.m.toNat = m := lawful_construct hm
  rw [← hmod] at ha hb ⊢
  exact ⟨rfl, hlawful.product_lt ha hb, hlawful.mul_lt ha hb, hlawful.toOrdinary_mul ha hb, e.mul_commutes a b,
    e.mul_zero_left b⟩

/-- Settles O20: the classes of From, Add, Sub, Mul and Neg. -/
theorem ringLawsOnClasses : Obligations.RingLawsOnClasses := by
  intro m x a b hm hx ha hb e
  obtain ⟨hlawful, hmod⟩ : e.Lawful ∧ e.m.toNat = m := lawful_construct hm
  rw [← hmod] at hx ha hb ⊢
  have hround : e.toOrdinary (e.fromOrdinary x) = x :=
    (hlawful.toOrdinary_fromOrdinary (hx.trans e.m.isLt)).trans (Nat.mod_eq_of_lt hx)
  exact ⟨hround, hlawful.toOrdinary_add ha hb, hlawful.toOrdinary_sub ha hb, hlawful.toOrdinary_mul ha hb,
    hlawful.toOrdinary_neg ha⟩

/-- Settles O18: Add and Sub by their one correction, Neg as Sub from 0. -/
theorem lazyAddSubNeg : Obligations.LazyAddSubNeg := by
  intro m a b hm ha hb e
  obtain ⟨hlawful, hmod⟩ : e.Lawful ∧ e.m.toNat = m := lawful_construct hm
  rw [← hmod] at ha hb ⊢
  have hsum : a + b < 2 ^ 64 := by have := hlawful.m_lt; omega
  have hpos := hlawful.m_pos
  have hself : e.sub a a = 0 := by rw [e.sub_eq, if_pos le_rfl, Nat.sub_self]
  have hneg : ∀ {v}, v ≠ 0 → e.neg v = 2 * e.m.toNat - v := fun hv => by
    rw [e.neg_eq, if_neg hv, hlawful.m2_eq]
  have hneg_lt : e.neg a < 2 * e.m.toNat := e.neg_eq_sub a ▸ hlawful.sub_lt hlawful.zero_residue
  have hneg_add : (e.neg a + a) % e.m.toNat = 0 := by
    rw [e.neg_eq_sub, hlawful.sub_add_modEq ha, Nat.zero_mod]
  have hneg_m : e.neg e.m.toNat = e.m.toNat := by rw [hneg hpos.ne']; omega
  exact ⟨hsum, hlawful.add_lt ha hb, hlawful.add_cases a b, hlawful.add_modEq a b, hlawful.sub_lt ha,
    hlawful.sub_cases hb, hlawful.sub_add_modEq hb, hself, rfl, hneg, hneg_lt, hneg_add, hneg_m⟩

end Sys2Proof.Machine
end

section
/-! PROOFS. SETMOD and the ring commands (41_montgomery R121, R132 to R138): the engine function of each, where its
operands are valid residue words, some word elsewhere, and nothing else changed. -/

-- One declaration at a time: as one text the package has too many theorems for a thread each within the memory limit.
set_option Elab.async false

namespace Sys2Proof.Machine

/-! ### SETMOD (41_montgomery R120, R121) -/

/-- SETMOD of an accepted modulus loads it (41_montgomery R121). -/
theorem exec_setmod {s : State} {ra : Reg} (h : modOk (s.x ra).toNat = true) :
    exec (.setmod ra) s = .next (s.loadModulus (s.x ra).toNat).retire := by
  change finish s (check .badmod (modOk (s.x ra).toNat) >>= fun _ => .ok (s.loadModulus (s.x ra).toNat)) = _
  rw [h]
  rfl

/-- Settles O15: the constants `construct` builds, MPRIME by the Newton iteration (`dvd_mul_mprime_add_one`); a refused
modulus is the BADMOD row of R270. -/
theorem setmodLoadsTheModulus : Obligations.SetmodLoadsTheModulus := by
  refine fun s ra => ⟨fun hodd h62 => ?accepted, fun hbad => ?refused⟩
  case accepted =>
    have hm := modOk_iff.2 ⟨hodd, h62⟩
    obtain ⟨hlawful, hmod⟩ := lawful_construct hm
    have hmprime := hlawful.dvd_mul_mprime_add_one
    rw [hmod] at hmprime
    exact ⟨_, exec_setmod hm, BitVec.eq_of_toNat_eq hmod, construct_m2_toNat hm,
      show _ * (construct (s.x ra).toNat).mprime.toNat % 2 ^ 64 = 2 ^ 64 - 1 by omega,
      construct_one_toNat hm, construct_rsq_toNat hm, rfl⟩
  case refused =>
    obtain ⟨c, hcode, hexec⟩ := exec_of_reports (.badmod hbad : Reports (.setmod ra) s 6)
    exact ⟨_, hexec, hcode ▸ faulted_takeFault s c⟩

/-! ### The end of a command that writes a value or an unspecified word -/

theorem writesSomeWord_of_exec {i : Instr} {s : State} {rd : Reg}
    (h : exec i s = .next (s.setXFree rd).retire) : WritesSomeWord i s rd :=
  ⟨_, h, fun _ hr => x_setXFree_other s hr, rfl⟩

/-- A command whose one check is NOMOD and which then writes x[rd] a value or an unspecified word. -/
theorem writesRegValue_of_engine {i : Instr} {s : State} {rd : Reg} {v : Option Nat} (hmodv : s.modv = true)
    (h : exec i s = finish s (s.needEngine >>= fun _ => .ok (s.setXValue rd v))) : WritesRegValue i s rd v := by
  rw [State.needEngine, hmodv, check_true] at h
  cases v with
  | some n => exact writesReg_of_exec h
  | none => exact writesSomeWord_of_exec h

/-- A register is a residue operand exactly when its word is below MOD2 (41_montgomery R122). -/
theorem State.residue_eq (s : State) (r : Reg) :
    s.residue r = if (s.x r).toNat < s.eng.m2.toNat then some (s.x r).toNat else none := by
  simp only [State.residue, res_iff]

theorem State.unary_eq (s : State) (f : Nat → Nat) (ra : Reg) :
    s.unary f ra = if (s.x ra).toNat < s.eng.m2.toNat then some (f (s.x ra).toNat) else none := by
  rw [State.unary, s.residue_eq]
  split <;> rfl

theorem State.binary_eq (s : State) (f : Nat → Nat → Nat) (ra rb : Reg) :
    s.binary f ra rb = if (s.x ra).toNat < s.eng.m2.toNat ∧ (s.x rb).toNat < s.eng.m2.toNat then
      some (f (s.x ra).toNat (s.x rb).toNat) else none := by
  rw [State.binary, s.residue_eq, s.residue_eq, ite_and]
  split
  · split <;> rfl
  · rfl

/-- Sub's correction, for a subtrahend below MOD2 (41_montgomery R127). -/
theorem Engine.sub_eq_of_lt (e : Engine) (a : Nat) {b : Nat} (hb : b < e.m2.toNat) :
    e.sub a b = if b ≤ a then a - b else a + (e.m2.toNat - b) := by
  rw [e.sub_eq, Nat.add_sub_assoc hb.le]

/-! ### The ring commands (41_montgomery R132 to R138) -/

/-- Settles O23: each command writes its engine function of residue operands (`State.binary_eq`, `State.unary_eq`). -/
theorem addSubNegCommandResults : Obligations.AddSubNegCommandResults := by
  intro s rd ra rb hmodv a b m2
  refine ⟨?madd, ?msub, ?mneg⟩
  case madd => exact s.binary_eq s.eng.add ra rb ▸ writesRegValue_of_engine hmodv rfl
  case msub =>
    have hvalue : (if a < m2 ∧ b < m2 then some (if b ≤ a then a - b else a + (m2 - b)) else none) =
        s.binary s.eng.sub ra rb := by
      rw [s.binary_eq]
      exact ite_congr rfl (fun hres => congrArg some (s.eng.sub_eq_of_lt a hres.2).symm) fun _ => rfl
    exact hvalue ▸ writesRegValue_of_engine hmodv rfl
  case mneg => exact s.unary_eq s.eng.neg ra ▸ writesRegValue_of_engine hmodv rfl

/-- Settles O24: From, To, Mul and the raw REDC are REDC's formula by definition; only MMUL tests its operands. -/
theorem reducingCommandResults : Obligations.ReducingCommandResults := by
  intro s rd ra rb hmodv a b m u redc
  refine ⟨?mfrom, ?mto, ?mmul, ?mredc⟩
  case mmul => exact s.binary_eq s.eng.mul ra rb ▸ writesRegValue_of_engine hmodv rfl
  all_goals exact writesRegValue_of_engine hmodv rfl

end Sys2Proof.Machine
end

section
/-! PROOFS. Exponentiation on residue classes, and the power commands (42_exponentiation R150 to R157):
square-and-multiply represents the seed's class times the power of the base's, and Fermat's little theorem makes Inverse
the field inverse. -/

-- One declaration at a time: as one text the package has too many theorems for a thread each within the memory limit.
set_option Elab.async false

namespace Sys2Proof.Machine

/-! ### The square-and-multiply loop, bit by bit (42_exponentiation R150) -/

@[simp] theorem Engine.mul_zero_right (e : Engine) (a : Nat) : e.mul a 0 = 0 :=
  (e.mul_commutes a 0).trans (e.mul_zero_left a)

@[simp] theorem Engine.powLoop_exponent_zero (e : Engine) (fuel x z : Nat) : e.powLoop fuel x 0 z = z := by
  cases fuel <;> rfl

/-- A low bit 0 squares the base. -/
theorem Engine.powLoop_double (e : Engine) (fuel x k z : Nat) :
    e.powLoop (fuel + 1) x (2 * k) z = e.powLoop fuel (e.mul x x) k z := by
  cases k with
  | zero => rw [mul_zero, e.powLoop_exponent_zero, e.powLoop_exponent_zero]
  | succ k => rw [Engine.powLoop, if_neg (by omega), if_neg (by omega), Nat.mul_div_cancel_left _ two_pos]

/-- A low bit 1 squares the base and multiplies the accumulator by the old one. -/
theorem Engine.powLoop_double_add_one (e : Engine) (fuel x k z : Nat) :
    e.powLoop (fuel + 1) x (2 * k + 1) z = e.powLoop fuel (e.mul x x) k (e.mul z x) := by
  rw [Engine.powLoop, if_neg (by omega), if_pos (by omega), show (2 * k + 1) / 2 = k by omega]

/-- The base 0 keeps the accumulator 0. -/
theorem Engine.powLoop_zero_zero (e : Engine) (fuel : Nat) : ∀ y, e.powLoop fuel 0 y 0 = 0 := by
  induction fuel with
  | zero => exact fun _ => rfl
  | succ fuel ih =>
    intro y
    obtain ⟨k, rfl | rfl⟩ := y.even_or_odd'
    · rw [e.powLoop_double, e.mul_zero_left, ih]
    · rw [e.powLoop_double_add_one, e.mul_zero_left, ih]

theorem Engine.powMul_exponent_zero (e : Engine) (x z : Nat) : e.powMul x 0 z = z := e.powLoop_exponent_zero 64 x z

/-- Any odd power of 0 is the raw word 0, whatever the seed: the first iteration multiplies it by 0. -/
theorem Engine.powMul_zero_odd (e : Engine) (k z : Nat) : e.powMul 0 (2 * k + 1) z = 0 := by
  rw [Engine.powMul, e.powLoop_double_add_one, e.mul_zero_left, e.mul_zero_right, e.powLoop_zero_zero]

theorem Engine.fermatExponent_lt (e : Engine) : e.fermatExponent < 2 ^ 64 := Nat.mod_lt _ (by decide)

/-- Inverse divides ONE (42_exponentiation R152, R153). -/
theorem Engine.inverse_eq_divide (e : Engine) (x : Nat) : e.inverse x = e.divide e.one.toNat x := rfl

namespace Engine.Lawful

variable {e : Engine} (h : e.Lawful)
include h

/-! ### The class of a power (42_exponentiation R150, R151) -/

theorem toOrdinary_lt {x : Nat} (hx : x < 2 * e.m.toNat) : e.toOrdinary x < e.m.toNat :=
  (h.represents_toOrdinary_residue hx).1

/-- The loop's invariant: seed class times base class to the exponent still to be consumed. -/
theorem represents_powLoop (fuel : Nat) : ∀ {x y z cx cz : Nat}, y < 2 ^ fuel → e.Represents x cx →
    e.Represents z cz → e.Represents (e.powLoop fuel x y z) (cz * cx ^ y % e.m.toNat) := by
  induction fuel with
  | zero =>
    intro x y z cx cz hy _ hz
    rw [Nat.lt_one_iff.1 hy, e.powLoop_exponent_zero, pow_zero, mul_one, Nat.mod_eq_of_lt hz.1]
    exact hz
  | succ fuel ih =>
    intro x y z cx cz hy hx hz
    obtain ⟨k, rfl | rfl⟩ := y.even_or_odd'
    · have hpow : cz * (cx * cx % e.m.toNat) ^ k ≡ cz * cx ^ (2 * k) [MOD e.m.toNat] := by
        rw [pow_mul, sq]
        exact ((Nat.mod_modEq _ _).pow k).mul_left cz
      rw [e.powLoop_double, ← hpow]
      exact ih (by omega) (h.represents_mul hx hx) hz
    · have hpow : cz * cx % e.m.toNat * (cx * cx % e.m.toNat) ^ k ≡ cz * cx ^ (2 * k + 1) [MOD e.m.toNat] := by
        rw [pow_succ', pow_mul, sq, ← mul_assoc]
        exact (Nat.mod_modEq _ _).mul ((Nat.mod_modEq _ _).pow k)
      rw [e.powLoop_double_add_one, ← hpow]
      exact ih (by omega) (h.represents_mul hx hx) (h.represents_mul hz hx)

theorem powMul_lt {x z : Nat} (hx : x < 2 * e.m.toNat) (y : Nat) (hz : z < 2 * e.m.toNat) :
    e.powMul x y z < 2 * e.m.toNat := h.powLoop_lt 64 hx hz

theorem toOrdinary_powMul {x y z : Nat} (hx : x < 2 * e.m.toNat) (hy : y < 2 ^ 64) (hz : z < 2 * e.m.toNat) :
    e.toOrdinary (e.powMul x y z) = e.toOrdinary z * e.toOrdinary x ^ y % e.m.toNat :=
  h.toOrdinary_eq_of_represents_residue (h.powMul_lt hx y hz)
    (h.represents_powLoop 64 hy (h.represents_toOrdinary_residue hx) (h.represents_toOrdinary_residue hz))

/-- ONE is From(1) as a raw word (41_montgomery R120, R124). -/
theorem one_eq_fromOrdinary : e.one.toNat = e.fromOrdinary 1 := by
  rw [h.fromOrdinary_one]
  obtain ⟨m, hm, rfl⟩ := h
  rw [construct_one_toNat hm, construct_m_toNat hm]

theorem toOrdinary_one : e.toOrdinary e.one.toNat = 1 % e.m.toNat :=
  h.one_eq_fromOrdinary ▸ h.toOrdinary_fromOrdinary (by decide)

theorem toOrdinary_power {x y : Nat} (hx : x < 2 * e.m.toNat) (hy : y < 2 ^ 64) :
    e.toOrdinary (e.power x y) = e.toOrdinary x ^ y % e.m.toNat := by
  rw [Engine.power, h.toOrdinary_powMul hx hy h.one_lt, h.toOrdinary_one, Nat.mod_mul_mod, one_mul]

/-! ### Inverse and Divide (42_exponentiation R152, R153) -/

/-- The exponent m - 2 is odd because m is; for m = 1 it wraps to 2^64 - 1 (42_exponentiation R152). -/
theorem fermatExponent_odd : ∃ k, e.fermatExponent = 2 * k + 1 := by
  obtain ⟨m, hm, rfl⟩ := h
  obtain ⟨hodd, -⟩ := modOk_iff.1 hm
  refine ⟨(construct m).fermatExponent / 2, ?_⟩
  rw [Engine.fermatExponent, construct_m_toNat hm, radix]
  omega

/-- Inverse(0) = 0 as a raw word, for the modulus 1 too (42_exponentiation R152). -/
theorem inverse_zero : e.inverse 0 = 0 := by
  obtain ⟨k, hk⟩ := h.fermatExponent_odd
  rw [Engine.inverse, hk, e.powMul_zero_odd]

theorem divide_lt {x y : Nat} (hx : x < 2 * e.m.toNat) (hy : y < 2 * e.m.toNat) : e.divide x y < 2 * e.m.toNat :=
  h.powMul_lt hy _ hx

theorem toOrdinary_divide {x y : Nat} (hx : x < 2 * e.m.toNat) (hy : y < 2 * e.m.toNat) :
    e.toOrdinary (e.divide x y) = e.toOrdinary x * e.toOrdinary y ^ e.fermatExponent % e.m.toNat :=
  h.toOrdinary_powMul hy e.fermatExponent_lt hx

theorem toOrdinary_inverse {x : Nat} (hx : x < 2 * e.m.toNat) :
    e.toOrdinary (e.inverse x) = e.toOrdinary x ^ e.fermatExponent % e.m.toNat :=
  h.toOrdinary_power hx e.fermatExponent_lt

section
variable (hp : e.m.toNat.Prime)
include hp

theorem fermatExponent_add_one : e.fermatExponent + 1 = Nat.totient e.m.toNat := by
  have h62 := h.m_lt
  have h2 := hp.two_le
  rw [Nat.totient_prime hp, Engine.fermatExponent, radix]
  omega

/-- Fermat's little theorem with the exponent of Inverse (42_exponentiation R152). -/
theorem pow_fermatExponent_mul_self {c : Nat} (hc : c < e.m.toNat) (h0 : c ≠ 0) :
    c ^ e.fermatExponent * c ≡ 1 [MOD e.m.toNat] := by
  rw [← pow_succ, h.fermatExponent_add_one hp]
  exact .pow_totient (Nat.coprime_of_lt_prime h0 hc hp).symm

/-- Multiplying the quotient by the divisor gives the dividend back, in a field (42_exponentiation R153). -/
theorem toOrdinary_divide_mul {x y : Nat} (hx : x < 2 * e.m.toNat) (hy : y < 2 * e.m.toNat)
    (h0 : e.toOrdinary y ≠ 0) : e.toOrdinary (e.mul (e.divide x y) y) = e.toOrdinary x := by
  have hfermat := (h.pow_fermatExponent_mul_self hp (h.toOrdinary_lt hy) h0).mul_left (e.toOrdinary x)
  rw [h.toOrdinary_mul (h.divide_lt hx hy) hy, h.toOrdinary_divide hx hy, Nat.mod_mul_mod, mul_assoc, hfermat, mul_one,
    Nat.mod_eq_of_lt (h.toOrdinary_lt hx)]

theorem toOrdinary_mul_inverse {y : Nat} (hy : y < 2 * e.m.toNat) (h0 : e.toOrdinary y ≠ 0) :
    e.toOrdinary (e.mul y (e.inverse y)) = 1 := by
  rw [e.mul_commutes, e.inverse_eq_divide, h.toOrdinary_divide_mul hp h.one_lt hy h0, h.toOrdinary_one,
    Nat.mod_eq_of_lt hp.one_lt]

end

end Engine.Lawful

/-! ### The statements on the engine functions -/

/-- Settles O21: the class of the loop (`represents_powLoop`), and of ONE as a seed (`toOrdinary_power`). -/
theorem powMulRepresentsPower : Obligations.PowMulRepresentsPower := by
  intro m x y z hm hx hz hy e
  obtain ⟨hlawful, hmod⟩ : e.Lawful ∧ e.m.toNat = m := lawful_construct hm
  rw [← hmod] at hx hz
  have hzero : e.power x 0 = 2 ^ 64 % m := (e.powMul_exponent_zero x _).trans (construct_one_toNat hm)
  have hone : e.toOrdinary (e.power x 1) = e.toOrdinary x := by
    rw [hlawful.toOrdinary_power hx (by decide), pow_one, Nat.mod_eq_of_lt (hlawful.toOrdinary_lt hx)]
  rw [← hmod] at hzero ⊢
  exact ⟨hlawful.powMul_lt hx y hz, hlawful.toOrdinary_powMul hx hy hz, e.powMul_exponent_zero x z, hzero, hone,
    hlawful.toOrdinary_power hx hy⟩

/-- Settles O22: both are powers (`toOrdinary_inverse`, `toOrdinary_divide`), and for a prime modulus Fermat's little
theorem cancels the divisor (`toOrdinary_divide_mul`). -/
theorem inverseAndDivide : Obligations.InverseAndDivide := by
  intro m x y hm hx hy e exponent
  obtain ⟨hlawful, hmod⟩ : e.Lawful ∧ e.m.toNat = m := lawful_construct hm
  have hexponent : exponent = e.fermatExponent := by rw [Engine.fermatExponent, hmod, radix]
  rw [hexponent]
  rw [← hmod] at hx hy ⊢
  exact ⟨hlawful.inverse_lt hx, hlawful.toOrdinary_inverse hx, hlawful.inverse_zero, hlawful.divide_lt hx hy,
    hlawful.toOrdinary_divide hx hy, fun hp h0 =>
      ⟨hlawful.toOrdinary_mul_inverse hp hy h0, hlawful.toOrdinary_divide_mul hp hx hy h0⟩⟩

/-! ### The power commands (42_exponentiation R154 to R157) -/

/-- Settles O25: each command writes its engine function of residue operands (`State.binary_eq`, `State.unary_eq`). -/
theorem powerCommandResults : Obligations.PowerCommandResults := by
  intro s rd ra rb rc hmodv a b c m2 fermat
  have hmpowm : WritesRegValue (.mpowm rd ra rb rc) s rd
      (if a < m2 ∧ c < m2 then some (s.eng.powMul a b c) else none) :=
    s.binary_eq (fun base seed => s.eng.powMul base b seed) ra rc ▸ writesRegValue_of_engine hmodv rfl
  refine ⟨hmpowm, fun hb ha hc => ?seed, ?mpow, ?minv, ?mdiv⟩
  case seed =>
    rwa [if_pos ⟨ha, hc⟩, hb, s.eng.powMul_exponent_zero, WritesRegValue, BitVec.ofNat_toNat,
      BitVec.setWidth_eq] at hmpowm
  case mpow => exact s.unary_eq (fun base => s.eng.power base b) ra ▸ writesRegValue_of_engine hmodv rfl
  case minv => exact s.unary_eq s.eng.inverse ra ▸ writesRegValue_of_engine hmodv rfl
  case mdiv => exact s.binary_eq s.eng.divide ra rb ▸ writesRegValue_of_engine hmodv rfl

end Sys2Proof.Machine
end

section
/-! PROOFS. MEQ and MCMP (43_residue_compare R170 to R172): To normalises every word to the class it represents, so the
comparisons of normalised values are comparisons of classes. -/

-- One declaration at a time: as one text the package has too many theorems for a thread each within the memory limit.
set_option Elab.async false

namespace Sys2Proof.Machine

/-- A command whose one check is NOMOD and which then writes x[rd]. -/
theorem writesReg_of_engine {i : Instr} {s : State} {rd : Reg} {v : Word} (hmodv : s.modv = true)
    (h : exec i s = finish s (s.needEngine >>= fun _ => .ok (s.setX rd v))) : WritesReg i s rd v := by
  rw [State.needEngine, hmodv, check_true] at h
  exact writesReg_of_exec h

namespace Engine.Lawful

variable {e : Engine} (h : e.Lawful) {a b ca cb : Nat}
include h

/-- Words represent one class exactly when they are congruent: R is invertible modulo m (00_scope R13). -/
theorem represents_modEq_iff (hca : e.Represents a ca) (hcb : e.Represents b cb) :
    a ≡ b [MOD e.m.toNat] ↔ ca = cb := by
  constructor
  · exact fun hab => h.represents_unique hca ⟨hcb.1, hab.trans hcb.2⟩
  · rintro rfl
    exact hca.2.trans hcb.2.symm

/-! ### The comparisons of normalised values (43_residue_compare R170) -/

section
variable (ha : a < 2 ^ 64) (hb : b < 2 ^ 64)
include ha hb

/-- Equality after To is congruence of the words (43_residue_compare R171). -/
theorem equalityWord_eq : e.equalityWord a b = if a % e.m.toNat = b % e.m.toNat then 1 else 0 :=
  ite_congr (propext (h.represents_modEq_iff (h.represents_toOrdinary ha) (h.represents_toOrdinary hb)).symm)
    (fun _ => rfl) fun _ => rfl

/-- The order after To is the order of the classes as integers in [0, m) (43_residue_compare R172). -/
theorem orderWord_eq (hca : e.Represents a ca) (hcb : e.Represents b cb) :
    e.orderWord a b = if ca = cb then 0 else if cb < ca then 1 else BitVec.ofNat 64 (2 ^ 64 - 1) := by
  rw [Engine.orderWord, h.toOrdinary_eq_of_represents ha hca, h.toOrdinary_eq_of_represents hb hcb]
  rfl

end

end Engine.Lawful

/-! ### The compare commands (43_residue_compare R171, R172) -/

/-- Settles O26: each command writes its comparison of normalised values (`equalityWord_eq`, `orderWord_eq`); every
register's word is below 2^64, so To normalises it. -/
theorem compareCommandsCompareClasses : Obligations.CompareCommandsCompareClasses := by
  intro s rd ra rb ca cb hmodv hlawful hca hcb
  have ha : (s.x ra).toNat < 2 ^ 64 := (s.x ra).isLt
  have hb : (s.x rb).toNat < 2 ^ 64 := (s.x rb).isLt
  refine ⟨?meq, ?mcmp⟩
  case meq => exact hlawful.equalityWord_eq ha hb ▸ writesReg_of_engine hmodv rfl
  case mcmp => exact hlawful.orderWord_eq ha hb hca hcb ▸ writesReg_of_engine hmodv rfl

end Sys2Proof.Machine
end

section
/-! PROOFS. One Miller-Rabin witness and MRWIT (44_miller_rabin R185, R186, R189): the engine's loop runs through the
classes of the mathematical definition's terms. -/

-- One declaration at a time: as one text the package has too many theorems for a thread each within the memory limit.
set_option Elab.async false

namespace Sys2Proof.Machine

/-! ### The split n - 1 = 2^s·c (44_miller_rabin R186) -/

/-- The halvings find any split into a power of two and an odd number, so that there is only one. -/
theorem oddPart_two_pow_mul {c s : Nat} (hodd : c % 2 = 1) : ∀ {fuel : Nat} (count : Nat), s ≤ fuel →
    oddPart fuel (2 ^ s * c) count = (c, count + s) := by
  induction s with
  | zero =>
    intro fuel count _
    rw [pow_zero, one_mul]
    cases fuel with
    | zero => rfl
    | succ fuel => rw [oddPart, if_neg (by omega), add_zero]
  | succ s ih =>
    intro fuel count hfuel
    obtain ⟨fuel, rfl⟩ := Nat.exists_eq_add_one_of_ne_zero (show fuel ≠ 0 by omega)
    have hhalf : 2 ^ (s + 1) * c = 2 * (2 ^ s * c) := by ring
    rw [hhalf, oddPart, if_pos (by omega), Nat.mul_div_cancel_left _ two_pos, ih _ (by omega)]
    congr 1
    omega

/-! ### The terms on the engine (44_miller_rabin R185, R186) -/

namespace Engine.Lawful

variable {e : Engine} (h : e.Lawful) {b s c : Nat}
include h

/-- The loop that starts at term j looks through the next k terms for m - 1. -/
theorem witnessLoop_iff (k : Nat) : ∀ {x j : Nat}, x < 2 * e.m.toNat →
    e.toOrdinary x = witnessTerm e.m.toNat b c j →
    (e.witnessLoop k x = true ↔ ∃ i < k, witnessTerm e.m.toNat b c (j + i) = e.m.toNat - 1) := by
  induction k with
  | zero => exact fun _ _ => iff_of_false nofun nofun
  | succ k ih =>
    intro x j hx hterm
    have hsquare : e.toOrdinary (e.mul x x) = witnessTerm e.m.toNat b c (j + 1) := by
      rw [h.toOrdinary_mul hx hx, hterm, witnessTerm, sq]
    rw [Engine.witnessLoop, hterm, Nat.exists_lt_succ_left]
    split
    · next hhit => exact iff_of_true rfl (.inl hhit)
    · next hmiss =>
      rw [ih (h.mul_lt hx hx) hsquare]
      simp only [add_zero, hmiss, false_or, add_assoc, add_comm 1]

/-- The base's power is the first term. -/
theorem toOrdinary_power_fromOrdinary (hb : b < 2 ^ 64) (hc : c < 2 ^ 64) :
    e.toOrdinary (e.power (e.fromOrdinary b) c) = witnessTerm e.m.toNat b c 0 := by
  rw [h.toOrdinary_power (h.fromOrdinary_lt hb) hc, h.toOrdinary_fromOrdinary hb, witnessTerm]

/-- The engine's witness by the terms of any split of m - 1. -/
theorem witness_iff_terms (hb : b < 2 ^ 64) (h3 : 3 ≤ e.m.toNat) (hsplit : e.m.toNat - 1 = 2 ^ s * c)
    (hodd : c % 2 = 1) :
    e.witness b = true ↔ witnessTerm e.m.toNat b c 0 = 1 ∨ ∃ j < s, witnessTerm e.m.toNat b c j = e.m.toNat - 1 := by
  have hlt : e.m.toNat - 1 < 2 ^ 64 := by have := h.m_lt; omega
  have hs : s ≤ 64 := ((Nat.pow_lt_pow_iff_right one_lt_two).1
    ((Nat.le_mul_of_pos_right _ (by omega)).trans_lt (hsplit ▸ hlt))).le
  have hc : c < 2 ^ 64 := (Nat.le_mul_of_pos_left c (by positivity)).trans_lt (hsplit ▸ hlt)
  have hterm := h.toOrdinary_power_fromOrdinary hb hc
  have hloop := h.witnessLoop_iff s (h.power_lt (h.fromOrdinary_lt hb) c) hterm
  simp only [zero_add] at hloop
  rw [Engine.witness, hsplit, oddPart_two_pow_mul hodd 0 hs, zero_add, hterm, ← hsplit]
  split
  · next hone => exact iff_of_true rfl (.inl hone)
  · next hone => rw [hloop, or_iff_right hone]

/-- The engine's witness is the mathematical one for its modulus (44_miller_rabin R185, R186). -/
theorem witness_iff_witnessPass (hb : b < 2 ^ 64) (h3 : 3 ≤ e.m.toNat) :
    e.witness b = true ↔ WitnessPass e.m.toNat b := by
  constructor
  · intro hpass
    obtain ⟨s, c, hodd, hsplit⟩ := Nat.exists_eq_two_pow_mul_odd (n := e.m.toNat - 1) (by omega)
    exact ⟨s, c, hsplit, Nat.odd_iff.1 hodd, (h.witness_iff_terms hb h3 hsplit (Nat.odd_iff.1 hodd)).1 hpass⟩
  · rintro ⟨s, c, hsplit, hodd, hterms⟩
    exact (h.witness_iff_terms hb h3 hsplit hodd).2 hterms

/-- MRWIT's verdict, with the moduli below 3 that fail (44_miller_rabin R189). -/
theorem mrwitVerdict_iff (hb : b < 2 ^ 64) :
    e.mrwitVerdict b = true ↔ 3 ≤ e.m.toNat ∧ WitnessPass e.m.toNat b := by
  rw [Engine.mrwitVerdict]
  split
  · next hlt => exact iff_of_false nofun fun ⟨h3, _⟩ => absurd h3 (by omega)
  · next hge => rw [h.witness_iff_witnessPass hb (by omega), and_iff_right (Nat.not_lt.1 hge)]

end Engine.Lawful

/-- Settles O27: the private engine of n is lawful with modulus n. -/
theorem witnessMatchesDefinition : Obligations.WitnessMatchesDefinition := by
  intro n b hodd h3 h62 hb
  obtain ⟨hlawful, hmod⟩ := lawful_construct (modOk_iff.2 ⟨hodd, h62⟩)
  have hwitness := hlawful.witness_iff_witnessPass hb (h3.trans_eq hmod.symm)
  rwa [hmod] at hwitness

/-! ### MRWIT (44_miller_rabin R189) -/

/-- With an engine MRWIT retires its two writes. -/
theorem exec_mrwit {s : State} {rd ra : Reg} {pass : Bool} (hmodv : s.modv = true)
    (hpass : s.eng.mrwitVerdict (s.x ra).toNat = pass) :
    exec (.mrwit rd ra) s = .next ((s.setX rd (verdictWord pass)).accumulateWitness pass).retire := by
  subst hpass
  change finish s (check .nomod s.modv >>= fun _ => .ok _) = _
  rw [hmodv]
  rfl

/-- Settles O30: the verdict MRWIT computes is the given one (`mrwitVerdict_iff`). -/
theorem mrwitAccumulatesVerdicts : Obligations.MrwitAccumulatesVerdicts := by
  intro s rd ra pass hmodv hlawful hpass
  have hverdict : s.eng.mrwitVerdict (s.x ra).toNat = pass :=
    Bool.eq_iff_iff.2 ((hlawful.mrwitVerdict_iff (s.x ra).isLt).trans hpass.symm)
  exact ⟨_, exec_mrwit hmodv hverdict, x_setX_same s rd (verdictWord pass), rfl,
    fun _ hr => x_setX_other s (verdictWord pass) hr, rfl⟩

end Sys2Proof.Machine
end

section
/-! PROOFS. ISPRIME (44_miller_rabin R184 to R188): the verdict of each of the five steps, and with a certifying ROM the
verdict is primality. -/

-- One declaration at a time: as one text the package has too many theorems for a thread each within the memory limit.
set_option Elab.async false

namespace Sys2Proof.Machine

/-! ### Candidates and 2·3·5·7 -/

theorem coprime_prime_iff_mod {n p : Nat} (hp : p.Prime) : Nat.Coprime n p ↔ n % p ≠ 0 := by
  rw [Nat.coprime_comm, hp.coprime_iff_not_dvd, Nat.dvd_iff_mod_eq_zero]

/-- What step 2 tests (44_miller_rabin R188). -/
theorem coprime_210_iff {n : Nat} :
    Nat.Coprime n 210 ↔ n % 2 ≠ 0 ∧ n % 3 ≠ 0 ∧ n % 5 ≠ 0 ∧ n % 7 ≠ 0 := by
  rw [← coprime_prime_iff_mod Nat.prime_two, ← coprime_prime_iff_mod Nat.prime_three,
    ← coprime_prime_iff_mod Nat.prime_five, ← coprime_prime_iff_mod Nat.prime_seven, ← Nat.coprime_mul_iff_right,
    ← Nat.coprime_mul_iff_right, ← Nat.coprime_mul_iff_right]

/-- A prime that is not one of the four primes of step 1 passes step 2. -/
theorem coprime_210_of_prime {n : Nat} (hp : n.Prime) (h2 : n ≠ 2) (h3 : n ≠ 3) (h5 : n ≠ 5) (h7 : n ≠ 7) :
    Nat.Coprime n 210 := by
  have hmod : ∀ {p}, p.Prime → n ≠ p → n % p ≠ 0 := fun hq hne =>
    (coprime_prime_iff_mod hq).1 ((Nat.coprime_primes hp hq).2 hne)
  exact coprime_210_iff.2 ⟨hmod Nat.prime_two h2, hmod Nat.prime_three h3, hmod Nat.prime_five h5,
    hmod Nat.prime_seven h7⟩

/-! ### The verdict of each step (44_miller_rabin R188) -/

section
variable {rom : WitnessRom} {n : Nat}

/-- Step 1 on 0 and 1. -/
theorem primalityVerdict_of_lt_two (h : n < 2) : primalityVerdict rom n = .ok false := if_pos (by omega)

/-- Step 1 on the four primes. -/
theorem primalityVerdict_small_prime (h : n = 2 ∨ n = 3 ∨ n = 5 ∨ n = 7) : primalityVerdict rom n = .ok true := by
  rw [primalityVerdict, if_neg (by omega), if_pos h]

/-- Step 2. -/
theorem primalityVerdict_not_coprime (h : 2 ≤ n) (h2 : n ≠ 2) (h3 : n ≠ 3) (h5 : n ≠ 5) (h7 : n ≠ 7)
    (hcop : ¬ Nat.Coprime n 210) : primalityVerdict rom n = .ok false := by
  rw [coprime_210_iff] at hcop
  rw [primalityVerdict, if_neg (by omega), if_neg (by omega), if_pos (by omega)]

section
variable (h : 7 < n) (hcop : Nat.Coprime n 210)
include h hcop

/-- Steps 1 and 2 leave the other candidates to the trial list. -/
theorem primalityVerdict_reaches_trial : primalityVerdict rom n =
    if n ∈ romTrial rom n then .ok true
    else if (romTrial rom n).any fun q => n % q == 0 then .ok false
    else witnessVerdict rom n := by
  rw [coprime_210_iff] at hcop
  rw [primalityVerdict, if_neg (by omega), if_neg (by omega), if_neg (by omega)]

/-- Step 3. -/
theorem primalityVerdict_trial_member (hmem : n ∈ romTrial rom n) : primalityVerdict rom n = .ok true := by
  rw [primalityVerdict_reaches_trial h hcop, if_pos hmem]

/-- Step 4. -/
theorem primalityVerdict_trial_factor (hmem : n ∉ romTrial rom n) (hfactor : ∃ q ∈ romTrial rom n, q ∣ n) :
    primalityVerdict rom n = .ok false := by
  have hany : ((romTrial rom n).any fun q => n % q == 0) = true := by
    simpa only [List.any_eq_true, beq_iff_eq, ← Nat.dvd_iff_mod_eq_zero] using hfactor
  rw [primalityVerdict_reaches_trial h hcop, if_neg hmem, if_pos hany]

/-- A candidate that no trial prime divides reaches step 5. -/
theorem primalityVerdict_reaches_witnesses (htrial : ∀ q ∈ romTrial rom n, ¬ q ∣ n) :
    primalityVerdict rom n = witnessVerdict rom n := by
  have hmem : n ∉ romTrial rom n := fun hmem => htrial n hmem dvd_rfl
  have hany : ¬ ((romTrial rom n).any fun q => n % q == 0) = true := by
    simpa only [List.any_eq_true, beq_iff_eq, ← Nat.dvd_iff_mod_eq_zero, not_exists, not_and] using htrial
  rw [primalityVerdict_reaches_trial h hcop, if_neg hmem, if_neg hany]

end

/-- The bases of a ROM of the right shape are words (44_miller_rabin R181). -/
theorem romSet_lt (hshape : rom.shapeOk = true) {b : Nat} (hb : b ∈ romSet rom n) : b < 2 ^ 64 := by
  have hmem : romSet rom n ∈ rom.set.toList := by
    rw [Vector.mem_toList_iff]
    exact Vector.getElem_mem _
  obtain ⟨_, hbases, _⟩ := set_of_shapeOk hshape hmem
  exact (hbases b hb).2

/-- The conjunction of step 5 (44_miller_rabin R187), the witnesses by their definition. -/
theorem witnessVerdict_eq (hshape : rom.shapeOk = true) (hodd : n % 2 = 1) (h3 : 3 ≤ n) (h62 : n < 2 ^ 62) :
    ∃ verdict, witnessVerdict rom n = .ok verdict ∧ (verdict = true ↔ ∀ b ∈ romSet rom n, WitnessPass n b) := by
  refine ⟨_, if_neg (Nat.not_le.2 h62), ?_⟩
  rw [List.all_eq_true]
  exact forall₂_congr fun b hb => witnessMatchesDefinition n b hodd h3 h62 (romSet_lt hshape hb)

/-- Step 5. -/
theorem primalityVerdict_step_5 (hshape : rom.shapeOk = true) (h : 7 < n) (h62 : n < 2 ^ 62)
    (hcop : Nat.Coprime n 210) (htrial : ∀ q ∈ romTrial rom n, ¬ q ∣ n) :
    ∃ verdict, primalityVerdict rom n = .ok verdict ∧ (verdict = true ↔ ∀ b ∈ romSet rom n, WitnessPass n b) := by
  obtain ⟨hodd, _⟩ := coprime_210_iff.1 hcop
  rw [primalityVerdict_reaches_witnesses h hcop htrial]
  exact witnessVerdict_eq hshape (Nat.mod_two_ne_zero.1 hodd) (by omega) h62

/-- A trial prime that divides another candidate shows it composite. -/
theorem not_prime_of_trial_factor (hshape : rom.shapeOk = true) (hmem : n ∉ romTrial rom n)
    (hfactor : ∃ q ∈ romTrial rom n, q ∣ n) : ¬ n.Prime := by
  obtain ⟨q, hq, hdvd⟩ := hfactor
  intro hp
  exact hmem ((Nat.prime_dvd_prime_iff_eq (romTrial_prime hshape hq) hp).1 hdvd ▸ hq)

/-- With a certifying ROM the verdict of steps 3 to 5 is primality (44_miller_rabin R182). -/
theorem primalityVerdict_eq_prime_of_coprime (hrom : RomCertifies rom) (h : 7 < n) (h62 : n < 2 ^ 62)
    (hcop : Nat.Coprime n 210) : primalityVerdict rom n = .ok (decide n.Prime) := by
  have h11 : 11 ≤ n := by
    have := coprime_210_iff.1 hcop
    omega
  obtain ⟨hshape, hcertify⟩ := hrom
  obtain ⟨hmember, hwitnesses⟩ := hcertify n h11 h62 hcop
  by_cases hmem : n ∈ romTrial rom n
  · rw [primalityVerdict_trial_member h hcop hmem, decide_eq_true (hmember hmem)]
  by_cases hfactor : ∃ q ∈ romTrial rom n, q ∣ n
  · rw [primalityVerdict_trial_factor h hcop hmem hfactor,
      decide_eq_false (not_prime_of_trial_factor hshape hmem hfactor)]
  have htrial : ∀ q ∈ romTrial rom n, ¬ q ∣ n := fun q hq hdvd => hfactor ⟨q, hq, hdvd⟩
  obtain ⟨verdict, hverdict, hiff⟩ := primalityVerdict_step_5 hshape h h62 hcop htrial
  rw [hverdict, Bool.eq_iff_iff.2 ((hiff.trans (hwitnesses hmem htrial)).trans decide_eq_true_iff.symm)]

/-- With a certifying ROM the verdict is primality (44_miller_rabin R188 property P1). -/
theorem primalityVerdict_eq_prime (hrom : RomCertifies rom) (h62 : n < 2 ^ 62) :
    primalityVerdict rom n = .ok (decide n.Prime) := by
  by_cases h2 : n < 2
  · rw [primalityVerdict_of_lt_two h2, decide_eq_false fun hp => absurd hp.two_le (by omega)]
  by_cases hsmall : n = 2 ∨ n = 3 ∨ n = 5 ∨ n = 7
  · have hp : n.Prime := by rcases hsmall with rfl | rfl | rfl | rfl <;> norm_num
    rw [primalityVerdict_small_prime hsmall, decide_eq_true hp]
  obtain ⟨hne2, hne3, hne5, hne7⟩ : n ≠ 2 ∧ n ≠ 3 ∧ n ≠ 5 ∧ n ≠ 7 := by simpa only [not_or] using hsmall
  by_cases hcop : Nat.Coprime n 210
  · have h7 : 7 < n := by
      have := coprime_210_iff.1 hcop
      omega
    exact primalityVerdict_eq_prime_of_coprime hrom h7 h62 hcop
  · rw [primalityVerdict_not_coprime (by omega) hne2 hne3 hne5 hne7 hcop,
      decide_eq_false fun hp => hcop (coprime_210_of_prime hp hne2 hne3 hne5 hne7)]

end

/-! ### The statements on ISPRIME -/

/-- ISPRIME writes its verdict as a word, 1 or 0 (44_miller_rabin R188). -/
theorem writesReg_isprime {s : State} {ra : Reg} {verdict : Bool} (rd : Reg)
    (h : primalityVerdict s.cfg.rom (s.x ra).toNat = .ok verdict) :
    WritesReg (.isprime rd ra) s rd (verdictWord verdict) :=
  writesReg_of_exec (by rw [exec, execIsprime, State.ordinary, h]; rfl)

/-- Settles O28: the verdict of each step; a candidate that step 5 refuses is the BADMOD row of R270. -/
theorem isprimeFollowsTheFiveSteps : Obligations.IsprimeFollowsTheFiveSteps := by
  intro s rd ra hok n trial
  obtain ⟨_, hshape⟩ : _ ∧ s.cfg.rom.shapeOk = true := Bool.and_eq_true_iff.1 hok
  refine ⟨fun h => writesReg_isprime rd (primalityVerdict_of_lt_two h),
    fun h => writesReg_isprime rd (primalityVerdict_small_prime h),
    fun h h2 h3 h5 h7 hcop => writesReg_isprime rd (primalityVerdict_not_coprime h h2 h3 h5 h7 hcop),
    fun h hcop hmem => writesReg_isprime rd (primalityVerdict_trial_member h hcop hmem),
    fun h hcop hmem hfactor => writesReg_isprime rd (primalityVerdict_trial_factor h hcop hmem hfactor),
    fun h h62 hcop htrial hpass => ?pass, fun h h62 hcop htrial hfail => ?fail, fun h62 hcop htrial => ?badmod⟩
  case pass =>
    obtain ⟨verdict, hverdict, hiff⟩ := primalityVerdict_step_5 hshape h h62 hcop htrial
    obtain rfl : verdict = true := hiff.2 hpass
    exact writesReg_isprime rd hverdict
  case fail =>
    obtain ⟨verdict, hverdict, hiff⟩ := primalityVerdict_step_5 hshape h h62 hcop htrial
    obtain ⟨b, hb, hnot⟩ := hfail
    obtain rfl : verdict = false := Bool.eq_false_iff.2 fun hpass => hnot (hiff.1 hpass b hb)
    exact writesReg_isprime rd hverdict
  case badmod =>
    obtain ⟨c, hcode, hexec⟩ := exec_of_reports (.badmod ⟨h62, hcop, htrial⟩ : Reports (.isprime rd ra) s 6)
    exact ⟨_, hexec, hcode ▸ faulted_takeFault s c⟩

/-- Settles O29: the verdict is primality (`primalityVerdict_eq_prime`). -/
theorem isprimeDecidesPrimality : Obligations.IsprimeDecidesPrimality := by
  intro s rd ra hrom h62
  have hwrites := writesReg_isprime rd (primalityVerdict_eq_prime hrom h62)
  refine ⟨fun hp => ?prime, fun hp => ?composite⟩
  case prime => rwa [decide_eq_true hp] at hwrites
  case composite => rwa [decide_eq_false hp] at hwrites

end Sys2Proof.Machine
end

section
/-! PROOFS. SETROOT and PRECOMP (45_ntt R212 to R215), and what FNTT and INTT do with tables and buffers whatever the
engine (45_ntt R217, R219, R222). -/

-- One declaration at a time: as one text the package has too many theorems for a thread each within the memory limit.
set_option Elab.async false

namespace Sys2Proof.Machine

/-! ### Precompute (45_ntt R212) -/

/-- A growth does not write beyond twice the valid half. -/
theorem growTables_beyond (s : State) {k : Nat} (hk : s.twcov.toNat ≤ k) :
    peek s.growTables.twf k = peek s.twf k ∧ peek s.growTables.twi k = peek s.twi k :=
  ⟨growTable_beyond _ _ _ _ _ (by omega), growTable_beyond _ _ _ _ _ (by omega)⟩

/-- Precompute writes nothing beyond the coverage it ends with. -/
theorem precomputeLoop_beyond {n : Nat} (hn : n ≤ 2 ^ 63) (fuel : Nat) : ∀ {s : State} {k : Nat},
    (State.precomputeLoop fuel n s).twcov.toNat / 2 ≤ k →
      peek (State.precomputeLoop fuel n s).twf k = peek s.twf k ∧
        peek (State.precomputeLoop fuel n s).twi k = peek s.twi k := by
  induction fuel with
  | zero => exact fun _ => ⟨rfl, rfl⟩
  | succ fuel ih =>
    intro s k hk
    rw [State.precomputeLoop] at hk ⊢
    split at hk
    · next hcov =>
      have hdouble : s.growTables.twcov.toNat = 2 * s.twcov.toNat := by
        rw [State.growTables_twcov, BitVec.toNat_ofNat]
        omega
      have hgrows := (precomputeLoop_extended hn fuel s.growTables).1
      obtain ⟨hf, hi⟩ := ih hk
      obtain ⟨hf', hi'⟩ := growTables_beyond s (k := k) (by omega)
      rw [if_pos hcov]
      exact ⟨hf.trans hf', hi.trans hi'⟩
    · next hcov =>
      rw [if_neg hcov]
      exact ⟨rfl, rfl⟩

/-- From coverage 2^c, enough doublings reach 2^l and stop there. -/
theorem precomputeLoop_twcov {l : Nat} (hl : l ≤ 63) (fuel : Nat) : ∀ {s : State} {c : Nat},
    s.twcov.toNat = 2 ^ c → l ≤ c + fuel →
      (State.precomputeLoop fuel (2 ^ l) s).twcov.toNat = max (2 ^ c) (2 ^ l) := by
  induction fuel with
  | zero =>
    intro s c hc hfuel
    rw [State.precomputeLoop, hc, max_eq_left (Nat.pow_le_pow_right (by decide) (by omega))]
  | succ fuel ih =>
    intro s c hc hfuel
    rw [State.precomputeLoop, hc]
    split
    · next hcov =>
      have hcl : c + 1 ≤ l := (Nat.pow_lt_pow_iff_right (by decide)).1 hcov
      have hdouble : s.growTables.twcov.toNat = 2 ^ (c + 1) := by
        rw [State.growTables_twcov, hc, ← Nat.pow_succ', BitVec.toNat_ofNat]
        exact Nat.mod_eq_of_lt (Nat.pow_lt_pow_right (by decide) (by omega))
      rw [ih hdouble (by omega), max_eq_right (Nat.pow_le_pow_right (by decide) hcl), max_eq_right hcov.le]
    · next hcov => rw [hc, max_eq_left (Nat.not_lt.1 hcov)]

/-- Under the invariant Precompute ends with exactly the coverage asked for, or the larger one it found. -/
theorem State.Inv.precompute_twcov {s : State} (h : s.Inv) (hrootv : s.rootv = true) (logn : LogLen) :
    (s.precompute logn).twcov.toNat = max s.twcov.toNat (2 ^ logn.toNat) := by
  obtain ⟨_, c, _, _, hc, _⟩ := h.root_lawful hrootv
  have := logn.isLt
  rw [hc]
  exact precomputeLoop_twcov (by omega) _ hc (by omega)

section
variable (s : State) (logn : LogLen)

@[simp] theorem State.precompute_cfg : (s.precompute logn).cfg = s.cfg := by rw [precompute_tablesOnly s logn]
@[simp] theorem State.precompute_regs : (s.precompute logn).regs = s.regs := by rw [precompute_tablesOnly s logn]
@[simp] theorem State.precompute_eng : (s.precompute logn).eng = s.eng := by rw [precompute_tablesOnly s logn]
@[simp] theorem State.precompute_root : (s.precompute logn).root = s.root := by rw [precompute_tablesOnly s logn]
@[simp] theorem State.precompute_rootv : (s.precompute logn).rootv = s.rootv := by rw [precompute_tablesOnly s logn]
@[simp] theorem State.precompute_pmem : (s.precompute logn).pmem = s.pmem := by rw [precompute_tablesOnly s logn]

end

/-! ### How the commands of this unit end -/

theorem exec_setroot {s : State} (ra : Reg) (hmodv : s.modv = true) :
    exec (.setroot ra) s = .next (s.loadRoot (s.x ra)).retire := by
  change finish s (check .nomod s.modv >>= fun _ => .ok (s.loadRoot (s.x ra))) = _
  rw [hmodv]
  rfl

theorem needRange_ok {s : State} {base len : Nat} (h : InsidePmem s base len) : s.needRange base len = .ok () :=
  needRange_eq_ok.2 h

section
variable {s : State} {logn : LogLen} (hmodv : s.modv = true) (hrootv : s.rootv = true)
  (hfits : logn.toNat ≤ s.cfg.plog)
include hmodv hrootv hfits

theorem needTransform_ok : s.needTransform logn = .ok () := needTransform_eq_ok.2 ⟨hmodv, hrootv, hfits⟩

theorem exec_precomp : exec (.precomp logn) s = .next (s.precompute logn).retire := by
  change finish s (s.needTransform logn >>= fun _ => .ok (s.precompute logn)) = _
  rw [needTransform_ok hmodv hrootv hfits]
  rfl

variable {ra : Reg} (hrange : InsidePmem s (s.x ra).toNat (2 ^ logn.toNat))
include hrange

theorem exec_fntt :
    exec (.fntt ra logn) s = .next ((s.precompute logn).forwardTransform (s.x ra).toNat logn).retire := by
  change finish s (s.needTransform logn >>= fun _ => s.needRange (s.x ra).toNat (2 ^ logn.toNat) >>= fun _ =>
    .ok ((s.precompute logn).forwardTransform (s.x ra).toNat logn)) = _
  rw [needTransform_ok hmodv hrootv hfits, needRange_ok hrange]
  rfl

theorem exec_intt :
    exec (.intt ra logn) s = .next ((s.precompute logn).inverseTransform (s.x ra).toNat logn).retire := by
  change finish s (s.needTransform logn >>= fun _ => s.needRange (s.x ra).toNat (2 ^ logn.toNat) >>= fun _ =>
    .ok ((s.precompute logn).inverseTransform (s.x ra).toNat logn)) = _
  rw [needTransform_ok hmodv hrootv hfits, needRange_ok hrange]
  rfl

theorem exec_pmul {rb : Reg} (hrangeB : InsidePmem s (s.x rb).toNat (2 ^ logn.toNat)) :
    exec (.pmul ra rb logn) s =
      .next ((s.precompute logn).convolve (s.x ra).toNat (s.x rb).toNat logn).retire := by
  change finish s (s.needTransform logn >>= fun _ => s.needRange (s.x ra).toNat (2 ^ logn.toNat) >>= fun _ =>
    s.needRange (s.x rb).toNat (2 ^ logn.toNat) >>= fun _ =>
    .ok ((s.precompute logn).convolve (s.x ra).toNat (s.x rb).toNat logn)) = _
  rw [needTransform_ok hmodv hrootv hfits, needRange_ok hrange, needRange_ok hrangeB]
  rfl

end

/-! ### The table commands (45_ntt R214, R215) -/

/-- Settles O31: entry 0 is all that SETROOT writes of a table (`peek_poke_same`, `peek_poke_other`). -/
theorem setrootStartsNewTables : Obligations.SetrootStartsNewTables := fun s ra hmodv =>
  ⟨_, exec_setroot ra hmodv, rfl, rfl, rfl, rfl, peek_poke_same s.twf 0 s.eng.one, peek_poke_same s.twi 0 s.eng.one,
    fun _ hk => ⟨peek_poke_other _ _ hk, peek_poke_other _ _ hk⟩, rfl⟩

/-- Settles O32: the coverage by the doublings (`precomputeLoop_twcov`), the recurrence by the invariant, the frame of
the tables by what a growth leaves alone (`precompute_extended`, `precomputeLoop_beyond`). -/
theorem precompGrowsTheTables : Obligations.PrecompGrowsTheTables := by
  intro s logn h hrootv hfits
  have hl63 : 2 ^ logn.toNat ≤ 2 ^ 63 := Nat.pow_le_pow_right (by decide) (by have := logn.isLt; omega)
  refine ⟨_, exec_precomp (h.root_needs_engine hrootv) hrootv hfits, h.precompute_twcov hrootv logn,
    (h.precompute hrootv hfits).root_lawful ((s.precompute_rootv logn).trans hrootv), (precompute_extended s logn).2,
    fun k hk => precomputeLoop_beyond hl63 _ hk, ?frame⟩
  case frame =>
    obtain ⟨_, _, _, hupdate⟩ := (precompute_tablesOnly s logn).eq_update
    rw [hupdate]
    rfl

/-! ### The transform commands, whatever the engine (45_ntt R217, R219, R222) -/

/-- A buffer of valid residue words in the statements' terms. -/
theorem bufferValid_iff_residueBuffer {s : State} {base n : Nat} :
    s.bufferValid base n = true ↔ ResidueBuffer s base n := by
  rw [bufferValid_iff]
  refine forall₂_congr fun j _ => ⟨?_, ?_⟩
  · rintro ⟨w, hw, hlt⟩
    exact ⟨w.toNat, w, hw, rfl, hlt⟩
  · rintro ⟨_, w, hw, rfl, hlt⟩
    exact ⟨w, hw, hlt⟩

theorem forwardTransform_of_residueBuffer {s : State} {base : Nat} {logn : LogLen}
    (h : ResidueBuffer s base (2 ^ logn.toNat)) : s.forwardTransform base logn = s.fnttAt base logn.toNat :=
  if_pos (bufferValid_iff_residueBuffer.2 h)

theorem inverseTransform_of_residueBuffer {s : State} {base : Nat} {logn : LogLen}
    (h : ResidueBuffer s base (2 ^ logn.toNat)) : s.inverseTransform base logn = s.inttAt base logn.toNat :=
  if_pos (bufferValid_iff_residueBuffer.2 h)

theorem precompute_residueBuffer_iff {s : State} {logn : LogLen} {base n : Nat} :
    ResidueBuffer (s.precompute logn) base n ↔ ResidueBuffer s base n := by
  rw [precompute_tablesOnly s logn]
  rfl

/-- Every word of a range that is stored is there. -/
theorem peek_storeNats_exists (mem : WordMem) (a : Nat) {vs : List Nat} {n j : Nat} (hlen : vs.length = n)
    (hj : j < n) : ∃ w, peek (storeNats mem a vs) (a + j) = some w :=
  ⟨_, peek_storeNats_inside mem a j vs (hlen ▸ hj)⟩

theorem peek_freeRange_exists (s : State) (a : Nat) {n j : Nat} (hj : j < n) :
    ∃ w, peek (s.freeRange a n).pmem (a + j) = some w :=
  ⟨_, peek_storeRange_inside _ a j _ ((length_freeWords _ n).symm ▸ hj)⟩

theorem forwardTransform_exists (s : State) (base : Nat) (logn : LogLen) {j : Nat} (hj : j < 2 ^ logn.toNat) :
    ∃ w, peek (s.forwardTransform base logn).pmem (base + j) = some w := by
  unfold State.forwardTransform
  split
  · exact peek_storeNats_exists _ _ (by simp) hj
  · exact peek_freeRange_exists s base hj

theorem inverseTransform_exists (s : State) (base : Nat) (logn : LogLen) {j : Nat} (hj : j < 2 ^ logn.toNat) :
    ∃ w, peek (s.inverseTransform base logn).pmem (base + j) = some w := by
  unfold State.inverseTransform
  split
  · exact peek_storeNats_exists _ _ (by simp) hj
  · exact peek_freeRange_exists s base hj

/-- Reading back a range that is stored gives its numbers, as words (00_scope R10). -/
theorem loadRange_storeNats (mem : WordMem) (a : Nat) {vs : List Nat} {n : Nat} (hlen : vs.length = n) :
    loadRange (storeNats mem a vs) a n = vs.map (fun v => v % 2 ^ 64) := by
  refine List.ext_getElem (by simp [hlen]) fun j hj _ => ?_
  rw [length_loadRange] at hj
  rw [getElem_loadRange, List.getElem_map, wordAt_of_peek (peek_storeNats_inside mem a j vs (hlen ▸ hj)),
    BitVec.toNat_ofNat]

/-- A transform that retires has changed PMEM and the tables only. -/
theorem PmemWritten.onlyPmemAndTables {ranges : List (Nat × Nat)} {s t : State} {logn : LogLen}
    (h : PmemWritten ranges (s.precompute logn) t) : OnlyPmemAndTables s t.retire := by
  obtain ⟨_, _, rfl⟩ := h.eq_update_of_precompute
  rfl

/-- A transform leaves the tables as Precompute leaves them. -/
theorem PmemOnly.tables {s t : State} (h : PmemOnly s t) : t.twf = s.twf ∧ t.twi = s.twi ∧ t.twcov = s.twcov := by
  obtain ⟨_, _, rfl⟩ := h.eq_update
  exact ⟨rfl, rfl, rfl⟩

/-- Settles O33: either transform is a store of its network's words when the buffer is valid and a draw of free words
otherwise, on the state that Precompute leaves. -/
theorem transformCommandResults : Obligations.TransformCommandResults := by
  intro s ra logn hmodv hrootv hfits hrange base n
  have hpmem := s.precompute_pmem logn
  have hfwd := PmemWritten.forwardTransform (s.precompute logn) base logn
  have hinv := PmemWritten.inverseTransform (s.precompute logn) base logn
  obtain ⟨htf, hti, htc⟩ := hfwd.only.tables
  obtain ⟨huf, hui, huc⟩ := hinv.only.tables
  refine ⟨_, _, _, exec_precomp hmodv hrootv hfits, exec_fntt hmodv hrootv hfits hrange,
    exec_intt hmodv hrootv hfits hrange, hfwd.onlyPmemAndTables, hinv.onlyPmemAndTables,
    fun a ha => ?fwdFrame, fun a ha => ?invFrame, htf, hti, htc, huf, hui, huc,
    fun j hj => ⟨forwardTransform_exists _ _ _ hj, inverseTransform_exists _ _ _ hj⟩, fun hres => ?words⟩
  case fwdFrame => exact (forwardTransform_outside _ _ _ _ ha).trans (congrArg (peek · a) hpmem)
  case invFrame => exact (inverseTransform_outside _ _ _ _ ha).trans (congrArg (peek · a) hpmem)
  case words =>
    have hres' := precompute_residueBuffer_iff (logn := logn).2 hres
    rw [State.retire_pmem, State.retire_pmem, State.retire_twf, State.retire_twi,
      forwardTransform_of_residueBuffer hres', inverseTransform_of_residueBuffer hres', State.fnttAt_pmem,
      State.inttAt_pmem, s.precompute_eng, hpmem]
    exact ⟨loadRange_storeNats _ _ (by simp [n]), loadRange_storeNats _ _ (by simp [n])⟩

end Sys2Proof.Machine
end

section
/-! PROOFS. A stage of butterflies and a network of stages as functions of the index, over any carrier; that the loops
of 45_ntt R216 and R218 compute them; and what the two networks do over a commutative ring: each undoes the other up to
the factor n, and the forward one evaluates a polynomial. -/

-- One declaration at a time: as one text the package has too many theorems for a thread each within the memory limit.
set_option Elab.async false

namespace Sys2Proof.Machine

/-! ### Butterflies, stages, networks -/

/-- What a butterfly makes of a root w and a pair u, v. -/
abbrev Butterfly (α : Type) := α → α → α → α × α

/-- The Cooley-Tukey butterfly over a ring (45_ntt R216). -/
def cooleyTukey {R : Type} [CommRing R] : Butterfly R := fun w u v => (u + v * w, u - v * w)

/-- The Gentleman-Sande butterfly over a ring (45_ntt R218). -/
def gentlemanSande {R : Type} [CommRing R] : Butterfly R := fun w u v => (u + v, (u - v) * w)

/-- The Cooley-Tukey butterfly on residue words. -/
def Engine.cooleyTukey (e : Engine) : Butterfly Nat := fun w u v => (e.add u (e.mul v w), e.sub u (e.mul v w))

/-- The Gentleman-Sande butterfly on residue words. -/
def Engine.gentlemanSande (e : Engine) : Butterfly Nat := fun w u v => (e.add u v, e.mul (e.sub u v) w)

/-- One stage of span len: block i, of 2·len elements, combines its two halves with root w i. -/
def stageAt {α : Type} (b : Butterfly α) (w : Nat → α) (len : Nat) (a : Nat → α) (x : Nat) : α :=
  if x % (2 * len) < len then (b (w (x / (2 * len))) (a x) (a (x + len))).1
  else (b (w (x / (2 * len))) (a (x - len)) (a x)).2

/-- The first k stages of a network whose stage number j has span `span j`. -/
def network {α : Type} (b : Butterfly α) (w : Nat → α) (span : Nat → Nat) : Nat → (Nat → α) → Nat → α
  | 0, a => a
  | k + 1, a => stageAt b w (span k) (network b w span k a)

/-- The network of `Fntt` on 2^logn elements: spans n/2, n/4, .., 1 (45_ntt R216). -/
def forwardNetwork {R : Type} [CommRing R] (w : Nat → R) (logn : Nat) : (Nat → R) → Nat → R :=
  network cooleyTukey w (fun k => 2 ^ (logn - 1 - k)) logn

/-- The butterfly stages of `Intt` on 2^logn elements: spans 1, 2, .., n/2 (45_ntt R218). -/
def inverseNetwork {R : Type} [CommRing R] (w : Nat → R) (logn : Nat) : (Nat → R) → Nat → R :=
  network gentlemanSande w (fun k => 2 ^ k) logn

/-! ### The elements of a pair -/

/-- The k-th element of the first half of block i, in its block. -/
theorem divMod_low {i k len : Nat} (hk : k < len) :
    (2 * i * len + k) / (2 * len) = i ∧ (2 * i * len + k) % (2 * len) = k :=
  (Nat.div_mod_unique (by omega)).2 ⟨by ring, by omega⟩

/-- The k-th element of the second half of block i, in its block. -/
theorem divMod_high {i k len : Nat} (hk : k < len) :
    (2 * i * len + k + len) / (2 * len) = i ∧ (2 * i * len + k + len) % (2 * len) = k + len :=
  (Nat.div_mod_unique (by omega)).2 ⟨by ring, by omega⟩

/-- Every index is in one half of its block. -/
theorem exists_pair {len : Nat} (hlen : 0 < len) (x : Nat) :
    ∃ i k, k < len ∧ i = x / (2 * len) ∧ (x = 2 * i * len + k ∨ x = 2 * i * len + k + len) := by
  have hx := Nat.div_add_mod x (2 * len)
  have hlt := Nat.mod_lt x (show 0 < 2 * len by omega)
  have hblock : 2 * (x / (2 * len)) * len = 2 * len * (x / (2 * len)) := by ring
  rcases Nat.lt_or_ge (x % (2 * len)) len with h | h
  · exact ⟨_, x % (2 * len), h, rfl, .inl (by omega)⟩
  · exact ⟨_, x % (2 * len) - len, by omega, rfl, .inr (by omega)⟩

section
variable {α : Type} (b : Butterfly α) (w : Nat → α) (a : Nat → α) {i k len : Nat} (hk : k < len)
include hk

theorem stageAt_low :
    stageAt b w len a (2 * i * len + k) = (b (w i) (a (2 * i * len + k)) (a (2 * i * len + k + len))).1 := by
  obtain ⟨hdiv, hmod⟩ := divMod_low (i := i) hk
  rw [stageAt, hdiv, hmod, if_pos hk]

theorem stageAt_high :
    stageAt b w len a (2 * i * len + k + len) = (b (w i) (a (2 * i * len + k)) (a (2 * i * len + k + len))).2 := by
  obtain ⟨hdiv, hmod⟩ := divMod_high (i := i) hk
  rw [stageAt, hdiv, hmod, if_neg (by omega), Nat.add_sub_cancel]

end

/-! ### The loops of the model -/

/-- A butterfly on the elements j and j + len of a buffer. -/
def applyPair (b : Butterfly Nat) (w len : Nat) (p : List Nat) (j : Nat) : List Nat :=
  (p.set j (b w (p.getD j 0) (p.getD (j + len) 0)).1).set (j + len) (b w (p.getD j 0) (p.getD (j + len) 0)).2

section
variable (e : Engine) (table : WordMem) (logn : Nat) (p : List Nat)

theorem Engine.fntt_eq : e.fntt table logn p = (List.range logn).foldl
    (fun p k => stage (applyPair e.cooleyTukey) table (2 ^ logn) (2 ^ (logn - 1 - k)) p) p := rfl

theorem Engine.inttStages_eq : e.inttStages table logn p = (List.range logn).foldl
    (fun p k => stage (applyPair e.gentlemanSande) table (2 ^ logn) (2 ^ k) p) p := rfl

end

@[simp] theorem length_applyPair (b : Butterfly Nat) (w len : Nat) (p : List Nat) (j : Nat) :
    (applyPair b w len p j).length = p.length := by simp [applyPair]

theorem getD_set (p : List Nat) {j : Nat} (hj : j < p.length) (v x : Nat) :
    (p.set j v).getD x 0 = if x = j then v else p.getD x 0 := by
  rw [List.getD_eq_getElem?_getD, List.getElem?_set, List.getD_eq_getElem?_getD]
  by_cases h : x = j
  · subst h
    simp [hj]
  · simp [h, Ne.symm h]

theorem getD_applyPair (b : Butterfly Nat) (w : Nat) {len : Nat} {p : List Nat} {j : Nat} (hj : j + len < p.length)
    (x : Nat) : (applyPair b w len p j).getD x 0 =
      if x = j + len then (b w (p.getD j 0) (p.getD (j + len) 0)).2
      else if x = j then (b w (p.getD j 0) (p.getD (j + len) 0)).1 else p.getD x 0 := by
  rw [applyPair, getD_set _ (by rwa [List.length_set]), getD_set _ (by omega)]

/-- The block and the place in its half of an index: what its two-element pair is named by. -/
def pairOf (len x : Nat) : Nat × Nat := (x / (2 * len), x % len)

theorem pairOf_eq_iff {len i k x : Nat} (hk : k < len) :
    pairOf len x = (i, k) ↔ x = 2 * i * len + k ∨ x = 2 * i * len + k + len := by
  constructor
  · intro h
    obtain ⟨hdiv, hmod⟩ : x / (2 * len) = i ∧ x % len = k := Prod.mk.inj h
    obtain ⟨i', k', hk', rfl, hx⟩ := exists_pair (show 0 < len by omega) x
    rw [hdiv] at hx
    have hkk : k' = k := by
      rw [← hmod]
      rcases hx with hx | hx <;> rw [hx]
      · rw [Nat.mul_add_mod', Nat.mod_eq_of_lt hk']
      · rw [Nat.add_mod_right, Nat.mul_add_mod', Nat.mod_eq_of_lt hk']
    rwa [hkk] at hx
  · rintro (rfl | rfl)
    · rw [pairOf, (divMod_low hk).1, Nat.mul_add_mod', Nat.mod_eq_of_lt hk]
    · rw [pairOf, (divMod_high hk).1, Nat.add_mod_right, Nat.mul_add_mod', Nat.mod_eq_of_lt hk]

/-- Butterflies on distinct pairs, in any order: each pair holds the stage's values, every other element its old one. -/
theorem getD_foldl_applyPair (b : Butterfly Nat) (w : Nat → Nat) {len : Nat} (p : List Nat) (pairs : List (Nat × Nat))
    (hnodup : pairs.Nodup) (hin : ∀ q ∈ pairs, q.2 < len ∧ 2 * q.1 * len + q.2 + len < p.length) (x : Nat) :
    (pairs.foldl (fun p q => applyPair b (w q.1) len p (2 * q.1 * len + q.2)) p).getD x 0 =
      if pairOf len x ∈ pairs then stageAt b w len (p.getD · 0) x else p.getD x 0 := by
  induction pairs using List.reverseRecOn generalizing x with
  | nil => rfl
  | append_singleton pairs q ih =>
    obtain ⟨i, k⟩ := q
    obtain ⟨hnodup', -, hnew⟩ := List.nodup_append.1 hnodup
    have hfresh : (i, k) ∉ pairs := fun hmem => hnew _ hmem _ (List.mem_singleton_self _) rfl
    obtain ⟨hk, hlen⟩ := hin (i, k) (by simp)
    have before := ih hnodup' fun q hq => hin q (List.mem_append_left _ hq)
    have low := before (2 * i * len + k)
    have high := before (2 * i * len + k + len)
    rw [(pairOf_eq_iff hk).2 (.inl rfl), if_neg hfresh] at low
    rw [(pairOf_eq_iff hk).2 (.inr rfl), if_neg hfresh] at high
    rw [List.foldl_append, List.foldl_cons, List.foldl_nil,
      getD_applyPair _ _ (by rwa [length_foldl fun _ _ => length_applyPair ..]), low, high, before x]
    by_cases hhigh : x = 2 * i * len + k + len
    · rw [if_pos hhigh, hhigh, (pairOf_eq_iff hk).2 (.inr rfl), if_pos (by simp), stageAt_high _ _ _ hk]
    by_cases hlow : x = 2 * i * len + k
    · rw [if_neg hhigh, if_pos hlow, hlow, (pairOf_eq_iff hk).2 (.inl rfl), if_pos (by simp), stageAt_low _ _ _ hk]
    have hne : pairOf len x ≠ (i, k) := fun h => ((pairOf_eq_iff hk).1 h).elim hlow hhigh
    rw [if_neg hhigh, if_neg hlow]
    simp [hne]

/-- The model's double loop over blocks and elements is one stage. -/
theorem getD_stage (b : Butterfly Nat) (table : WordMem) {blocks len n : Nat} {p : List Nat} (hlen : 0 < len)
    (hn : n = blocks * (2 * len)) (hp : p.length = n) {x : Nat} (hx : x < n) :
    (stage (applyPair b) table n len p).getD x 0 = stageAt b (wordAt table) len (p.getD · 0) x := by
  have hblocks : n / (2 * len) = blocks := hn ▸ Nat.mul_div_cancel _ (by omega)
  have hloops : stage (applyPair b) table n len p = ((List.range blocks) ×ˢ (List.range len)).foldl
      (fun p q => applyPair b (wordAt table q.1) len p (2 * q.1 * len + q.2)) p := by
    simp only [stage, hblocks, SProd.sprod, List.product, List.foldl_flatMap, List.foldl_map]
  have hin : ∀ q ∈ (List.range blocks) ×ˢ (List.range len), q.2 < len ∧ 2 * q.1 * len + q.2 + len < p.length := by
    rintro ⟨i, k⟩ hq
    obtain ⟨hi, hk⟩ : i < blocks ∧ k < len := by simpa using List.mem_product.1 hq
    have hle : (i + 1) * (2 * len) ≤ n := hn ▸ Nat.mul_le_mul_right _ hi
    have hblock : (i + 1) * (2 * len) = 2 * i * len + 2 * len := by ring
    exact ⟨hk, show 2 * i * len + k + len < p.length by omega⟩
  have hmem : pairOf len x ∈ (List.range blocks) ×ˢ (List.range len) := by
    refine List.mem_product.2 ⟨List.mem_range.2 ?_, List.mem_range.2 (Nat.mod_lt _ hlen)⟩
    exact Nat.div_lt_of_lt_mul (by rw [Nat.mul_comm]; omega)
  rw [hloops, getD_foldl_applyPair _ _ _ _ (List.nodup_range.product List.nodup_range) hin, if_pos hmem]

/-! ### The networks undo each other (45_ntt R218) -/

section
variable {R : Type} [CommRing R] {w w' : Nat → R} (hw : ∀ i, w i * w' i = 1)
include hw

/-- A Gentleman-Sande stage after the Cooley-Tukey stage of the same span doubles every element. -/
theorem gentlemanSande_cooleyTukey {len : Nat} (hlen : 0 < len) (c : R) (a : Nat → R) :
    stageAt gentlemanSande w' len (c • stageAt cooleyTukey w len a) = (2 * c) • a := by
  funext x
  obtain ⟨i, k, hk, -, rfl | rfl⟩ := exists_pair hlen x
  · simp only [stageAt_low _ _ _ hk, stageAt_high _ _ _ hk, Pi.smul_apply, smul_eq_mul, gentlemanSande, cooleyTukey]
    ring
  · simp only [stageAt_low _ _ _ hk, stageAt_high _ _ _ hk, Pi.smul_apply, smul_eq_mul, gentlemanSande, cooleyTukey]
    linear_combination (2 * c * a (2 * i * len + k + len)) * hw i

/-- A Cooley-Tukey stage after the Gentleman-Sande stage of the same span doubles every element. -/
theorem cooleyTukey_gentlemanSande {len : Nat} (hlen : 0 < len) (c : R) (a : Nat → R) :
    stageAt cooleyTukey w len (c • stageAt gentlemanSande w' len a) = (2 * c) • a := by
  funext x
  obtain ⟨i, k, hk, -, rfl | rfl⟩ := exists_pair hlen x
  · simp only [stageAt_low _ _ _ hk, stageAt_high _ _ _ hk, Pi.smul_apply, smul_eq_mul, gentlemanSande, cooleyTukey]
    linear_combination (c * (a (2 * i * len + k) - a (2 * i * len + k + len))) * hw i
  · simp only [stageAt_low _ _ _ hk, stageAt_high _ _ _ hk, Pi.smul_apply, smul_eq_mul, gentlemanSande, cooleyTukey]
    linear_combination (-c * (a (2 * i * len + k) - a (2 * i * len + k + len))) * hw i

end

/-- A network whose stages undo another's, last one first, each up to the factor 2. -/
theorem network_cancel {R : Type} [CommRing R] {b b' : Butterfly R} {w w' : Nat → R} {span span' : Nat → Nat}
    {logn : Nat} (hstage : ∀ len, 0 < len → ∀ (c : R) a, stageAt b w len (c • stageAt b' w' len a) = (2 * c) • a)
    (hpos : ∀ k, 0 < span k) (hspan : ∀ k < logn, span' (logn - 1 - k) = span k) (c : R) (a : Nat → R) :
    ∀ k ≤ logn, network b w span k (c • network b' w' span' logn a) =
      (2 ^ k * c) • network b' w' span' (logn - k) a := by
  intro k
  induction k with
  | zero => exact fun _ => by rw [pow_zero, one_mul]; rfl
  | succ k ih =>
    intro hk
    have hlast : logn - k = (logn - 1 - k) + 1 := by omega
    rw [network, ih (by omega), hlast, network, hspan k hk, hstage _ (hpos k), pow_succ', mul_assoc, Nat.sub_sub,
      Nat.add_comm 1]

section
variable {R : Type} [CommRing R] {w w' : Nat → R} (hw : ∀ i, w i * w' i = 1) (logn : Nat) (c : R) (a : Nat → R)
include hw

theorem inverseNetwork_forwardNetwork :
    inverseNetwork w' logn (c • forwardNetwork w logn a) = (2 ^ logn * c) • a := by
  have h := network_cancel (span' := fun k => 2 ^ (logn - 1 - k)) (span := fun k => 2 ^ k)
    (fun _ => gentlemanSande_cooleyTukey hw) (fun _ => by positivity)
    (fun k hk => by simp only [show logn - 1 - (logn - 1 - k) = k by omega]) c a logn le_rfl
  rwa [Nat.sub_self] at h

theorem forwardNetwork_inverseNetwork :
    forwardNetwork w logn (c • inverseNetwork w' logn a) = (2 ^ logn * c) • a := by
  have h := network_cancel (span' := fun k => 2 ^ k) (span := fun k => 2 ^ (logn - 1 - k))
    (fun _ => cooleyTukey_gentlemanSande hw) (fun _ => by positivity) (fun _ _ => rfl) c a logn le_rfl
  rwa [Nat.sub_self] at h

end

/-! ### The forward network evaluates a polynomial (45_ntt R216) -/

theorem bitReverse_zero : ∀ bits, bitReverse bits 0 = 0
  | 0 => rfl
  | bits + 1 => by rw [bitReverse, Nat.zero_div, bitReverse_zero bits, Nat.zero_mod, Nat.mul_zero]

/-- A bit above the ones that an index has reverses to a bit below. -/
theorem bitReverse_add_two_pow {bits : Nat} : ∀ {j k : Nat}, j < bits → k < 2 ^ j →
    bitReverse bits (2 ^ j + k) = bitReverse bits k + 2 ^ (bits - 1 - j) := by
  induction bits with
  | zero => exact fun hj => absurd hj (Nat.not_lt_zero _)
  | succ bits ih =>
    intro j k hj hk
    cases j with
    | zero =>
      obtain rfl : k = 0 := by omega
      simp [bitReverse, bitReverse_zero]
    | succ j =>
      have hhalf : (2 ^ (j + 1) + k) / 2 = 2 ^ j + k / 2 := by omega
      have hbit : (2 ^ (j + 1) + k) % 2 = k % 2 := by omega
      have hplace : bits + 1 - 1 - (j + 1) = bits - 1 - j := by omega
      rw [bitReverse, hhalf, hbit, ih (by omega) (by omega), bitReverse, hplace, Nat.add_right_comm]

/-- A leading zero bit reverses to a trailing one. -/
theorem bitReverse_succ_of_lt {bits : Nat} : ∀ {i : Nat}, i < 2 ^ bits →
    bitReverse (bits + 1) i = 2 * bitReverse bits i := by
  induction bits with
  | zero =>
    intro i hi
    obtain rfl : i = 0 := by omega
    rfl
  | succ bits ih =>
    intro i hi
    rw [bitReverse, ih (by omega), bitReverse]
    ring

theorem bitReverse_two_mul (bits i : Nat) : bitReverse (bits + 1) (2 * i) = bitReverse bits i := by
  rw [bitReverse, Nat.mul_mod_right, Nat.mul_div_cancel_left _ two_pos, Nat.mul_zero, Nat.add_zero]

theorem bitReverse_two_mul_add_one (bits i : Nat) :
    bitReverse (bits + 1) (2 * i + 1) = bitReverse bits i + 2 ^ bits := by
  rw [bitReverse, show (2 * i + 1) % 2 = 1 by omega, show (2 * i + 1) / 2 = i by omega, Nat.mul_one]

theorem sum_range_two_mul {M : Type} [AddCommMonoid M] (f : Nat → M) (n : Nat) :
    ∑ q ∈ Finset.range (2 * n), f q =
      ∑ q ∈ Finset.range n, f (2 * q) + ∑ q ∈ Finset.range n, f (2 * q + 1) := by
  rw [← Finset.sum_add_distrib]
  induction n with
  | zero => rfl
  | succ n ih => rw [Nat.mul_succ, Finset.sum_range_succ, Finset.sum_range_succ, ih, Finset.sum_range_succ, add_assoc]

section
variable {R : Type} [CommRing R]

/-- Coefficient r of the polynomial with the count·len coefficients a, reduced modulo x^len - z. -/
def remainder (a : Nat → R) (count len : Nat) (z : R) (r : Nat) : R :=
  ∑ q ∈ Finset.range count, a (q * len + r) * z ^ q

/-- Modulo x^len - z a polynomial is what it is modulo x^(2·len) - z^2, with x^len replaced by z. -/
theorem remainder_two_mul (a : Nat → R) (count len : Nat) (z : R) (r : Nat) :
    remainder a (2 * count) len z r =
      remainder a count (2 * len) (z ^ 2) r + remainder a count (2 * len) (z ^ 2) (r + len) * z := by
  rw [remainder, sum_range_two_mul, remainder, remainder, Finset.sum_mul]
  refine congrArg₂ _ (Finset.sum_congr rfl fun q _ => ?_) (Finset.sum_congr rfl fun q _ => ?_)
  · rw [← pow_mul, show 2 * q * len + r = q * (2 * len) + r by ring]
  · rw [← pow_mul, mul_assoc, ← pow_succ, show (2 * q + 1) * len + r = q * (2 * len) + (r + len) by ring]

/-- After k stages, block i holds the polynomial modulo x^(n/2^k) - z, where z is ω to the reversed bits of i: each
stage splits x^(2·len) - w^2 into x^len - w and x^len + w. -/
theorem network_eq_remainder {ω : R} {l : Nat} (hω : ω ^ 2 ^ l = -1) (a : Nat → R) : ∀ k ≤ l + 1, ∀ i < 2 ^ k,
    ∀ r < 2 ^ (l + 1 - k),
      network cooleyTukey (fun i => ω ^ bitReverse l i) (fun k => 2 ^ (l - k)) k a (i * 2 ^ (l + 1 - k) + r) =
        remainder a (2 ^ k) (2 ^ (l + 1 - k)) (ω ^ bitReverse (l + 1) i) r := by
  intro k
  induction k with
  | zero =>
    intro _ i hi r _
    obtain rfl : i = 0 := by omega
    simp [network, remainder]
  | succ k ih =>
    intro hk i' hi' r hr
    obtain ⟨len, hlen⟩ : ∃ len, 2 ^ (l - k) = len := ⟨_, rfl⟩
    have hdouble : 2 ^ (l + 1 - k) = 2 * len := by rw [Nat.sub_add_comm (by omega), Nat.pow_succ', hlen]
    rw [Nat.add_sub_add_right, hlen] at hr ⊢
    rw [hdouble] at ih
    obtain ⟨i, hi⟩ := i'.even_or_odd'
    have hik : i < 2 ^ k := by omega
    have hsquare : ω ^ bitReverse (l + 1) i = (ω ^ bitReverse l i) ^ 2 := by
      rw [bitReverse_succ_of_lt (hik.trans_le (Nat.pow_le_pow_right (by decide) (by omega))), Nat.mul_comm, pow_mul]
    have low := ih (by omega) i hik r (by omega)
    have high := ih (by omega) i hik (r + len) (by omega)
    rw [show i * (2 * len) + r = 2 * i * len + r by ring, hsquare] at low
    rw [show i * (2 * len) + (r + len) = 2 * i * len + r + len by ring, hsquare] at high
    rw [network, hlen, Nat.pow_succ', remainder_two_mul]
    rcases hi with rfl | rfl
    · rw [bitReverse_two_mul, stageAt_low _ _ _ hr, low, high]
      rfl
    · rw [bitReverse_two_mul_add_one, pow_add, hω, mul_neg_one, neg_sq, mul_neg, ← sub_eq_add_neg,
        show (2 * i + 1) * len + r = 2 * i * len + r + len by ring, stageAt_high _ _ _ hr, low, high]
      rfl

end

/-- With ω an n-th root of unity whose power n/2 is -1, and its powers to the reversed indices as twiddles, the forward
network gives the values of the polynomial at the powers of ω, in bit-reversed order. -/
theorem forwardNetwork_evaluates {R : Type} [CommRing R] {ω : R} {logn : Nat}
    (hω : 1 ≤ logn → ω ^ 2 ^ (logn - 1) = -1) (a : Nat → R) {i : Nat} (hi : i < 2 ^ logn) :
    forwardNetwork (fun i => ω ^ bitReverse (logn - 1) i) logn a i =
      ∑ q ∈ Finset.range (2 ^ logn), a q * (ω ^ bitReverse logn i) ^ q := by
  cases logn with
  | zero =>
    obtain rfl : i = 0 := by omega
    simp [forwardNetwork, network]
  | succ l =>
    have h := network_eq_remainder (hω (by omega)) a (l + 1) le_rfl i hi 0 (by positivity)
    simpa [forwardNetwork, remainder] using h

end Sys2Proof.Machine
end

section
/-! PROOFS. Residue words as elements of the ring modulo m: that each engine function computes the ring's operation,
that the loops of 45_ntt R216 and R218 compute the networks over the ring, and what the twiddle tables hold there. -/

-- One declaration at a time: as one text the package has too many theorems for a thread each within the memory limit.
set_option Elab.async false

namespace Sys2Proof.Machine

/-! ### Residue words and their classes (00_scope R13, 41_montgomery R122) -/

/-- v is a valid residue word of class c, an element of the ring modulo m. -/
def Engine.ClassIs (e : Engine) (v : Nat) (c : ZMod e.m.toNat) : Prop :=
  v < 2 * e.m.toNat ∧ (e.toOrdinary v : ZMod e.m.toNat) = c

/-- The first n words of a family are valid residue words of the classes given. -/
def Engine.ClassesAre (e : Engine) (n : Nat) (v : Nat → Nat) (c : Nat → ZMod e.m.toNat) : Prop :=
  ∀ x < n, e.ClassIs (v x) (c x)

theorem Engine.ClassIs.self {e : Engine} {v : Nat} (h : v < 2 * e.m.toNat) : e.ClassIs v (e.toOrdinary v) := ⟨h, rfl⟩

section
variable {e : Engine} (h : e.Lawful) {a b : Nat} {ca cb : ZMod e.m.toNat} (ha : e.ClassIs a ca)
include h ha

theorem Engine.ClassIs.add (hb : e.ClassIs b cb) : e.ClassIs (e.add a b) (ca + cb) := by
  obtain ⟨ha, rfl⟩ := ha
  obtain ⟨hb, rfl⟩ := hb
  refine ⟨h.add_lt ha hb, ?_⟩
  rw [h.toOrdinary_add ha hb, ZMod.natCast_mod, Nat.cast_add]

theorem Engine.ClassIs.sub (hb : e.ClassIs b cb) : e.ClassIs (e.sub a b) (ca - cb) := by
  obtain ⟨ha, rfl⟩ := ha
  obtain ⟨hb, rfl⟩ := hb
  have hle : e.toOrdinary b ≤ e.toOrdinary a + e.m.toNat := (h.toOrdinary_lt hb).le.trans (Nat.le_add_left _ _)
  refine ⟨h.sub_lt ha, ?_⟩
  rw [h.toOrdinary_sub ha hb, ZMod.natCast_mod, Nat.cast_sub hle, Nat.cast_add, ZMod.natCast_self, add_zero]

theorem Engine.ClassIs.mul (hb : e.ClassIs b cb) : e.ClassIs (e.mul a b) (ca * cb) := by
  obtain ⟨ha, rfl⟩ := ha
  obtain ⟨hb, rfl⟩ := hb
  refine ⟨h.mul_lt ha hb, ?_⟩
  rw [h.toOrdinary_mul ha hb, ZMod.natCast_mod, Nat.cast_mul]

theorem Engine.ClassIs.power {y : Nat} (hy : y < 2 ^ 64) : e.ClassIs (e.power a y) (ca ^ y) := by
  obtain ⟨ha, rfl⟩ := ha
  refine ⟨h.power_lt ha y, ?_⟩
  rw [h.toOrdinary_power ha hy, ZMod.natCast_mod, Nat.cast_pow]

/-- For a prime modulus Inverse is the inverse of the field, of 0 too (42_exponentiation R152). -/
theorem Engine.ClassIs.inverse [hp : Fact e.m.toNat.Prime] : e.ClassIs (e.inverse a) ca⁻¹ := by
  obtain ⟨hlt, hclass⟩ := ha.power h e.fermatExponent_lt
  refine ⟨hlt, hclass.trans ?_⟩
  by_cases h0 : ca = 0
  · obtain ⟨k, hk⟩ := h.fermatExponent_odd
    rw [h0, hk, inv_zero, zero_pow (Nat.succ_ne_zero _)]
  · refine eq_inv_of_mul_eq_one_left ?_
    rw [← pow_succ, h.fermatExponent_add_one hp.out, Nat.totient_prime hp.out, ZMod.pow_card_sub_one_eq_one h0]

end

namespace Engine.Lawful

variable {e : Engine} (h : e.Lawful)
include h

theorem classIs_one : e.ClassIs e.one.toNat 1 := by
  refine ⟨h.one_lt, ?_⟩
  rw [h.toOrdinary_one, ZMod.natCast_mod, Nat.cast_one]

theorem classIs_fromOrdinary {x : Nat} (hx : x < 2 ^ 64) : e.ClassIs (e.fromOrdinary x) x := by
  refine ⟨h.fromOrdinary_lt hx, ?_⟩
  rw [h.toOrdinary_fromOrdinary hx, ZMod.natCast_mod]

/-- A word stored and read back keeps its class. -/
theorem ofNat_toNat_of_classIs {v : Nat} {c : ZMod e.m.toNat} (hv : e.ClassIs v c) : (BitVec.ofNat 64 v).toNat = v := by
  rw [BitVec.toNat_ofNat]
  exact Nat.mod_eq_of_lt (h.residue_lt_radix hv.1)

/-- The number To gives is the remainder of any number of the same class. -/
theorem toOrdinary_eq_mod {v c : Nat} (hv : e.ClassIs v c) : e.toOrdinary v = c % e.m.toNat := by
  obtain ⟨hlt, hclass⟩ := hv
  rw [← Nat.mod_eq_of_lt (h.toOrdinary_lt hlt)]
  exact (ZMod.natCast_eq_natCast_iff' _ _ _).1 hclass

end Engine.Lawful

/-! ### The loops compute the networks over the ring (45_ntt R216, R218) -/

/-- A butterfly on residue words computes a butterfly on their classes. -/
def Engine.Implements (e : Engine) (b : Butterfly Nat) (c : Butterfly (ZMod e.m.toNat)) : Prop :=
  ∀ ⦃w u v : Nat⦄ ⦃cw cu cv : ZMod e.m.toNat⦄, e.ClassIs w cw → e.ClassIs u cu → e.ClassIs v cv →
    e.ClassIs (b w u v).1 (c cw cu cv).1 ∧ e.ClassIs (b w u v).2 (c cw cu cv).2

section
variable {e : Engine} (h : e.Lawful)
include h

theorem implements_cooleyTukey : e.Implements e.cooleyTukey cooleyTukey :=
  fun _ _ _ _ _ _ hw hu hv => ⟨hu.add h (hv.mul h hw), hu.sub h (hv.mul h hw)⟩

theorem implements_gentlemanSande : e.Implements e.gentlemanSande gentlemanSande :=
  fun _ _ _ _ _ _ hw hu hv => ⟨hu.add h hv, (hu.sub h hv).mul h hw⟩

end

section
variable {e : Engine} {b : Butterfly Nat} {c : Butterfly (ZMod e.m.toNat)} (hb : e.Implements b c)
  {table : WordMem} {w a : Nat → ZMod e.m.toNat} {p : List Nat}
include hb

/-- One stage on a buffer, with a table that holds the roots of all its blocks. -/
theorem Engine.Implements.stage {blocks len n : Nat} (hlen : 0 < len) (hn : n = blocks * (2 * len)) (hp : p.length = n)
    (hw : e.ClassesAre blocks (wordAt table) w) (ha : e.ClassesAre n (p.getD · 0) a) :
    e.ClassesAre n ((Machine.stage (applyPair b) table n len p).getD · 0) (stageAt c w len a) := by
  intro x hx
  obtain ⟨i, k, hk, hi, hxik⟩ := exists_pair hlen x
  have hblock : i < blocks := hi ▸ Nat.div_lt_of_lt_mul (by rwa [Nat.mul_comm, ← hn])
  have hinside : 2 * i * len + k + len < n := by
    have hle : (i + 1) * (2 * len) ≤ n := hn ▸ Nat.mul_le_mul_right _ hblock
    have hends : (i + 1) * (2 * len) = 2 * i * len + 2 * len := by ring
    omega
  obtain ⟨hlow, hhigh⟩ := hb (hw i hblock) (ha (2 * i * len + k) (by omega)) (ha _ hinside)
  simp only [getD_stage b table hlen hn hp hx]
  rcases hxik with rfl | rfl
  · rw [stageAt_low _ _ _ hk, stageAt_low _ _ _ hk]
    exact hlow
  · rw [stageAt_high _ _ _ hk, stageAt_high _ _ _ hk]
    exact hhigh

/-- The stages of a transform on 2^logn words, with spans that are powers of two below its length. -/
theorem Engine.Implements.foldl_stage {logn : Nat} {exponent : Nat → Nat} (hexp : ∀ k < logn, exponent k < logn)
    (hp : p.length = 2 ^ logn) (hw : e.ClassesAre (2 ^ (logn - 1)) (wordAt table) w)
    (ha : e.ClassesAre (2 ^ logn) (p.getD · 0) a) : ∀ stages ≤ logn,
      e.ClassesAre (2 ^ logn) (((List.range stages).foldl
          (fun p k => Machine.stage (applyPair b) table (2 ^ logn) (2 ^ exponent k) p) p).getD · 0)
        (network c w (fun k => 2 ^ exponent k) stages a) := by
  intro stages
  induction stages with
  | zero => exact fun _ => ha
  | succ stages ih =>
    intro hle
    have hlt := hexp stages (by omega)
    have hn : 2 ^ logn = 2 ^ (logn - 1 - exponent stages) * (2 * 2 ^ exponent stages) := by
      rw [← Nat.pow_succ', ← Nat.pow_add]
      congr 1
      omega
    rw [List.range_succ, List.foldl_append]
    refine hb.stage (by positivity) hn ?_ (fun i hi => hw i (hi.trans_le ?_)) (ih (by omega))
    · rw [length_foldl fun p _ => length_stage (fun _ _ _ _ => length_applyPair ..) _ _ _ p, hp]
    · exact Nat.pow_le_pow_right (by decide) (by omega)

end

theorem Engine.intt_of_ne_zero (e : Engine) {logn : Nat} (hlogn : logn ≠ 0) (table : WordMem) (p : List Nat) :
    e.intt table logn p =
      (e.inttStages table logn p).map fun v => e.mul v (e.inverse (e.fromOrdinary (2 ^ logn))) := if_neg hlogn

theorem getD_map_mul (e : Engine) (p : List Nat) (factor x : Nat) :
    (p.map fun v => e.mul v factor).getD x 0 = e.mul (p.getD x 0) factor := by
  have hmap := List.getD_map (l := p) (d := 0) (n := x) fun v => e.mul v factor
  rwa [e.mul_zero_left] at hmap

section
variable {e : Engine} (h : e.Lawful) {table : WordMem} {logn : Nat} {w a : Nat → ZMod e.m.toNat} {p : List Nat}
  (hp : p.length = 2 ^ logn) (hw : e.ClassesAre (2 ^ (logn - 1)) (wordAt table) w)
  (ha : e.ClassesAre (2 ^ logn) (p.getD · 0) a)
include h hp hw ha

theorem classesAre_fntt :
    e.ClassesAre (2 ^ logn) ((e.fntt table logn p).getD · 0) (forwardNetwork w logn a) := by
  simp only [Engine.fntt_eq]
  exact (implements_cooleyTukey h).foldl_stage (exponent := fun k => logn - 1 - k) (fun _ _ => by omega) hp hw ha
    logn le_rfl

theorem classesAre_inttStages :
    e.ClassesAre (2 ^ logn) ((e.inttStages table logn p).getD · 0) (inverseNetwork w logn a) := by
  simp only [Engine.inttStages_eq]
  exact (implements_gentlemanSande h).foldl_stage (exponent := fun k => k) (fun _ hk => hk) hp hw ha logn le_rfl

/-- `Intt` scales its stages by the inverse of n; for n = 1 both are the identity (45_ntt R218). -/
theorem classesAre_intt [Fact e.m.toNat.Prime] (hlogn : logn < 64) :
    e.ClassesAre (2 ^ logn) ((e.intt table logn p).getD · 0)
      ((2 ^ logn : ZMod e.m.toNat)⁻¹ • inverseNetwork w logn a) := by
  have hstages := classesAre_inttStages h hp hw ha
  by_cases hzero : logn = 0
  · subst hzero
    simpa [inverseNetwork, network, Engine.intt] using ha
  · intro x hx
    have hscale := (h.classIs_fromOrdinary (Nat.pow_lt_pow_right (by decide) hlogn : 2 ^ logn < 2 ^ 64)).inverse h
    have hscaled := (hstages x hx).mul h hscale
    rw [Nat.cast_pow, Nat.cast_two, mul_comm] at hscaled
    simp only [e.intt_of_ne_zero hzero, getD_map_mul]
    exact hscaled

end

end Sys2Proof.Machine
end

section
/-! PROOFS. The twiddle tables as elements of the ring (45_ntt R211 to R213), and the states whose tables serve a
transform length: what each transform command does there, to the words and to their classes. -/

-- One declaration at a time: as one text the package has too many theorems for a thread each within the memory limit.
set_option Elab.async false

namespace Sys2Proof.Machine

/-! ### The entries of a lawful table (45_ntt R212) -/

/-- An entry of a table is the first one, or it was written from an earlier one when the table grew. -/
theorem tableIndex_induction {motive : Nat → Prop} {c : Nat} (zero : motive 0)
    (grown : ∀ j k, j + 2 ≤ c → k < 2 ^ j → motive k → motive (2 ^ j + k)) (i : Nat) :
    i < 2 ^ (c - 1) → motive i := by
  induction i using Nat.strong_induction_on with
  | _ i ih =>
    intro hi
    rcases Nat.eq_zero_or_pos i with rfl | hpos
    · exact zero
    have hlow : 2 ^ Nat.log 2 i ≤ i := Nat.pow_log_le_self 2 hpos.ne'
    have hhigh : i < 2 ^ (Nat.log 2 i + 1) := Nat.lt_pow_succ_log_self (by decide) i
    have hj : Nat.log 2 i < c - 1 := (Nat.pow_lt_pow_iff_right (by decide)).1 (hlow.trans_lt hi)
    have hpow := Nat.two_pow_pos (Nat.log 2 i)
    rw [← Nat.add_sub_of_le hlow]
    exact grown _ _ (by omega) (by omega) (ih _ (by omega) (by omega))

/-- A table that is lawful at a coverage is lawful at every smaller one: it grows without rewriting (45_ntt R213). -/
theorem TableLawful.mono {e : Engine} {table : WordMem} {c l : Nat} {stageRoot : Nat → Nat}
    (h : TableLawful e table c stageRoot) (hl : l ≤ c) : TableLawful e table l stageRoot :=
  ⟨h.1, fun j k hj hk => h.2 j k (hj.trans hl) hk⟩

/-- A family of classes that follows the recurrence of 45_ntt R212 is what a lawful table holds. -/
theorem TableLawful.classesAre {e : Engine} {table : WordMem} {c : Nat} {stageRoot : Nat → Nat}
    (h : TableLawful e table c stageRoot) (he : e.Lawful) {r w : Nat → ZMod e.m.toNat}
    (hroot : ∀ n, e.ClassIs (stageRoot n) (r n)) (hzero : w 0 = 1)
    (hgrown : ∀ j k, j + 2 ≤ c → k < 2 ^ j → w (2 ^ j + k) = w k * r (2 ^ (j + 2))) :
    e.ClassesAre (2 ^ (c - 1)) (wordAt table) w := by
  obtain ⟨hone, hrec⟩ := h
  refine tableIndex_induction (motive := fun i => e.ClassIs (wordAt table i) (w i)) ?_ fun j k hj hk ih => ?_
  · rw [wordAt_of_peek hone, hzero]
    exact he.classIs_one
  · obtain ⟨v, hv, hvalue⟩ := hrec j k hj hk
    rw [wordAt_of_peek hv, hvalue, hgrown j k hj hk]
    exact ih.mul he (hroot _)

/-- The products of stage roots r that 45_ntt R212 builds, for every index: the highest bit of an index gives its last
factor. -/
noncomputable def twiddle {R : Type} [CommRing R] (r : Nat → R) : Nat → R
  | 0 => 1
  | i + 1 => twiddle r (i + 1 - 2 ^ Nat.log 2 (i + 1)) * r (2 ^ (Nat.log 2 (i + 1) + 2))
termination_by i => i
decreasing_by exact Nat.sub_lt (Nat.succ_pos i) (Nat.two_pow_pos _)

section
variable {R : Type} [CommRing R] {r r' : Nat → R}

theorem twiddle_zero : twiddle r 0 = 1 := by rw [twiddle]

theorem twiddle_add {j k : Nat} (hk : k < 2 ^ j) : twiddle r (2 ^ j + k) = twiddle r k * r (2 ^ (j + 2)) := by
  have hlog : Nat.log 2 (2 ^ j + k) = j :=
    (Nat.log_eq_iff (.inr ⟨by decide, by have := Nat.two_pow_pos j; omega⟩)).2 ⟨by omega, by rw [Nat.pow_succ]; omega⟩
  obtain ⟨i, hi⟩ : ∃ i, 2 ^ j + k = i + 1 := ⟨2 ^ j + k - 1, by have := Nat.two_pow_pos j; omega⟩
  rw [hi, twiddle, ← hi, hlog, Nat.add_sub_cancel_left]

/-- Inverse stage roots give inverse twiddles. -/
theorem twiddle_mul_twiddle (h : ∀ n, r n * r' n = 1) (i : Nat) : twiddle r i * twiddle r' i = 1 := by
  refine tableIndex_induction (motive := fun i => twiddle r i * twiddle r' i = 1) (c := i + 2) ?_
    (fun j k _ hk ih => ?_) i (Nat.lt_two_pow_self.trans_le (Nat.pow_le_pow_right (by decide) (by omega)))
  · rw [twiddle_zero, twiddle_zero, one_mul]
  · rw [twiddle_add hk, twiddle_add hk, mul_mul_mul_comm, ih, h, one_mul]

end

theorem TableLawful.classesAre_twiddle {e : Engine} {table : WordMem} {c : Nat} {stageRoot : Nat → Nat}
    (h : TableLawful e table c stageRoot) (he : e.Lawful) {r : Nat → ZMod e.m.toNat}
    (hroot : ∀ n, e.ClassIs (stageRoot n) (r n)) : e.ClassesAre (2 ^ (c - 1)) (wordAt table) (twiddle r) :=
  h.classesAre he hroot twiddle_zero fun _ _ _ hk => twiddle_add hk

/-! ### Stage roots (45_ntt R211) -/

theorem stageExponent_lt {e : Engine} (h : e.Lawful) (n : Nat) : (e.m.toNat - 1) / n < 2 ^ 64 := by
  have hm := h.m_lt
  have hle := Nat.div_le_self (e.m.toNat - 1) n
  omega

section
variable {e : Engine} (h : e.Lawful) {rootr : Nat} {g : ZMod e.m.toNat} (hg : e.ClassIs rootr g) (n : Nat)
include h hg

theorem classIs_rootInverse : e.ClassIs (e.rootInverse rootr n) (g ^ ((e.m.toNat - 1) / n)) :=
  hg.power h (stageExponent_lt h n)

theorem classIs_rootForward [Fact e.m.toNat.Prime] :
    e.ClassIs (e.rootForward rootr n) (g⁻¹ ^ ((e.m.toNat - 1) / n)) :=
  (hg.inverse h).power h (stageExponent_lt h n)

end

/-! ### Buffers of residue words in a memory -/

/-- n words from base are there and are valid residue words of the classes given. -/
def Engine.HoldsClasses (e : Engine) (mem : WordMem) (base n : Nat) (c : Nat → ZMod e.m.toNat) : Prop :=
  ∀ j < n, ∃ w, peek mem (base + j) = some w ∧ e.ClassIs w.toNat (c j)

section
variable {e : Engine} {mem mem' : WordMem} {base n : Nat} {c c' : Nat → ZMod e.m.toNat}

theorem Engine.HoldsClasses.congr (h : e.HoldsClasses mem base n c) (hc : ∀ j < n, c j = c' j) :
    e.HoldsClasses mem base n c' := fun j hj => hc j hj ▸ h j hj

theorem Engine.HoldsClasses.of_peek_eq (h : e.HoldsClasses mem base n c)
    (hsame : ∀ j < n, peek mem' (base + j) = peek mem (base + j)) : e.HoldsClasses mem' base n c :=
  fun j hj => (hsame j hj).symm ▸ h j hj

theorem Engine.HoldsClasses.classIs_wordAt (h : e.HoldsClasses mem base n c) {j : Nat} (hj : j < n) :
    e.ClassIs (wordAt mem (base + j)) (c j) := by
  obtain ⟨w, hw, hclass⟩ := h j hj
  rwa [wordAt_of_peek hw]

theorem Engine.HoldsClasses.classesAre_loadRange (h : e.HoldsClasses mem base n c) :
    e.ClassesAre n ((loadRange mem base n).getD · 0) c := by
  intro j hj
  change e.ClassIs ((loadRange mem base n).getD j 0) (c j)
  rw [List.getD_eq_getElem _ _ (by rwa [length_loadRange]), getElem_loadRange]
  exact h.classIs_wordAt hj

theorem holdsClasses_storeNats (he : e.Lawful) {vs : List Nat} (hlen : vs.length = n)
    (h : e.ClassesAre n (vs.getD · 0) c) : e.HoldsClasses (storeNats mem base vs) base n c := by
  intro j hj
  have hclass : e.ClassIs (vs.getD j 0) (c j) := h j hj
  rw [List.getD_eq_getElem _ _ (hlen ▸ hj)] at hclass
  refine ⟨_, peek_storeNats_inside mem base j vs (hlen ▸ hj), ?_⟩
  rwa [he.ofNat_toNat_of_classIs hclass]

/-- `Fntt` on a buffer gives the forward network of its classes. -/
theorem Engine.HoldsClasses.fntt (he : e.Lawful) {table : WordMem} {logn : Nat} {w : Nat → ZMod e.m.toNat}
    (hw : e.ClassesAre (2 ^ (logn - 1)) (wordAt table) w) (h : e.HoldsClasses mem base (2 ^ logn) c) :
    e.HoldsClasses (storeNats mem base (e.fntt table logn (loadRange mem base (2 ^ logn)))) base (2 ^ logn)
      (forwardNetwork w logn c) :=
  holdsClasses_storeNats he (by simp) (classesAre_fntt he (length_loadRange ..) hw h.classesAre_loadRange)

/-- `Intt` on a buffer gives the inverse network of its classes, scaled. -/
theorem Engine.HoldsClasses.intt [Fact e.m.toNat.Prime] (he : e.Lawful) {table : WordMem} {logn : Nat}
    (hlogn : logn < 64) {w : Nat → ZMod e.m.toNat} (hw : e.ClassesAre (2 ^ (logn - 1)) (wordAt table) w)
    (h : e.HoldsClasses mem base (2 ^ logn) c) :
    e.HoldsClasses (storeNats mem base (e.intt table logn (loadRange mem base (2 ^ logn)))) base (2 ^ logn)
      ((2 ^ logn : ZMod e.m.toNat)⁻¹ • inverseNetwork w logn c) :=
  holdsClasses_storeNats he (by simp) (classesAre_intt he (length_loadRange ..) hw h.classesAre_loadRange hlogn)

end

section
variable {s : State} {base n : Nat}

/-- A buffer of residue words holds the classes that the statements read with To. -/
theorem holdsClasses_of_residueBuffer (he : s.eng.Lawful) (h : ResidueBuffer s base n) :
    s.eng.HoldsClasses s.pmem base n fun j => (s.classAt base j : ZMod s.eng.m.toNat) := by
  intro j hj
  obtain ⟨_, w, hw, rfl, hlt⟩ := h j hj
  refine ⟨w, hw, he.m2_eq ▸ hlt, ?_⟩
  simp only [State.classAt, wordAt_of_peek hw]

theorem residueBuffer_of_holdsClasses {e : Engine} (he : e.Lawful) (heng : s.eng = e) {c : Nat → ZMod e.m.toNat}
    (h : e.HoldsClasses s.pmem base n c) : ResidueBuffer s base n := by
  intro j hj
  obtain ⟨w, hw, hlt, _⟩ := h j hj
  exact ⟨w.toNat, w, hw, rfl, by rwa [heng, he.m2_eq]⟩

/-- Reading classes back from a buffer as the statements do. -/
theorem classAt_of_holdsClasses {e : Engine} (he : e.Lawful) (heng : s.eng = e) {c : Nat → ZMod e.m.toNat}
    (h : e.HoldsClasses s.pmem base n c) {j k : Nat} (hj : j < n) (hk : c j = k) :
    s.classAt base j = k % e.m.toNat := by
  rw [State.classAt, heng]
  exact he.toOrdinary_eq_mod (hk ▸ h.classIs_wordAt hj)

theorem classAt_lt (he : s.eng.Lawful) (h : ResidueBuffer s base n) {j : Nat} (hj : j < n) :
    s.classAt base j < s.eng.m.toNat :=
  he.toOrdinary_lt ((holdsClasses_of_residueBuffer he h).classIs_wordAt hj).1

end

/-! ### States whose tables serve a length -/

/-- The state runs transforms of length 2^LOGN, and its tables cover them already. -/
structure State.Serves (s : State) (logn : LogLen) : Prop where
  modv : s.modv = true
  rootv : s.rootv = true
  fits : logn.toNat ≤ s.cfg.plog
  covered : 2 ^ logn.toNat ≤ s.twcov.toNat
  engine : s.eng.Lawful
  rootr : s.rootr.toNat = s.eng.fromOrdinary s.root.toNat
  forward : TableLawful s.eng s.twf logn.toNat (s.eng.rootForward s.rootr.toNat)
  inverse : TableLawful s.eng s.twi logn.toNat (s.eng.rootInverse s.rootr.toNat)

/-- Precompute leaves such a state (45_ntt R212). -/
theorem State.Inv.serves_precompute {s : State} (h : s.Inv) (hrootv : s.rootv = true) {logn : LogLen}
    (hfits : logn.toNat ≤ s.cfg.plog) : (s.precompute logn).Serves logn := by
  have hinv := h.precompute hrootv hfits
  have hrootv' := (s.precompute_rootv logn).trans hrootv
  have hmodv' := hinv.root_needs_engine hrootv'
  have hcovered : 2 ^ logn.toNat ≤ (s.precompute logn).twcov.toNat :=
    h.precompute_twcov hrootv logn ▸ le_max_right _ _
  obtain ⟨hrootr, c, _, _, hc, hforward, hinverse⟩ := hinv.root_lawful hrootv'
  have hle : logn.toNat ≤ c := (Nat.pow_le_pow_iff_right (by decide)).1 (hc ▸ hcovered)
  exact ⟨hmodv', hrootv', by rwa [s.precompute_cfg], hcovered, hinv.engine_lawful hmodv', hrootr,
    hforward.mono hle, hinverse.mono hle⟩

namespace State.Serves

variable {s t : State} {logn : LogLen} (h : s.Serves logn)
include h

theorem precompute_eq : s.precompute logn = s := precompute_covered h.covered

theorem of_pmemOnly (ht : PmemOnly s t) : t.Serves logn := by
  obtain ⟨_, _, rfl⟩ := ht.eq_update
  exact ⟨h.modv, h.rootv, h.fits, h.covered, h.engine, h.rootr, h.forward, h.inverse⟩

theorem retire : s.retire.Serves logn :=
  ⟨h.modv, h.rootv, h.fits, h.covered, h.engine, h.rootr, h.forward, h.inverse⟩

theorem setX (r : Reg) (v : Word) : (s.setX r v).Serves logn :=
  ⟨h.modv, h.rootv, h.fits, h.covered, h.engine, h.rootr, h.forward, h.inverse⟩

theorem fnttAt (base : Nat) : (s.fnttAt base logn.toNat).Serves logn := h.of_pmemOnly rfl

theorem classIs_rootr : s.eng.ClassIs s.rootr.toNat s.root.toNat :=
  h.rootr ▸ h.engine.classIs_fromOrdinary s.root.isLt

/-! ### The transform commands there -/

section
variable {ra : Reg} {base : Nat} (hx : (s.x ra).toNat = base) (hrange : InsidePmem s base (2 ^ logn.toNat))
  (hbuffer : ResidueBuffer s base (2 ^ logn.toNat))
include hx hrange hbuffer

theorem exec_fntt : exec (.fntt ra logn) s = .next (s.fnttAt base logn.toNat).retire := by
  subst hx
  rw [Machine.exec_fntt h.modv h.rootv h.fits hrange, h.precompute_eq, forwardTransform_of_residueBuffer hbuffer]

theorem exec_intt : exec (.intt ra logn) s = .next (s.inttAt base logn.toNat).retire := by
  subst hx
  rw [Machine.exec_intt h.modv h.rootv h.fits hrange, h.precompute_eq, inverseTransform_of_residueBuffer hbuffer]

end

/-- A transform of one buffer leaves every buffer of residue words one, however they overlap. -/
theorem residueBuffer_fnttAt {a b n : Nat} (ha : ResidueBuffer s a (2 ^ logn.toNat)) (hb : ResidueBuffer s b n) :
    ResidueBuffer (s.fnttAt a logn.toNat) b n := by
  have hw := h.forward.classesAre_twiddle h.engine fun n =>
    .self (h.engine.rootForward_lt h.classIs_rootr.1 n)
  have hafter := residueBuffer_of_holdsClasses (s := s.fnttAt a logn.toNat) h.engine rfl
    ((holdsClasses_of_residueBuffer h.engine ha).fntt h.engine hw)
  intro j hj
  by_cases hin : b + j < a ∨ a + 2 ^ logn.toNat ≤ b + j
  · rw [fnttAt_outside s a _ _ hin]
    exact hb j hj
  · have hword := hafter (b + j - a) (by omega)
    rwa [show a + (b + j - a) = b + j by omega] at hword

end State.Serves

/-! ### Starting from the state that Precompute leaves

A transform command grows the tables first, so it does the same on the state whose tables have grown already. -/

section
variable {s : State} {logn : LogLen} {base len : Nat}

theorem State.precompute_x (s : State) (logn : LogLen) (r : Reg) : (s.precompute logn).x r = s.x r := by
  rw [State.x, State.x, s.precompute_regs]

theorem precompute_insidePmem_iff : InsidePmem (s.precompute logn) base len ↔ InsidePmem s base len := by
  rw [InsidePmem, InsidePmem, s.precompute_cfg]

theorem State.precompute_classAt (s : State) (logn : LogLen) (base j : Nat) :
    (s.precompute logn).classAt base j = s.classAt base j := by
  rw [State.classAt, State.classAt, s.precompute_eng, s.precompute_pmem]

variable (h : s.Inv) (hrootv : s.rootv = true) (hfits : logn.toNat ≤ s.cfg.plog) {ra : Reg}
  (hrange : InsidePmem s (s.x ra).toNat (2 ^ logn.toNat))
include h hrootv hfits hrange

theorem exec_fntt_precompute : exec (.fntt ra logn) (s.precompute logn) = exec (.fntt ra logn) s := by
  have hserves := h.serves_precompute hrootv hfits
  have hrange' := precompute_insidePmem_iff (logn := logn).2 (s.precompute_x logn ra ▸ hrange)
  rw [exec_fntt (h.root_needs_engine hrootv) hrootv hfits hrange,
    exec_fntt hserves.modv hserves.rootv hserves.fits hrange', hserves.precompute_eq, s.precompute_x]

theorem exec_intt_precompute : exec (.intt ra logn) (s.precompute logn) = exec (.intt ra logn) s := by
  have hserves := h.serves_precompute hrootv hfits
  have hrange' := precompute_insidePmem_iff (logn := logn).2 (s.precompute_x logn ra ▸ hrange)
  rw [exec_intt (h.root_needs_engine hrootv) hrootv hfits hrange,
    exec_intt hserves.modv hserves.rootv hserves.fits hrange', hserves.precompute_eq, s.precompute_x]

end

end Sys2Proof.Machine
end

section
/-! PROOFS. PMUL as its four steps (45_ntt R220): the pointwise step is PHAD's loop where every word is a residue, and
each step leaves both buffers residue words, however they overlap. -/

-- One declaration at a time: as one text the package has too many theorems for a thread each within the memory limit.
set_option Elab.async false

namespace Sys2Proof.Machine

/-! ### A command that changes PMEM alone -/

/-- What a transform reads beside PMEM and its operands. -/
def State.twiddleUnit (s : State) : Engine × WordMem × WordMem × Word := (s.eng, s.twf, s.twi, s.twcov)

theorem twiddleUnit_eq_iff {s t : State} :
    t.twiddleUnit = s.twiddleUnit ↔ t.eng = s.eng ∧ t.twf = s.twf ∧ t.twi = s.twi ∧ t.twcov = s.twcov := by
  simp only [State.twiddleUnit, Prod.mk.injEq]

theorem PmemOnly.twiddleUnit_eq {s t : State} (h : PmemOnly s t) : t.twiddleUnit = s.twiddleUnit := by
  obtain ⟨_, _, rfl⟩ := h.eq_update
  rfl

section
variable {s t : State} (h : OnlyPmem s t)
include h

theorem OnlyPmem.eq_update : ∃ pmem draws, t = { s with
    pmem := pmem
    draws := draws
    cmdcnt := s.cmdcnt + 1
    cur := none
    done := true } := ⟨_, _, h⟩

theorem OnlyPmem.twiddleUnit_eq : t.twiddleUnit = s.twiddleUnit := by
  obtain ⟨_, _, rfl⟩ := h.eq_update
  rfl

theorem OnlyPmem.x (r : Reg) : t.x r = s.x r := by
  obtain ⟨_, _, rfl⟩ := h.eq_update
  rfl

theorem OnlyPmem.insidePmem {base len : Nat} (hs : InsidePmem s base len) : InsidePmem t base len := by
  obtain ⟨_, _, rfl⟩ := h.eq_update
  exact hs

theorem OnlyPmem.serves {logn : LogLen} (hs : s.Serves logn) : t.Serves logn := by
  obtain ⟨_, _, rfl⟩ := h.eq_update
  exact ⟨hs.modv, hs.rootv, hs.fits, hs.covered, hs.engine, hs.rootr, hs.forward, hs.inverse⟩

end

theorem PmemOnly.onlyPmem_retire {s t : State} (h : PmemOnly s t) : OnlyPmem s t.retire := by
  obtain ⟨_, _, rfl⟩ := h.eq_update
  rfl

/-! ### The pointwise step (45_ntt R220) -/

theorem State.pointwiseAt_eng (s : State) (a b n : Nat) : (s.pointwiseAt a b n).eng = s.eng := by
  rw [pointwiseAt_pmemOnly s a b n]

/-- The pointwise step, element by element. -/
theorem pointwiseAt_succ (s : State) (a b n : Nat) :
    s.pointwiseAt a b (n + 1) = (s.pointwiseAt a b n).setP (a + n) (BitVec.ofNat 64 (s.eng.mul
      (wordAt (s.pointwiseAt a b n).pmem (a + n)) (wordAt (s.pointwiseAt a b n).pmem (b + n)))) := by
  rw [State.pointwiseAt, List.range_succ, List.foldl_append, List.foldl_cons, List.foldl_nil, ← State.pointwiseAt,
    State.pointwiseAt_eng]

/-- What the pointwise step makes of PMEM depends on the engine and PMEM alone. -/
theorem pointwiseAt_pmem_congr {s t : State} (heng : s.eng = t.eng) (hpmem : s.pmem = t.pmem) (a b n : Nat) :
    (s.pointwiseAt a b n).pmem = (t.pointwiseAt a b n).pmem := by
  induction n with
  | zero => exact hpmem
  | succ n ih => rw [pointwiseAt_succ, pointwiseAt_succ, State.setP_pmem, State.setP_pmem, ih, heng]

/-- Storing a residue word leaves every buffer of residue words one. -/
theorem residueBuffer_setP {s : State} {a c n : Nat} {v : Word} (hv : v.toNat < s.eng.m2.toNat)
    (h : ResidueBuffer s c n) : ResidueBuffer (s.setP a v) c n := by
  intro j hj
  by_cases heq : c + j = a
  · exact ⟨v.toNat, v, heq ▸ peek_poke_same _ _ _, rfl, hv⟩
  · obtain ⟨u, w, hw, hu⟩ := h j hj
    exact ⟨u, w, (peek_poke_other _ _ heq).trans hw, hu⟩

section
variable {s : State} (he : s.eng.Lawful) {a b len : Nat} (ha : ResidueBuffer s a len) (hb : ResidueBuffer s b len)
include he ha hb

/-- The word the pointwise step stores is the product of two residue words, and one itself. -/
theorem mul_wordAt_lt {k : Nat} (hk : k < len) :
    s.eng.mul (wordAt s.pmem (a + k)) (wordAt s.pmem (b + k)) < 2 * s.eng.m.toNat :=
  he.mul_lt ((holdsClasses_of_residueBuffer he ha).classIs_wordAt hk).1
    ((holdsClasses_of_residueBuffer he hb).classIs_wordAt hk).1

/-- Throughout the pointwise step both buffers are residue words. -/
theorem residueBuffer_pointwiseAt : ∀ n ≤ len,
    ResidueBuffer (s.pointwiseAt a b n) a len ∧ ResidueBuffer (s.pointwiseAt a b n) b len := by
  intro n
  induction n with
  | zero => exact fun _ => ⟨ha, hb⟩
  | succ n ih =>
    intro hn
    obtain ⟨ha', hb'⟩ := ih (by omega)
    have heng := s.pointwiseAt_eng a b n
    have hproduct := mul_wordAt_lt (heng ▸ he) ha' hb' (k := n) (by omega)
    rw [heng] at hproduct
    have hword : (BitVec.ofNat 64 (s.eng.mul (wordAt (s.pointwiseAt a b n).pmem (a + n))
        (wordAt (s.pointwiseAt a b n).pmem (b + n)))).toNat < (s.pointwiseAt a b n).eng.m2.toNat := by
      rw [heng, he.m2_eq, he.ofNat_toNat_of_classIs (.self hproduct)]
      exact hproduct
    rw [pointwiseAt_succ]
    exact ⟨residueBuffer_setP hword ha', residueBuffer_setP hword hb'⟩

/-- On residue words PHAD's loop spoils nothing, and is the pointwise step (46_poly_elementwise R242, R249). -/
theorem vectorForm_mul_eq_pointwiseAt : vectorForm s.eng.mul a b len s = s.pointwiseAt a b len := by
  have hloop : ∀ n ≤ len,
      (List.range n).foldl (vectorStep s.eng.mul a b) (s, []) = (s.pointwiseAt a b n, []) := by
    intro n
    induction n with
    | zero => exact fun _ => rfl
    | succ n ih =>
      intro hn
      obtain ⟨ha', hb'⟩ := residueBuffer_pointwiseAt he ha hb n (by omega)
      obtain ⟨_, u, hu, rfl, hult⟩ := ha' n (by omega)
      obtain ⟨_, v, hv, rfl, hvlt⟩ := hb' n (by omega)
      have hvalue : vectorValue s.eng.mul a b (s.pointwiseAt a b n) [] n = some (s.eng.mul u.toNat v.toNat) :=
        vectorValue_eq_some.2 ⟨List.not_mem_nil, _, _, residueAt_eq_some.2 ⟨u, hu, rfl, hult⟩,
          residueAt_eq_some.2 ⟨v, hv, rfl, hvlt⟩, rfl⟩
      rw [List.range_succ, List.foldl_append, List.foldl_cons, List.foldl_nil, ih (by omega), vectorStep_eq, hvalue,
        pointwiseAt_succ, wordAt_of_peek hu, wordAt_of_peek hv]
      rfl
  rw [vectorForm, hloop len le_rfl]

end

/-- PHAD of two buffers of residue words is the pointwise step. -/
theorem exec_phad {s : State} {ra rb rc : Reg} (hmodv : s.modv = true) (he : s.eng.Lawful)
    (hrangeA : InsidePmem s (s.x ra).toNat (s.x rc).toNat) (hrangeB : InsidePmem s (s.x rb).toNat (s.x rc).toNat)
    (ha : ResidueBuffer s (s.x ra).toNat (s.x rc).toNat) (hb : ResidueBuffer s (s.x rb).toNat (s.x rc).toNat) :
    exec (.phad ra rb rc) s =
      .next (s.pointwiseAt (s.x ra).toNat (s.x rb).toNat (s.x rc).toNat).retire := by
  rw [← vectorForm_mul_eq_pointwiseAt he ha hb]
  change finish s (check .nomod s.modv >>= fun _ => s.needRange (s.x ra).toNat (s.x rc).toNat >>= fun _ =>
    s.needRange (s.x rb).toNat (s.x rc).toNat >>= fun _ => .ok (vectorForm s.eng.mul _ _ _ s)) = _
  rw [hmodv, needRange_ok hrangeA, needRange_ok hrangeB]
  rfl

/-! ### PMUL (45_ntt R220, R222) -/

/-- A word that is there stays there. -/
theorem peek_storeRange_keeps {mem : WordMem} {c : Nat} (h : ∃ w, peek mem c = some w) (a : Nat) (vs : List Word) :
    ∃ w, peek (storeRange mem a vs) c = some w := by
  rw [peek_storeRange]
  split
  · exact ⟨_, rfl⟩
  · exact h

theorem peek_pointwiseAt_keeps {s : State} {c : Nat} (h : ∃ w, peek s.pmem c = some w) (a b n : Nat) :
    ∃ w, peek (s.pointwiseAt a b n).pmem c = some w := by
  refine foldl_keeps (P := fun t => ∃ w, peek t.pmem c = some w) _ (fun t j _ ht => ?_) s h
  rw [State.setP_pmem, peek_poke]
  split
  · exact ⟨_, rfl⟩
  · exact ht

/-- PMUL leaves some word everywhere in both buffers. -/
theorem convolve_exists (s : State) (a b : Nat) (logn : LogLen) {j : Nat} (hj : j < 2 ^ logn.toNat) :
    (∃ w, peek (s.convolve a b logn).pmem (a + j) = some w) ∧
      ∃ w, peek (s.convolve a b logn).pmem (b + j) = some w := by
  unfold State.convolve
  split
  · exact ⟨peek_storeNats_exists _ _ (by simp) hj,
      peek_storeRange_keeps (peek_pointwiseAt_keeps (peek_storeNats_exists _ _ (by simp) hj) _ _ _) _ _⟩
  · exact ⟨peek_storeRange_keeps (peek_freeRange_exists s a hj) _ _, peek_freeRange_exists _ b hj⟩

theorem convolve_of_residueBuffer {s : State} {a b : Nat} {logn : LogLen} (ha : ResidueBuffer s a (2 ^ logn.toNat))
    (hb : ResidueBuffer s b (2 ^ logn.toNat)) : s.convolve a b logn =
      (((s.fnttAt a logn.toNat).fnttAt b logn.toNat).pointwiseAt a b (2 ^ logn.toNat)).inttAt a logn.toNat :=
  if_pos (Bool.and_eq_true_iff.2 ⟨bufferValid_iff_residueBuffer.2 ha, bufferValid_iff_residueBuffer.2 hb⟩)

section
variable {s t : State} (hunit : s.twiddleUnit = t.twiddleUnit) (hpmem : s.pmem = t.pmem) (base logn : Nat)
include hunit hpmem

theorem fnttAt_pmem_congr : (s.fnttAt base logn).pmem = (t.fnttAt base logn).pmem := by
  obtain ⟨heng, htwf, -, -⟩ := twiddleUnit_eq_iff.1 hunit
  rw [State.fnttAt_pmem, State.fnttAt_pmem, heng, htwf, hpmem]

theorem inttAt_pmem_congr : (s.inttAt base logn).pmem = (t.inttAt base logn).pmem := by
  obtain ⟨heng, -, htwi, -⟩ := twiddleUnit_eq_iff.1 hunit
  rw [State.inttAt_pmem, State.inttAt_pmem, heng, htwi, hpmem]

end

/-- States that have the words PMUL's first three steps leave, one after the other, lead to PMUL's words. -/
theorem convolve_pmem_of_steps {s t1 t2 t3 : State} {a b : Nat} {logn : LogLen}
    (ha : ResidueBuffer s a (2 ^ logn.toNat)) (hb : ResidueBuffer s b (2 ^ logn.toNat))
    (unit1 : t1.twiddleUnit = s.twiddleUnit) (unit2 : t2.twiddleUnit = s.twiddleUnit)
    (unit3 : t3.twiddleUnit = s.twiddleUnit) (pmem1 : t1.pmem = (s.fnttAt a logn.toNat).pmem)
    (pmem2 : t2.pmem = (t1.fnttAt b logn.toNat).pmem)
    (pmem3 : t3.pmem = (t2.pointwiseAt a b (2 ^ logn.toNat)).pmem) :
    (s.convolve a b logn).pmem = (t3.inttAt a logn.toNat).pmem := by
  let u1 := s.fnttAt a logn.toNat
  let u2 := u1.fnttAt b logn.toNat
  let u3 := u2.pointwiseAt a b (2 ^ logn.toNat)
  have unitU1 : u1.twiddleUnit = t1.twiddleUnit := unit1.symm
  have unitU2 : u2.twiddleUnit = t2.twiddleUnit := unit2.symm
  have unitU3 : u3.twiddleUnit = t3.twiddleUnit := (pointwiseAt_pmemOnly ..).twiddleUnit_eq.trans unit3.symm
  have hpmem2 : u2.pmem = t2.pmem := (fnttAt_pmem_congr unitU1 pmem1.symm ..).trans pmem2.symm
  have hpmem3 : u3.pmem = t3.pmem := (pointwiseAt_pmem_congr (congrArg Prod.fst unitU2) hpmem2 ..).trans pmem3.symm
  rw [convolve_of_residueBuffer ha hb]
  exact inttAt_pmem_congr unitU3 hpmem3 ..

/-! ### Each of the four commands where the tables serve the length -/

section
variable {s : State} {logn : LogLen} (h : s.Serves logn) {ra rb rc : Reg} {a b : Nat} (hxa : (s.x ra).toNat = a)
  (hrangeA : InsidePmem s a (2 ^ logn.toNat)) (ha : ResidueBuffer s a (2 ^ logn.toNat))
include h hxa hrangeA ha

theorem State.Serves.fntt_step : ∃ t, exec (.fntt ra logn) s = .next t ∧ OnlyPmem s t ∧
    t.pmem = (s.fnttAt a logn.toNat).pmem ∧ ∀ {c n : Nat}, ResidueBuffer s c n → ResidueBuffer t c n :=
  ⟨_, h.exec_fntt hxa hrangeA ha, rfl, rfl, h.residueBuffer_fnttAt ha⟩

theorem State.Serves.intt_step : ∃ t, exec (.intt ra logn) s = .next t ∧ OnlyPmem s t ∧
    t.pmem = (s.inttAt a logn.toNat).pmem :=
  ⟨_, h.exec_intt hxa hrangeA ha, rfl, rfl⟩

variable (hxb : (s.x rb).toNat = b) (hrangeB : InsidePmem s b (2 ^ logn.toNat))
  (hb : ResidueBuffer s b (2 ^ logn.toNat)) (hca : rc ≠ ra) (hcb : rc ≠ rb)
include hxb hrangeB hb hca hcb

/-- PHAD with its length register set to the transform length is PMUL's pointwise step. -/
theorem State.Serves.phad_step : ∃ t, exec (.phad ra rb rc) (s.setX rc (BitVec.ofNat 64 (2 ^ logn.toNat))) = .next t ∧
    OnlyPmem (s.setX rc (BitVec.ofNat 64 (2 ^ logn.toNat))) t ∧
      t.pmem = (s.pointwiseAt a b (2 ^ logn.toNat)).pmem ∧ ResidueBuffer t a (2 ^ logn.toNat) := by
  obtain ⟨v, hv⟩ : ∃ v, s.setX rc (BitVec.ofNat 64 (2 ^ logn.toNat)) = v := ⟨_, rfl⟩
  have hva : (v.x ra).toNat = a := by rw [← hv, x_setX_other _ _ hca.symm, hxa]
  have hvb : (v.x rb).toNat = b := by rw [← hv, x_setX_other _ _ hcb.symm, hxb]
  have hvc : (v.x rc).toNat = 2 ^ logn.toNat := by
    rw [← hv, x_setX_same, BitVec.toNat_ofNat]
    exact Nat.mod_eq_of_lt (Nat.pow_lt_pow_right (by decide) (by have := logn.isLt; omega))
  have hpmem : (v.pointwiseAt a b (2 ^ logn.toNat)).pmem = (s.pointwiseAt a b (2 ^ logn.toNat)).pmem :=
    pointwiseAt_pmem_congr (by rw [← hv, State.setX_eng]) (by rw [← hv, State.setX_pmem]) ..
  have hexec := exec_phad (s := v) (ra := ra) (rb := rb) (rc := rc)
  rw [hva, hvb, hvc, ← hv] at hexec
  rw [← hv] at hpmem
  exact ⟨_, hexec h.modv h.engine hrangeA hrangeB ha hb, (pointwiseAt_pmemOnly ..).onlyPmem_retire, hpmem,
    (residueBuffer_pointwiseAt (s := s.setX rc _) h.engine ha hb _ le_rfl).1⟩

/-- The four commands one after the other: each does PMUL's step of the same number. -/
theorem State.Serves.four_steps : ∃ t1 t2 t3 t4,
    exec (.fntt ra logn) s = .next t1 ∧ exec (.fntt rb logn) t1 = .next t2 ∧
      exec (.phad ra rb rc) (t2.setX rc (BitVec.ofNat 64 (2 ^ logn.toNat))) = .next t3 ∧
      exec (.intt ra logn) t3 = .next t4 ∧ (s.convolve a b logn).pmem = t4.pmem ∧
      (s.convolve a b logn).twf = t4.twf ∧ (s.convolve a b logn).twi = t4.twi ∧
      (s.convolve a b logn).twcov = t4.twcov := by
  -- FNTT of A, FNTT of B
  obtain ⟨t1, exec1, only1, pmem1, keep1⟩ := h.fntt_step hxa hrangeA ha
  have h1 := only1.serves h
  have hrangeB1 := only1.insidePmem hrangeB
  obtain ⟨t2, exec2, only2, pmem2, keep2⟩ := h1.fntt_step (only1.x rb ▸ hxb) hrangeB1 (keep1 hb)
  -- PHAD, INTT of A
  have h2 := only2.serves h1
  have hrangeA2 := only2.insidePmem (only1.insidePmem hrangeA)
  have hxa2 : t2.x ra = s.x ra := (only2.x ra).trans (only1.x ra)
  have hxb2 : t2.x rb = s.x rb := (only2.x rb).trans (only1.x rb)
  obtain ⟨t3, exec3, only3, pmem3, ha3⟩ := h2.phad_step (hxa2 ▸ hxa) hrangeA2 (keep2 (keep1 ha)) (hxb2 ▸ hxb)
    (only2.insidePmem hrangeB1) (keep2 (keep1 hb)) hca hcb
  have hxa3 : t3.x ra = s.x ra := (only3.x ra).trans ((x_setX_other _ _ hca.symm).trans hxa2)
  obtain ⟨t4, exec4, only4, pmem4⟩ := (only3.serves (h2.setX rc _)).intt_step (hxa3 ▸ hxa)
    (only3.insidePmem hrangeA2) ha3
  refine ⟨t1, t2, t3, t4, exec1, exec2, exec3, exec4, ?_⟩
  have unit2 : t2.twiddleUnit = s.twiddleUnit := only2.twiddleUnit_eq.trans only1.twiddleUnit_eq
  have unit3 : t3.twiddleUnit = s.twiddleUnit := only3.twiddleUnit_eq.trans unit2
  have unit4 : t4.twiddleUnit = s.twiddleUnit := only4.twiddleUnit_eq.trans unit3
  have unitPmul := (convolve_pmemOnly s a b logn).twiddleUnit_eq
  obtain ⟨-, htwf, htwi, htwcov⟩ := twiddleUnit_eq_iff.1 (unitPmul.trans unit4.symm)
  exact ⟨(convolve_pmem_of_steps ha hb only1.twiddleUnit_eq unit2 unit3 pmem1 pmem2 pmem3).trans pmem4.symm, htwf, htwi,
    htwcov⟩

end

/-- Settles O34: on the state that Precompute leaves each command does PMUL's step of the same number (`four_steps`). -/
theorem pmulIsFourSteps : Obligations.PmulIsFourSteps := by
  intro s ra rb rc logn h hrootv hfits hrangeA hrangeB a b n
  have hmodv := h.root_needs_engine hrootv
  have hwritten := PmemWritten.convolve (s.precompute logn) a b logn
  refine ⟨_, exec_pmul hmodv hrootv hfits hrangeA hrangeB, hwritten.onlyPmemAndTables, fun c ha hb => ?frame,
    fun j hj => convolve_exists _ _ _ _ hj, fun ha hb hca hcb => ?steps⟩
  case frame => exact (convolve_outside _ _ _ _ _ ha hb).trans (congrArg (peek · c) (s.precompute_pmem logn))
  case steps =>
    rw [← exec_fntt_precompute h hrootv hfits hrangeA]
    exact (h.serves_precompute hrootv hfits).four_steps (congrArg BitVec.toNat (s.precompute_x logn ra))
      (precompute_insidePmem_iff.2 hrangeA) (precompute_residueBuffer_iff.2 ha)
      (congrArg BitVec.toNat (s.precompute_x logn rb)) (precompute_insidePmem_iff.2 hrangeB)
      (precompute_residueBuffer_iff.2 hb) hca hcb

end Sys2Proof.Machine
end

section
/-! PROOFS. What the transforms compute on classes (45_ntt R216, R218, R220, R221): the round trips over a prime
modulus, and, for a root whose stage root has the full order, evaluation and cyclic convolution. -/

-- One declaration at a time: as one text the package has too many theorems for a thread each within the memory limit.
set_option Elab.async false

namespace Sys2Proof.Machine

/-! ### The round trips (45_ntt R218, R221 property 1) -/

section
variable {e : Engine} (he : e.Lawful) [hp : Fact e.m.toNat.Prime] {mem table : WordMem} {base logn : Nat}
  {c w w' : Nat → ZMod e.m.toNat} (hww : ∀ i, w i * w' i = 1)
include he

/-- A power of two is invertible modulo an odd prime. -/
theorem length_ne_zero (logn : Nat) : (2 ^ logn : ZMod e.m.toNat) ≠ 0 := by
  refine pow_ne_zero _ fun h2 => ?_
  have hdvd : e.m.toNat ∣ 2 ^ 64 :=
    ((ZMod.natCast_eq_zero_iff 2 _).1 (by exact_mod_cast h2)).trans (dvd_pow_self 2 (by decide))
  exact hp.out.one_lt.ne' ((Nat.gcd_eq_left hdvd).symm.trans he.coprime_radix)

include hww

/-- INTT undoes a forward network. -/
theorem Engine.HoldsClasses.intt_forwardNetwork (hlogn : logn < 64)
    (hw' : e.ClassesAre (2 ^ (logn - 1)) (wordAt table) w')
    (h : e.HoldsClasses mem base (2 ^ logn) (forwardNetwork w logn c)) :
    e.HoldsClasses (storeNats mem base (e.intt table logn (loadRange mem base (2 ^ logn)))) base (2 ^ logn) c := by
  have hintt := h.intt he hlogn hw'
  have hcancel := inverseNetwork_forwardNetwork hww logn 1 c
  rw [one_smul, mul_one] at hcancel
  rwa [hcancel, inv_smul_smul₀ (length_ne_zero he logn)] at hintt

/-- FNTT undoes a scaled inverse network. -/
theorem Engine.HoldsClasses.fntt_inverseNetwork (hw : e.ClassesAre (2 ^ (logn - 1)) (wordAt table) w)
    (h : e.HoldsClasses mem base (2 ^ logn) ((2 ^ logn : ZMod e.m.toNat)⁻¹ • inverseNetwork w' logn c)) :
    e.HoldsClasses (storeNats mem base (e.fntt table logn (loadRange mem base (2 ^ logn)))) base (2 ^ logn) c := by
  have hfntt := h.fntt he hw
  rwa [forwardNetwork_inverseNetwork hww, mul_inv_cancel₀ (length_ne_zero he logn), one_smul] at hfntt

end

section
variable {s : State} {logn : LogLen} (h : s.Serves logn) [hp : Fact s.eng.m.toNat.Prime]
include h

/-- The two tables hold inverse classes. -/
theorem State.Serves.inverse_twiddles (hroot : ¬ s.eng.m.toNat ∣ s.root.toNat) :
    ∃ w w' : Nat → ZMod s.eng.m.toNat, (∀ i, w i * w' i = 1) ∧
      s.eng.ClassesAre (2 ^ (logn.toNat - 1)) (wordAt s.twf) w ∧
      s.eng.ClassesAre (2 ^ (logn.toNat - 1)) (wordAt s.twi) w' := by
  have hg : (s.root.toNat : ZMod s.eng.m.toNat) ≠ 0 := mt (ZMod.natCast_eq_zero_iff _ _).1 hroot
  refine ⟨_, _, fun i => ?_,
    h.forward.classesAre_twiddle h.engine fun n => classIs_rootForward h.engine h.classIs_rootr n,
    h.inverse.classesAre_twiddle h.engine fun n => classIs_rootInverse h.engine h.classIs_rootr n⟩
  exact twiddle_mul_twiddle (fun n => by rw [← mul_pow, inv_mul_cancel₀ hg, one_pow]) i

/-- Either transform after the other restores every class. -/
theorem State.Serves.round_trips (hroot : ¬ s.eng.m.toNat ∣ s.root.toNat) {ra : Reg} {base : Nat}
    (hx : (s.x ra).toNat = base) (hrange : InsidePmem s base (2 ^ logn.toNat))
    (hbuffer : ResidueBuffer s base (2 ^ logn.toNat)) :
    (∃ t u, exec (.fntt ra logn) s = .next t ∧ exec (.intt ra logn) t = .next u ∧
      ∀ j < 2 ^ logn.toNat, u.classAt base j = s.classAt base j) ∧
      ∃ t u, exec (.intt ra logn) s = .next t ∧ exec (.fntt ra logn) t = .next u ∧
        ∀ j < 2 ^ logn.toNat, u.classAt base j = s.classAt base j := by
  have he := h.engine
  have h64 : logn.toNat < 64 := logn.isLt
  obtain ⟨w, w', hww, hw, hw'⟩ := h.inverse_twiddles hroot
  have hclasses := holdsClasses_of_residueBuffer he hbuffer
  have restored : ∀ {u : State}, u.eng = s.eng → s.eng.HoldsClasses u.pmem base (2 ^ logn.toNat)
      (fun j => (s.classAt base j : ZMod s.eng.m.toNat)) →
      ∀ j < 2 ^ logn.toNat, u.classAt base j = s.classAt base j := fun heng hu j hj =>
    (classAt_of_holdsClasses he heng hu hj rfl).trans (Nat.mod_eq_of_lt (classAt_lt he hbuffer hj))
  refine ⟨?forwardFirst, ?inverseFirst⟩
  case forwardFirst =>
    obtain ⟨t, exec1, only1, pmem1, keep1⟩ := h.fntt_step hx hrange hbuffer
    obtain ⟨u, exec2, only2, pmem2⟩ :=
      (only1.serves h).intt_step (only1.x ra ▸ hx) (only1.insidePmem hrange) (keep1 hbuffer)
    obtain ⟨eng1, -, twi1, -⟩ := twiddleUnit_eq_iff.1 only1.twiddleUnit_eq
    obtain ⟨eng2, -⟩ := twiddleUnit_eq_iff.1 only2.twiddleUnit_eq
    refine ⟨t, u, exec1, exec2, restored (eng2.trans eng1) ?_⟩
    rw [pmem2, State.inttAt_pmem, eng1, twi1, pmem1, State.fnttAt_pmem]
    exact (hclasses.fntt he hw).intt_forwardNetwork he hww h64 hw'
  case inverseFirst =>
    obtain ⟨t, exec1, only1, pmem1⟩ := h.intt_step hx hrange hbuffer
    obtain ⟨eng1, twf1, -, -⟩ := twiddleUnit_eq_iff.1 only1.twiddleUnit_eq
    have hinverse := hclasses.intt he h64 hw'
    rw [← State.inttAt_pmem, ← pmem1] at hinverse
    obtain ⟨u, exec2, only2, pmem2, -⟩ := (only1.serves h).fntt_step (only1.x ra ▸ hx) (only1.insidePmem hrange)
      (residueBuffer_of_holdsClasses he eng1 hinverse)
    obtain ⟨eng2, -⟩ := twiddleUnit_eq_iff.1 only2.twiddleUnit_eq
    refine ⟨t, u, exec1, exec2, restored (eng2.trans eng1) ?_⟩
    rw [pmem2, State.fnttAt_pmem, eng1, twf1]
    exact hinverse.fntt_inverseNetwork he hww hw

end

/-- Settles O35: the networks undo each other up to the factor n (`inverseNetwork_forwardNetwork`,
`forwardNetwork_inverseNetwork`), which `Intt` divides by. -/
theorem transformRoundTrip : Obligations.TransformRoundTrip := by
  intro s ra logn h hrootv hprime hroot hfits hrange hbuffer
  have : Fact (s.precompute logn).eng.m.toNat.Prime := ⟨by rwa [s.precompute_eng]⟩
  have htrips := (h.serves_precompute hrootv hfits).round_trips (by rwa [s.precompute_eng, s.precompute_root])
    (congrArg BitVec.toNat (s.precompute_x logn ra)) (precompute_insidePmem_iff.2 hrange)
    (precompute_residueBuffer_iff.2 hbuffer)
  simp only [exec_fntt_precompute h hrootv hfits hrange, exec_intt_precompute h hrootv hfits hrange,
    s.precompute_classAt] at htrips
  exact htrips

/-! ### Twiddles in closed form (45_ntt R213) -/

/-- The recurrence of 45_ntt R212 in the exponents of an n-th root. -/
theorem pow_bitReverse_grown {R : Type} [CommRing R] (x : R) {order logn j k : Nat} (hdvd : 2 ^ logn ∣ order)
    (hj : j + 2 ≤ logn) (hk : k < 2 ^ j) : (x ^ (order / 2 ^ logn)) ^ bitReverse (logn - 1) (2 ^ j + k) =
      (x ^ (order / 2 ^ logn)) ^ bitReverse (logn - 1) k * x ^ (order / 2 ^ (j + 2)) := by
  have hexponent : order / 2 ^ logn * 2 ^ (logn - 1 - 1 - j) = order / 2 ^ (j + 2) := by
    obtain ⟨q, rfl⟩ := hdvd
    have hsplit : 2 ^ logn = 2 ^ (j + 2) * 2 ^ (logn - 1 - 1 - j) := by
      rw [← Nat.pow_add]
      congr 1
      omega
    rw [Nat.mul_div_cancel_left _ (by positivity), hsplit, mul_assoc, Nat.mul_div_cancel_left _ (by positivity),
      mul_comm]
  rw [bitReverse_add_two_pow (by omega) hk, pow_add, ← pow_mul x _ (2 ^ _), hexponent]

section
variable {s : State} {logn : LogLen} (h : s.Serves logn) [hp : Fact s.eng.m.toNat.Prime]
  (hdvd : 2 ^ logn.toNat ∣ s.eng.m.toNat - 1)
include h hdvd

theorem State.Serves.classesAre_twf : s.eng.ClassesAre (2 ^ (logn.toNat - 1)) (wordAt s.twf) fun i =>
    ((s.root.toNat : ZMod s.eng.m.toNat)⁻¹ ^ ((s.eng.m.toNat - 1) / 2 ^ logn.toNat)) ^ bitReverse (logn.toNat - 1) i :=
  h.forward.classesAre h.engine (fun n => classIs_rootForward h.engine h.classIs_rootr n)
    (by rw [bitReverse_zero, pow_zero]) fun _ _ => pow_bitReverse_grown _ hdvd

theorem State.Serves.classesAre_twi : s.eng.ClassesAre (2 ^ (logn.toNat - 1)) (wordAt s.twi) fun i =>
    ((s.root.toNat : ZMod s.eng.m.toNat) ^ ((s.eng.m.toNat - 1) / 2 ^ logn.toNat)) ^ bitReverse (logn.toNat - 1) i :=
  h.inverse.classesAre h.engine (fun n => classIs_rootInverse h.engine h.classIs_rootr n)
    (by rw [bitReverse_zero, pow_zero]) fun _ _ => pow_bitReverse_grown _ hdvd

end

/-! ### The root of the transform under its preconditions (45_ntt R210, R211) -/

section
variable {m g logn : Nat} [hp : Fact m.Prime] (h : TransformPrecondition m (2 ^ logn) g)
include h

theorem TransformPrecondition.root_ne_zero : (g : ZMod m) ≠ 0 := by
  obtain ⟨_, hdvd, horder⟩ := h
  intro hzero
  have hone := pow_orderOf_eq_one ((g : ZMod m) ^ ((m - 1) / 2 ^ logn))
  rw [horder, ← pow_mul, Nat.div_mul_cancel hdvd, hzero, zero_pow (Nat.sub_ne_zero_of_lt hp.out.one_lt)] at hone
  exact zero_ne_one hone

/-- The inverse stage root to the power n/2 is the element of order 2. -/
theorem TransformPrecondition.half_pow (hlogn : 1 ≤ logn) :
    ((g : ZMod m)⁻¹ ^ ((m - 1) / 2 ^ logn)) ^ 2 ^ (logn - 1) = -1 := by
  obtain ⟨_, _, horder⟩ := h
  have hprimitive := IsPrimitiveRoot.orderOf ((g : ZMod m) ^ ((m - 1) / 2 ^ logn))
  rw [horder] at hprimitive
  have hhalf : 2 ^ logn = 2 ^ (logn - 1) * 2 := by rw [← Nat.pow_succ, Nat.succ_eq_add_one, Nat.sub_add_cancel hlogn]
  have htwo := (hprimitive.pow (by positivity) hhalf).eq_neg_one_of_two_right
  rw [inv_pow, inv_pow, htwo, inv_neg_one]

/-- ω is an n-th root of unity. -/
theorem TransformPrecondition.pow_length : ((g : ZMod m)⁻¹ ^ ((m - 1) / 2 ^ logn)) ^ 2 ^ logn = 1 := by
  rw [← pow_mul, Nat.div_mul_cancel h.2.1, inv_pow, ZMod.pow_card_sub_one_eq_one h.root_ne_zero, inv_one]

/-- ω as a power of g (45_ntt R211). -/
theorem TransformPrecondition.inv_pow_eq :
    (g : ZMod m)⁻¹ ^ ((m - 1) / 2 ^ logn) = (g : ZMod m) ^ (m - 1 - (m - 1) / 2 ^ logn) := by
  rw [inv_pow]
  refine inv_eq_of_mul_eq_one_left ?_
  rw [← pow_add, Nat.sub_add_cancel (Nat.div_le_self _ _), ZMod.pow_card_sub_one_eq_one h.root_ne_zero]

end

/-! ### Evaluation (45_ntt R216) -/

section
variable {s : State} {logn : LogLen} (h : s.Serves logn) [hp : Fact s.eng.m.toNat.Prime]
  (hpre : TransformPrecondition s.eng.m.toNat (2 ^ logn.toNat) s.root.toNat)
include h hpre

theorem State.Serves.fntt_evaluates {ra : Reg} {base : Nat} (hx : (s.x ra).toNat = base)
    (hrange : InsidePmem s base (2 ^ logn.toNat)) (hbuffer : ResidueBuffer s base (2 ^ logn.toNat)) :
    ∃ t, exec (.fntt ra logn) s = .next t ∧ ∀ i < 2 ^ logn.toNat, t.classAt base i =
      (∑ j ∈ Finset.range (2 ^ logn.toNat), s.classAt base j * s.root.toNat ^
          ((s.eng.m.toNat - 1 - (s.eng.m.toNat - 1) / 2 ^ logn.toNat) * j * bitReverse logn.toNat i)) %
        s.eng.m.toNat := by
  have he := h.engine
  obtain ⟨t, hexec, honly, hpmem, -⟩ := h.fntt_step hx hrange hbuffer
  obtain ⟨heng, -⟩ := twiddleUnit_eq_iff.1 honly.twiddleUnit_eq
  have hclasses := (holdsClasses_of_residueBuffer he hbuffer).fntt he (h.classesAre_twf hpre.2.1)
  rw [← State.fnttAt_pmem, ← hpmem] at hclasses
  refine ⟨t, hexec, fun i hi => classAt_of_holdsClasses he heng hclasses hi ?_⟩
  rw [forwardNetwork_evaluates hpre.half_pow _ hi, Nat.cast_sum]
  refine Finset.sum_congr rfl fun j _ => ?_
  rw [hpre.inv_pow_eq, ← pow_mul, ← pow_mul, mul_assoc, mul_comm (bitReverse _ _), Nat.cast_mul, Nat.cast_pow,
    ← mul_assoc]

end

/-- Settles O36: the network evaluates (`forwardNetwork_evaluates`) with the tables in closed form. -/
theorem forwardTransformEvaluates : Obligations.ForwardTransformEvaluates := by
  intro s ra logn h hrootv hfits hpre hrange hbuffer
  have : Fact (s.precompute logn).eng.m.toNat.Prime := ⟨by rw [s.precompute_eng]; exact hpre.1⟩
  have hevaluates := (h.serves_precompute hrootv hfits).fntt_evaluates (by rwa [s.precompute_eng, s.precompute_root])
    (congrArg BitVec.toNat (s.precompute_x logn ra)) (precompute_insidePmem_iff.2 hrange)
    (precompute_residueBuffer_iff.2 hbuffer)
  simp only [exec_fntt_precompute h hrootv hfits hrange, s.precompute_classAt, s.precompute_eng,
    s.precompute_root] at hevaluates
  exact hevaluates

/-! ### Convolution (45_ntt R220 point 2, R221 property 2) -/

/-- At an n-th root of unity a cyclic convolution has the product of the values. -/
theorem sum_cyclicConvolution {R : Type} [CommRing R] {n : Nat} (hn : 0 < n) {z : R} (hz : z ^ n = 1)
    (f g : Nat → Nat) : ∑ k ∈ Finset.range n, (cyclicConvolution n f g k : R) * z ^ k =
      (∑ i ∈ Finset.range n, (f i : R) * z ^ i) * ∑ j ∈ Finset.range n, (g j : R) * z ^ j := by
  have term : ∀ i j, ∑ k ∈ Finset.range n, (if (i + j) % n = k then (f i * g j : R) else 0) * z ^ k =
      (f i : R) * z ^ i * ((g j : R) * z ^ j) := fun i j => by
    simp only [ite_mul, zero_mul]
    rw [Finset.sum_ite_eq, if_pos (Finset.mem_range.2 (Nat.mod_lt _ hn)), ← pow_eq_pow_mod _ hz]
    ring
  simp only [cyclicConvolution, Nat.cast_sum, Nat.cast_ite, Nat.cast_mul, Nat.cast_zero, Finset.sum_mul]
  rw [Finset.sum_comm]
  refine Finset.sum_congr rfl fun i _ => ?_
  rw [Finset.sum_comm, Finset.mul_sum]
  exact Finset.sum_congr rfl fun j _ => term i j

/-- The convolution theorem: the product of two transforms is the transform of the cyclic convolution. -/
theorem forwardNetwork_cyclicConvolution {R : Type} [CommRing R] {ω : R} {logn : Nat}
    (hhalf : 1 ≤ logn → ω ^ 2 ^ (logn - 1) = -1) (hω : ω ^ 2 ^ logn = 1) (f g : Nat → Nat) {i : Nat}
    (hi : i < 2 ^ logn) : forwardNetwork (fun i => ω ^ bitReverse (logn - 1) i) logn (fun j => (f j : R)) i *
        forwardNetwork (fun i => ω ^ bitReverse (logn - 1) i) logn (fun j => (g j : R)) i =
      forwardNetwork (fun i => ω ^ bitReverse (logn - 1) i) logn
        (fun j => (cyclicConvolution (2 ^ logn) f g j : R)) i := by
  have hz : (ω ^ bitReverse logn i) ^ 2 ^ logn = 1 := by rw [pow_right_comm, hω, one_pow]
  rw [forwardNetwork_evaluates hhalf _ hi, forwardNetwork_evaluates hhalf _ hi, forwardNetwork_evaluates hhalf _ hi,
    sum_cyclicConvolution (by positivity) hz]

/-- The pointwise step on disjoint buffers multiplies the classes. -/
theorem holdsClasses_pointwiseAt {s : State} {e : Engine} (he : e.Lawful) (heng : s.eng = e) {a b n : Nat}
    (hdisjoint : a + n ≤ b ∨ b + n ≤ a) {f g : Nat → ZMod e.m.toNat} (ha : e.HoldsClasses s.pmem a n f)
    (hb : e.HoldsClasses s.pmem b n g) :
    e.HoldsClasses (s.pointwiseAt a b n).pmem a n fun j => f j * g j := by
  have hloop : ∀ k ≤ n, e.HoldsClasses (s.pointwiseAt a b k).pmem a n fun j => if j < k then f j * g j else f j := by
    intro k
    induction k with
    | zero => exact fun _ => ha
    | succ k ih =>
      intro hk j hj
      have hold := ih (by omega)
      have hbk := hb.of_peek_eq (mem' := (s.pointwiseAt a b k).pmem) fun j hj =>
        pointwiseAt_outside s a b k _ (by omega)
      rw [pointwiseAt_succ, heng, State.setP_pmem, peek_poke]
      beta_reduce
      by_cases hjk : j = k
      · subst hjk
        have hak := hold.classIs_wordAt hj
        rw [if_neg (lt_irrefl j)] at hak
        have hproduct := hak.mul he (hbk.classIs_wordAt hj)
        rw [if_pos rfl, if_pos (Nat.lt_succ_self j)]
        exact ⟨_, rfl, by rwa [he.ofNat_toNat_of_classIs hproduct]⟩
      · rw [if_neg (by omega), if_congr (show j < k + 1 ↔ j < k by omega) rfl rfl]
        exact hold j hj
  exact (hloop n le_rfl).congr fun j hj => if_pos hj

section
variable {s : State} {logn : LogLen} (h : s.Serves logn) [hp : Fact s.eng.m.toNat.Prime]
  (hpre : TransformPrecondition s.eng.m.toNat (2 ^ logn.toNat) s.root.toNat)
include h hpre

/-- FNTT of both buffers, the product of the values, INTT: the convolution theorem. -/
theorem State.Serves.convolve_classes {a b : Nat}
    (ha : ResidueBuffer s a (2 ^ logn.toNat)) (hb : ResidueBuffer s b (2 ^ logn.toNat))
    (hdisjoint : a + 2 ^ logn.toNat ≤ b ∨ b + 2 ^ logn.toNat ≤ a) {k : Nat} (hk : k < 2 ^ logn.toNat) :
    (s.convolve a b logn).classAt a k =
      cyclicConvolution (2 ^ logn.toNat) (s.classAt a) (s.classAt b) k % s.eng.m.toNat := by
  have he := h.engine
  have htwf := h.classesAre_twf hpre.2.1
  -- FNTT of A, FNTT of B
  let u1 := s.fnttAt a logn.toNat
  let u2 := u1.fnttAt b logn.toNat
  have ha1 : s.eng.HoldsClasses u1.pmem a _ _ := (holdsClasses_of_residueBuffer he ha).fntt he htwf
  have hb1 : s.eng.HoldsClasses u1.pmem b _ _ := (holdsClasses_of_residueBuffer he hb).of_peek_eq fun j hj =>
    fnttAt_outside s a _ _ (by omega)
  have hb2 : s.eng.HoldsClasses u2.pmem b _ _ := hb1.fntt he htwf
  have ha2 : s.eng.HoldsClasses u2.pmem a _ _ := ha1.of_peek_eq fun j hj => fnttAt_outside u1 b _ _ (by omega)
  -- the pointwise step
  have heng2 : u2.eng = s.eng := rfl
  have hproduct := holdsClasses_pointwiseAt he heng2 hdisjoint ha2 hb2
  have htransform := hproduct.congr fun i hi =>
    forwardNetwork_cyclicConvolution hpre.half_pow hpre.pow_length (s.classAt a) (s.classAt b) hi
  -- INTT of A
  let u3 := u2.pointwiseAt a b (2 ^ logn.toNat)
  obtain ⟨heng3, -, htwi3, -⟩ : u3.eng = s.eng ∧ u3.twf = s.twf ∧ u3.twi = s.twi ∧ u3.twcov = s.twcov :=
    twiddleUnit_eq_iff.1 (pointwiseAt_pmemOnly u2 a b _).twiddleUnit_eq
  have hresult := htransform.intt_forwardNetwork he
    (fun i => by rw [← mul_pow, ← mul_pow, inv_mul_cancel₀ hpre.root_ne_zero, one_pow, one_pow]) logn.isLt
    (h.classesAre_twi hpre.2.1)
  have hpmem : (u3.inttAt a logn.toNat).pmem = storeNats u3.pmem a
      (s.eng.intt s.twi logn.toNat (loadRange u3.pmem a (2 ^ logn.toNat))) := by
    rw [State.inttAt_pmem, heng3, htwi3]
  rw [← hpmem] at hresult
  rw [convolve_of_residueBuffer ha hb]
  have heng4 : (u3.inttAt a logn.toNat).eng = s.eng := heng3
  exact classAt_of_holdsClasses he heng4 hresult hk rfl

end

/-- Settles O37: the convolution theorem (`forwardNetwork_cyclicConvolution`), and INTT inverts the transform. -/
theorem pmulIsCyclicConvolution : Obligations.PmulIsCyclicConvolution := by
  intro s ra rb logn h hrootv hfits hpre hrangeA hrangeB ha hb hdisjoint
  have : Fact (s.precompute logn).eng.m.toNat.Prime := ⟨by rw [s.precompute_eng]; exact hpre.1⟩
  refine ⟨_, exec_pmul (h.root_needs_engine hrootv) hrootv hfits hrangeA hrangeB, fun k hk => ?_⟩
  have hclasses := (h.serves_precompute hrootv hfits).convolve_classes (by rwa [s.precompute_eng, s.precompute_root])
    (precompute_residueBuffer_iff.2 ha) (precompute_residueBuffer_iff.2 hb) hdisjoint hk
  rw [s.precompute_eng, funext (s.precompute_classAt logn (s.x ra).toNat),
    funext (s.precompute_classAt logn (s.x rb).toNat)] at hclasses
  exact hclasses

end Sys2Proof.Machine
end

section
/-! PROOFS. PLD and PST (46_poly_elementwise R240, R241), and the element-wise commands (R242 to R249): after n elements
of the vector form each of them is the word `VectorElement` defines, unspoiled, however the operands overlap; an element
of the scalar form is read as the command found it. -/

-- One declaration at a time: as one text the package has too many theorems for a thread each within the memory limit.
set_option Elab.async false

namespace Sys2Proof.Machine

/-! ### Element access (46_poly_elementwise R240, R241) -/

theorem loadElement_of_peek {s : State} {a : Nat} {w : Word} (h : peek s.pmem a = some w) (rd : Reg) :
    s.loadElement rd a = s.setX rd w := by
  rw [State.loadElement, h]

theorem loadElement_of_unwritten {s : State} {a : Nat} (h : peek s.pmem a = none) (rd : Reg) :
    s.loadElement rd a = s.setXFree rd := by
  rw [State.loadElement, h]

section
variable {s : State} {ra : Reg} (hrange : (s.x ra).toNat < 2 ^ s.cfg.plog)
include hrange

theorem exec_pld (rd : Reg) : exec (.pld rd ra) s = .next (s.loadElement rd (s.x ra).toNat).retire := by
  change finish s (s.needRange (s.x ra).toNat 1 >>= fun _ => .ok (s.loadElement rd (s.x ra).toNat)) = _
  rw [needRange_ok (.inr hrange)]
  rfl

theorem exec_pst (rb : Reg) : exec (.pst ra rb) s = .next (s.setP (s.x ra).toNat (s.x rb)).retire := by
  change finish s (s.needRange (s.x ra).toNat 1 >>= fun _ => .ok (s.setP (s.x ra).toNat (s.x rb))) = _
  rw [needRange_ok (.inr hrange)]
  rfl

/-- PLD of a word that is there copies it (46_poly_elementwise R240). -/
theorem writesReg_pld (rd : Reg) {w : Word} (hw : peek s.pmem (s.x ra).toNat = some w) :
    WritesReg (.pld rd ra) s rd w := by
  refine writesReg_of_exec ?_
  rw [exec_pld hrange, loadElement_of_peek hw]

end

/-- Settles O38: PLD by whether the word has been written (`loadElement_of_peek`, `loadElement_of_unwritten`), PST by
what a store leaves (`peek_poke_same`, `peek_poke_other`). -/
theorem elementAccessResults : Obligations.ElementAccessResults := by
  intro s rd ra rb hrange
  refine ⟨fun w => writesReg_pld hrange rd, fun hnone => ?unwritten, _, exec_pst hrange rb,
    peek_poke_same _ _ _, fun c hc => ?outside, rfl⟩
  case unwritten =>
    refine writesSomeWord_of_exec ?_
    rw [exec_pld hrange, loadElement_of_unwritten hnone]
  case outside => exact peek_poke_other _ _ (by omega)

/-- Settles O39: PST leaves the address register and the depth alone, so PLD finds the stored word. -/
theorem storeThenLoadReturnsWord : Obligations.StoreThenLoadReturnsWord := by
  intro s rd ra rb hrange
  refine ⟨_, exec_pst hrange rb, ?_⟩
  have hrange' : ((s.setP (s.x ra).toNat (s.x rb)).retire.x ra).toNat < 2 ^ s.cfg.plog := hrange
  exact writesReg_pld hrange' rd (peek_poke_same s.pmem (s.x ra).toNat (s.x rb))

/-! ### Residue elements in the statements' terms -/

theorem residueAt_eq_some_iff {s : State} {a u : Nat} :
    s.residueAt a = some u ↔ ResidueWord s.eng (peek s.pmem a) u := by
  rw [residueAt_eq_some]
  refine exists_congr fun w => and_congr_right fun _ => ?_
  constructor <;>
  · rintro ⟨rfl, hlt⟩
    exact ⟨rfl, hlt⟩

theorem residue_of_residueWord {s : State} {r : Reg} {v : Nat} (h : ResidueWord s.eng (some (s.x r)) v) :
    s.residue r = some v := by
  obtain ⟨_, hread, rfl, hlt⟩ := h
  cases hread
  exact residue_eq_some.2 ⟨rfl, hlt⟩

theorem PmemOnly.eng {s t : State} (h : PmemOnly s t) : t.eng = s.eng := by
  obtain ⟨_, _, rfl⟩ := h.eq_update
  rfl

/-- A state that differs in PMEM only reads the same residue element wherever the word is the same. -/
theorem PmemOnly.residueAt {s t : State} (h : PmemOnly s t) {a u : Nat} {read : Option Word}
    (hread : peek t.pmem a = read) (hu : ResidueWord s.eng read u) : t.residueAt a = some u := by
  rw [residueAt_eq_some_iff, h.eng, hread]
  exact hu

/-- A PMEM write puts some word at its address, and the word of the value where there is one. -/
theorem peek_setPValue_same (s : State) (a : Nat) (x : Option Nat) :
    ∃ w, peek (s.setPValue a x).pmem a = some w ∧ ∀ v, x = some v → w = BitVec.ofNat 64 v := by
  rw [peek_setPValue, if_pos rfl]
  refine ⟨_, rfl, ?_⟩
  rintro v rfl
  rfl

theorem peek_setPValue_other (s : State) {a c : Nat} (x : Option Nat) (h : c ≠ a) :
    peek (s.setPValue a x).pmem c = peek s.pmem c := by
  rw [peek_setPValue, if_neg h]

/-! ### The vector form (46_poly_elementwise R249) -/

/-- The vector form after n elements: the state, and the addresses it has spoiled. -/
def vectorRun (op : Nat → Nat → Nat) (a b : Nat) (s : State) (n : Nat) : State × List Nat :=
  (List.range n).foldl (vectorStep op a b) (s, [])

/-- Element k is done: it is there, and where `VectorElement` defines it, it is that word and not spoiled. -/
def ElementDone (s : State) (op : Nat → Nat → Nat) (a b : Nat) (p : State × List Nat) (k : Nat) : Prop :=
  ∃ w, peek p.1.pmem (a + k) = some w ∧ ∀ v, VectorElement s op a b k v → w = v ∧ a + k ∉ p.2

section
variable (op : Nat → Nat → Nat) (a b : Nat) (s : State)

theorem vectorForm_eq_vectorRun (n : Nat) : vectorForm op a b n s = (vectorRun op a b s n).1 := rfl

theorem vectorRun_succ (n : Nat) : vectorRun op a b s (n + 1) = vectorStep op a b (vectorRun op a b s n) n := by
  rw [vectorRun, List.range_succ, List.foldl_append, List.foldl_cons, List.foldl_nil, ← vectorRun]

theorem vectorRun_pmemOnly (n : Nat) : PmemOnly s (vectorRun op a b s n).1 := vectorForm_pmemOnly op a b n s

/-- Only addresses of elements already done are spoiled. -/
theorem vectorRun_spoiled (n : Nat) : ∀ c ∈ (vectorRun op a b s n).2, a ≤ c ∧ c < a + n := by
  induction n with
  | zero => exact fun _ hc => absurd hc List.not_mem_nil
  | succ n ih =>
    intro c hc
    rw [vectorRun_succ, vectorStep_eq] at hc
    have hcases : c = a + n ∨ c ∈ (vectorRun op a b s n).2 := by
      dsimp only at hc
      split at hc
      · exact List.mem_cons.1 hc
      · exact .inr hc
    rcases hcases with rfl | hold
    · omega
    · have := ih c hold
      omega

variable {op a b s} {n : Nat}

/-- Where B's element n lies in A's part already done, it reads the word defined there; elsewhere the old word. Either
way it is not spoiled, so the step gives the element its defined value. -/
theorem vectorValue_of_vectorElement (hdone : ∀ k < n, ElementDone s op a b (vectorRun op a b s n) k) {w : Word}
    (hw : VectorElement s op a b n w) :
    ∃ v, vectorValue op a b (vectorRun op a b s n).1 (vectorRun op a b s n).2 n = some v ∧
      w = BitVec.ofNat 64 v := by
  have honly := vectorRun_pmemOnly op a b s n
  have hold : ∀ c, (c < a ∨ a + n ≤ c) → peek (vectorRun op a b s n).1.pmem c = peek s.pmem c :=
    vectorForm_outside op a b n s
  have hspoiled := vectorRun_spoiled op a b s n (b + n)
  cases hw with
  | fromOldWords _ u v hb hu hv =>
    have houtside : b + n < a ∨ a + n ≤ b + n := by omega
    exact ⟨op u v, vectorValue_eq_some.2 ⟨fun hmem => by have := hspoiled hmem; omega, u, v,
      honly.residueAt (hold _ (.inr le_rfl)) hu, honly.residueAt (hold _ houtside) hv, rfl⟩, rfl⟩
  | fromEarlierElement _ j u v w hb hj hu hw hv =>
    obtain ⟨w', hread, hdefined⟩ := hdone j (by omega)
    obtain ⟨rfl, hclean⟩ := hdefined w hw
    rw [← hj] at hread hclean
    exact ⟨op u v, vectorValue_eq_some.2 ⟨hclean, u, v, honly.residueAt (hold _ (.inr le_rfl)) hu,
      honly.residueAt hread hv, rfl⟩, rfl⟩

/-- One step leaves the elements before it done. -/
theorem ElementDone.vectorStep {p : State × List Nat} {k : Nat} (h : ElementDone s op a b p k) (hk : k < n) :
    ElementDone s op a b (vectorStep op a b p n) k := by
  obtain ⟨w, hread, hdefined⟩ := h
  rw [vectorStep_eq]
  refine ⟨w, (peek_setPValue_other _ _ (by omega)).trans hread, fun v hv => ?_⟩
  obtain ⟨hword, hclean⟩ := hdefined v hv
  refine ⟨hword, ?_⟩
  dsimp only
  split
  · exact List.not_mem_cons_of_ne_of_not_mem (by omega) hclean
  · exact hclean

/-- One step does its own element. -/
theorem elementDone_vectorStep_self (hdone : ∀ k < n, ElementDone s op a b (vectorRun op a b s n) k) :
    ElementDone s op a b (vectorStep op a b (vectorRun op a b s n) n) n := by
  rw [vectorStep_eq]
  obtain ⟨w, hread, hvalue⟩ := peek_setPValue_same (vectorRun op a b s n).1 (a + n)
    (vectorValue op a b (vectorRun op a b s n).1 (vectorRun op a b s n).2 n)
  refine ⟨w, hread, fun w' hw' => ?_⟩
  obtain ⟨v, hv, rfl⟩ := vectorValue_of_vectorElement hdone hw'
  refine ⟨hvalue v hv, fun hmem => ?_⟩
  rw [hv] at hmem
  have := vectorRun_spoiled op a b s n _ hmem
  omega

/-- After n elements all n are done (46_poly_elementwise R249). -/
theorem vectorRun_elementDone : ∀ k < n, ElementDone s op a b (vectorRun op a b s n) k := by
  induction n with
  | zero => exact fun _ hk => absurd hk (Nat.not_lt_zero _)
  | succ n ih =>
    intro k hk
    rw [vectorRun_succ]
    rcases Nat.lt_succ_iff_lt_or_eq.1 hk with hlt | rfl
    · exact (ih k hlt).vectorStep hlt
    · exact elementDone_vectorStep_self ih

end

/-- A vector command with an engine and both ranges inside PMEM has the element-wise result. -/
theorem vectorResult_of_exec {i : Instr} {s : State} {op : Nat → Nat → Nat} {ra rb rc : Reg}
    (h : exec i s = finish s (vectorEffect op ra rb rc s)) (hmodv : s.modv = true)
    (hrangeA : InsidePmem s (s.x ra).toNat (s.x rc).toNat) (hrangeB : InsidePmem s (s.x rb).toNat (s.x rc).toNat) :
    VectorResult i s op (s.x ra).toNat (s.x rb).toNat (s.x rc).toNat := by
  have heffect : vectorEffect op ra rb rc s = .ok (vectorForm op (s.x ra).toNat (s.x rb).toNat (s.x rc).toNat s) := by
    change (check .nomod s.modv >>= fun _ => s.needRange (s.x ra).toNat (s.x rc).toNat >>= fun _ =>
      s.needRange (s.x rb).toNat (s.x rc).toNat >>= fun _ => .ok (vectorForm op _ _ _ s)) = _
    rw [hmodv, needRange_ok hrangeA, needRange_ok hrangeB]
    rfl
  rw [heffect] at h
  refine ⟨_, h, (vectorForm_pmemOnly _ _ _ _ s).onlyPmem_retire, vectorForm_outside _ _ _ _ s, fun k hk => ?_⟩
  rw [State.retire_pmem, vectorForm_eq_vectorRun]
  obtain ⟨w, hread, hdefined⟩ := vectorRun_elementDone k hk
  exact ⟨w, hread, fun v hv => (hdefined v hv).1⟩

/-- Settles O40: the three commands are the vector form of their operation (`vectorRun_elementDone`). -/
theorem vectorCommandsCombineElementwise : Obligations.VectorCommandsCombineElementwise :=
  fun _ _ _ _ hmodv hrangeA hrangeB => ⟨vectorResult_of_exec rfl hmodv hrangeA hrangeB,
    vectorResult_of_exec rfl hmodv hrangeA hrangeB, vectorResult_of_exec rfl hmodv hrangeA hrangeB⟩

/-! ### The scalar form (46_poly_elementwise R249) -/

section
variable (op : Nat → Nat → Nat) (a : Nat) (s : State)

theorem scalarForm_succ (n t : Nat) : scalarForm op a (n + 1) (some t) s =
    scalarStep (fun u => op u t) a (scalarForm op a n (some t) s) n := by
  rw [scalarForm, List.range_succ, List.foldl_append, List.foldl_cons, List.foldl_nil, ← scalarForm]

/-- With a valid scalar element k becomes some word, and the operation on it where it is a residue. -/
theorem scalarForm_element (t : Nat) {n k : Nat} (hk : k < n) :
    ∃ w, peek (scalarForm op a n (some t) s).pmem (a + k) = some w ∧
      ∀ u, ResidueWord s.eng (peek s.pmem (a + k)) u → w = BitVec.ofNat 64 (op u t) := by
  induction n with
  | zero => exact absurd hk (Nat.not_lt_zero _)
  | succ n ih =>
    rw [scalarForm_succ, scalarStep]
    rcases Nat.lt_succ_iff_lt_or_eq.1 hk with hlt | rfl
    · rw [peek_setPValue_other _ _ (by omega)]
      exact ih hlt
    · obtain ⟨w, hread, hvalue⟩ := peek_setPValue_same (scalarForm op a k (some t) s) (a + k)
        (((scalarForm op a k (some t) s).residueAt (a + k)).map fun u => op u t)
      refine ⟨w, hread, fun u hu => hvalue _ ?_⟩
      have hold := scalarForm_outside op a k (some t) s (a + k) (.inr le_rfl)
      rw [(scalarForm_pmemOnly op a k (some t) s).residueAt hold hu, Option.map_some]

/-- Whatever the scalar, every element is there at the end. -/
theorem scalarForm_exists (scalar : Option Nat) {n k : Nat} (hk : k < n) :
    ∃ w, peek (scalarForm op a n scalar s).pmem (a + k) = some w := by
  cases scalar with
  | none => exact peek_freeRange_exists s a hk
  | some t =>
    obtain ⟨w, hread, -⟩ := scalarForm_element op a s t hk
    exact ⟨w, hread⟩

end

/-- A scalar command with an engine and its range inside PMEM has the element-wise result; its scalar is `f` of the
register's word where that is a residue. -/
theorem scalarResult_of_exec {i : Instr} {s : State} {op : Nat → Nat → Nat} {f : Nat → Nat} {scalar : Option Nat}
    {ra rb rc : Reg} (h : exec i s = finish s (scalarEffect op scalar ra rc s)) (hmodv : s.modv = true)
    (hrange : InsidePmem s (s.x ra).toNat (s.x rc).toNat)
    (hscalar : ∀ v, ResidueWord s.eng (some (s.x rb)) v → scalar = some (f v)) :
    ScalarResult i s (fun u v => op u (f v)) (s.x ra).toNat (s.x rb) (s.x rc).toNat := by
  have heffect : scalarEffect op scalar ra rc s = .ok (scalarForm op (s.x ra).toNat (s.x rc).toNat scalar s) := by
    change (check .nomod s.modv >>= fun _ => s.needRange (s.x ra).toNat (s.x rc).toNat >>= fun _ =>
      .ok (scalarForm op _ _ _ s)) = _
    rw [hmodv, needRange_ok hrange]
    rfl
  rw [heffect] at h
  refine ⟨_, h, (scalarForm_pmemOnly _ _ _ _ s).onlyPmem_retire, scalarForm_outside _ _ _ _ s, fun k hk => ?_⟩
  obtain ⟨w, hread⟩ := scalarForm_exists op (s.x ra).toNat s scalar hk
  refine ⟨w, hread, fun u v hu hv => ?_⟩
  rw [hscalar v hv] at hread
  obtain ⟨w', hread', hvalue⟩ := scalarForm_element op (s.x ra).toNat s (f v) hk
  cases hread.symm.trans hread'
  exact hvalue u hu

/-- Settles O41: the four commands are the scalar form of their operation (`scalarForm_element`), PSDIV's on the inverse
of its scalar. -/
theorem scalarCommandsCombineElementwise : Obligations.ScalarCommandsCombineElementwise := by
  intro s ra rb rc hmodv hrange
  have hplain : ∀ v, ResidueWord s.eng (some (s.x rb)) v → s.residue rb = some (id v) :=
    fun _ => residue_of_residueWord
  have hinverse : ∀ v, ResidueWord s.eng (some (s.x rb)) v →
      s.unary s.eng.inverse rb = some (s.eng.inverse v) := fun v hv => by
    rw [State.unary, residue_of_residueWord hv, Option.map_some]
  exact ⟨scalarResult_of_exec rfl hmodv hrange hplain, scalarResult_of_exec rfl hmodv hrange hplain,
    scalarResult_of_exec rfl hmodv hrange hplain, scalarResult_of_exec rfl hmodv hrange hinverse⟩

end Sys2Proof.Machine
end

section
/-! PROOFS. The life of a command fault (60_exceptions R270 to R274): the first failing check is taken as its record and
nothing else, the record holds off CMD writes, and CTRL.CLRERR takes it away. -/

-- One declaration at a time: as one text the package has too many theorems for a thread each within the memory limit.
set_option Elab.async false

namespace Sys2Proof.Machine

/-- Settles O10: every command ends as its first failing check says (`exec_ends`), and that check has the code the order
of R271 gives (`firstFault_of_reports`). -/
theorem firstFailingCheckIsReported : Obligations.FirstFailingCheckIsReported := by
  intro i s code hreports
  obtain ⟨c, rfl, hexec⟩ := exec_of_reports hreports
  exact ⟨_, hexec, faulted_takeFault s c⟩

/-! ### Entering and leaving the fault state (60_exceptions R272 to R274) -/

/-- A faulted block drops a CMD write, and OVR says so (70_reset_and_hazards R304). -/
theorem hostWriteGives_cmd_dropped {s : State} (herr : s.err = true) (v : Word) :
    HostWriteGives s 0x0000 v { s with ovr := true } :=
  hostWriteGives_object rfl (windowObject_register (by decide)) (hostCmd_dropped (.inr herr) v)

/-- The bits of a CTRL write of CLRERR with IE = b: CLRDONE, CLROVR and SRST are 0 (10_state R34). -/
theorem clrerr_bits : ∀ b : Bool,
    (BitVec.ofNat 64 (b.toNat + 2)).getLsbD 0 = b ∧ (BitVec.ofNat 64 (b.toNat + 2)).getLsbD 1 = true ∧
      (BitVec.ofNat 64 (b.toNat + 2)).getLsbD 2 = false ∧ (BitVec.ofNat 64 (b.toNat + 2)).getLsbD 3 = false ∧
      (BitVec.ofNat 64 (b.toNat + 2)).getLsbD 4 = false := by
  decide

/-- A CTRL write of CLRERR that keeps IE is the return from a fault and nothing else (60_exceptions R273). -/
theorem writeCtrl_clrerr (s : State) : s.writeCtrl (BitVec.ofNat 64 (s.ie.toNat + 2)) = s.clearFault := by
  obtain ⟨hie, hclrerr, hclrdone, hclrovr, hsrst⟩ := clrerr_bits s.ie
  rw [writeCtrl_eq hsrst, hie, hclrerr, hclrdone, hclrovr]
  rfl

theorem hostWriteGives_clrerr (s : State) :
    HostWriteGives s 0x0010 (BitVec.ofNat 64 (s.ie.toNat + 2)) s.clearFault :=
  writeCtrl_clrerr s ▸ hostWriteGives_ctrl s _

/-- Settles O48: the taken fault holds ERR, which drops the write; CLRERR leaves an idle block without ERR and with
nothing but the record changed, which accepts it. -/
theorem faultIsLeftByClrerr : Obligations.FaultIsLeftByClrerr := by
  intro i s t code v _ hreports hexec
  obtain ⟨c, -, htaken⟩ := exec_of_reports hreports
  obtain rfl : t = s.takeFault c := Host.Outcome.next.inj (hexec.symm.trans htaken)
  have haccept := cmdWriteIsAcceptedWhileIdle (s.takeFault c).clearFault v rfl rfl
  exact ⟨hostWriteGives_cmd_dropped rfl v, _, hostWriteGives_clrerr _, rfl, rfl, rfl, rfl, fun _ => rfl, haccept⟩

end Sys2Proof.Machine
end

section
/-! PROOFS. Reset and hazards: both resets end in the reset table (70_reset_and_hazards R300), and a CMD write that
finds CMAC busy or faulted is dropped (R304). -/

-- One declaration at a time: as one text the package has too many theorems for a thread each within the memory limit.
set_option Elab.async false

namespace Sys2Proof.Machine

/-! ### The two resets (70_reset_and_hazards R300) -/

theorem resetTable_resetNow (s : State) : ResetTable s.resetNow := resetTable_resetWith ..

/-- CONFIG keeps its constant, which at PLOG = 12 is 0x10C40 (10_state R36). -/
theorem configWord_reset : configWord State.reset = 0x10C40 := configWord_eq (s := State.reset) (by decide)

/-- The hardware reset takes the block, whatever it is doing, to `resetNow`. -/
theorem step_hardwareReset (s : State) :
    step { s with inputs := .hardwareReset :: s.inputs } = .next s.resetNow :=
  step_offered s .hardwareReset

/-- SRST beats every other bit of the same CTRL write (10_state R34), so the write is the same reset. -/
theorem hostWriteGives_srst {v : Word} (hsrst : v.toNat / 16 % 2 = 1) (s : State) :
    HostWriteGives s 0x0010 v s.resetNow := by
  have hbit : v.getLsbD 4 = true := by
    rw [getLsbD_eq_digit]
    exact decide_eq_true hsrst
  exact writeCtrl_reset hbit ▸ hostWriteGives_ctrl s v

/-- Settles O46: either reset ends in `resetNow`, which has the reset table's values and keeps the parameters and the
rest of the stream. -/
theorem resetGivesTheResetTable : Obligations.ResetGivesTheResetTable := by
  refine ⟨resetTable_resetWith .., configWord_reset, fun s => ?hardware, fun s v _ hsrst => ?soft⟩
  case hardware =>
    exact ⟨_, step_hardwareReset s, resetTable_resetNow s, State.resetNow_cfg s, State.resetNow_inputs s⟩
  case soft =>
    exact ⟨_, hostWriteGives_srst hsrst s, resetTable_resetNow s, State.resetNow_cfg s, State.resetNow_inputs s⟩

/-! ### The structural hazard of CMD (70_reset_and_hazards R304) -/

/-- Settles O6: CMD is the object at offset 0, and its write while BUSY or ERR is the dropped one
(`hostCmd_dropped`). -/
theorem cmdWriteIsDroppedWhileBusyOrFaulted : Obligations.CmdWriteIsDroppedWhileBusyOrFaulted := fun _ v hhazard =>
  hostWriteGives_object rfl (windowObject_register (by decide)) (hostCmd_dropped hhazard v)

end Sys2Proof.Machine
end
